-- ==== Sys2Proof/Word.lean ====
section
/-! DEFINITION. The machine's word types (00 R5, R6, R7, R12): a byte of a buffer and a 32-bit register, address or table entry. -/

namespace Sys2Proof

/-- An unsigned 8-bit value of a buffer: a byte or a character (00 R7). -/
abbrev Byte := BitVec 8

/-- An unsigned 32-bit value: a register, a length, a bus address or a table entry (00 R5, R12). -/
abbrev Word := BitVec 32

/-- A 6-bit value, one Base64 character's worth of data (00 R10 "Sextet"). -/
abbrev Sextet := BitVec 6

/-- A 24-bit group: three bytes or four sextets (41 R142). -/
abbrev Group := BitVec 24

end Sys2Proof
end

