-- ==== Sys2Proof/Config.lean ====
section
/-! DEFINITION. What an implementation fixes (00 R5) and the free values: opaque constants that no proof can evaluate. -/

namespace Sys2Proof.Config

/-- `ENC_BLK_IN`: input bytes per vector encode block (00 R5). -/
def encBlkIn : Nat := 24
/-- `ENC_BLK_OUT`: output characters per vector encode block (00 R5). -/
def encBlkOut : Nat := 32
/-- `DEC_BLK_IN`: input characters per vector decode block (00 R5). -/
def decBlkIn : Nat := 32
/-- `DEC_BLK_OUT`: useful output bytes per vector decode block (00 R5). -/
def decBlkOut : Nat := 24
/-- `P_ENC_VEC_MIN`: unconsumed bytes needed to start another encode block (00 R5, 42 R177). -/
def encVecMin : Nat := 24
/-- `P_DEC_VEC_MIN`: unconsumed characters needed to start another decode block (00 R5, 42 R186). -/
def decVecMin : Nat := 45
/-- `BADCHAR`, the decode table's sentinel (00 R5, 40 R123). -/
def badChar : Word := 0xFFFFFFFF
/-- The number of byte addresses of `P_ADDR_W` = 32 bits (00 R5). -/
def addrSpace : Nat := 2 ^ 32
/-- The largest value of `P_LEN_W` = 32 bits (00 R5, 43 R210). -/
def maxLen : Nat := 2 ^ 32 - 1

/-- `P_HAS_VECTOR`, OPEN (00 R5): the value `State.reset` starts with; log entry 1. -/
opaque hasVector : Bool
/-- `REG_BASE`, OPEN (00 R5): the value `State.reset` starts with; log entry 1. -/
opaque regBase : Word

/-- Any value of a byte (20 R92, 70 R261, R265, R266), one per draw; log entries 7 to 10. -/
opaque freeByte : Nat → Byte
/-- Any `RESULT` or `ERR_INFO` (70 R265), one per draw; log entry 8. -/
opaque freeWord : Nat → Word
/-- Any `ERR` code 0..7 (70 R265), one per draw; log entry 8. -/
opaque freeErr : Nat → BitVec 3
/-- Which of several admitted records is reported (60 R239) and how transfers were combined (60 R235); log entries 6 and 12. -/
opaque freeChoice : Nat → Nat

end Sys2Proof.Config
end

