-- ==== Sys2Proof/Syntax.lean ====
section
/-! DEFINITION. The commands: one constructor per row of spec/opcode_table.json (30 R102). -/

namespace Sys2Proof

/-- A decoded command word. `S` (30 R103) is carried by every command that can be accepted, because `CMD` reads it back
(43 R201); only `ENC` and `DEC` act on it. Log entry 18. -/
inductive Instr where
  /-- `OP` = 0x0, 43 R203. -/
  | nop
  /-- `OP` = 0x1, 43 R204. -/
  | enc (S : Bool)
  /-- `OP` = 0x2, 43 R205. -/
  | dec (S : Bool)
  /-- `OP` = 0x3, 43 R206. -/
  | enclen (S : Bool)
  /-- `OP` = 0x4, 43 R207. -/
  | declen (S : Bool)
  /-- `OP` = 0x5, reserved, 43 R208. -/
  | ill5 (S : Bool)
  /-- `OP` = 0x6, reserved, 43 R208. -/
  | ill6 (S : Bool)
  /-- `OP` = 0x7, reserved, 43 R208. -/
  | ill7 (S : Bool)
  /-- `OP` = 0x8, reserved, 43 R208. -/
  | ill8 (S : Bool)
  /-- `OP` = 0x9, reserved, 43 R208. -/
  | ill9 (S : Bool)
  /-- `OP` = 0xA, reserved, 43 R208. -/
  | ill10 (S : Bool)
  /-- `OP` = 0xB, reserved, 43 R208. -/
  | ill11 (S : Bool)
  /-- `OP` = 0xC, reserved, 43 R208. -/
  | ill12 (S : Bool)
  /-- `OP` = 0xD, reserved, 43 R208. -/
  | ill13 (S : Bool)
  /-- `OP` = 0xE, reserved, 43 R208. -/
  | ill14 (S : Bool)
  /-- `OP` = 0xF, reserved, 43 R208. -/
  | ill15 (S : Bool)
  deriving DecidableEq, Repr

end Sys2Proof
end

