-- ==== Sys2Proof/WellFormed.lean ====
section
/-! DEFINITION. The assembler's check (30 R110): which commands have an assembler form. The block itself executes every
command word (30 R104, R107), so decoding and the machine never consult this check; log entry 23. -/

namespace Sys2Proof

/-- 30 R110: the assembler refuses `.s` on `b64.nop`, `b64.enclen` and `b64.declen`, and `b64.ill N` has no `.s` form.
(`nop` carries no `S` at all.) -/
def Instr.wellFormed : Instr → Bool
  | .nop => true
  | .enc _ => true
  | .dec _ => true
  | .enclen S => !S
  | .declen S => !S
  | .ill5 S => !S
  | .ill6 S => !S
  | .ill7 S => !S
  | .ill8 S => !S
  | .ill9 S => !S
  | .ill10 S => !S
  | .ill11 S => !S
  | .ill12 S => !S
  | .ill13 S => !S
  | .ill14 S => !S
  | .ill15 S => !S

end Sys2Proof
end

