-- ==== Sys2Proof/Decode.lean ====
section
/-! DEFINITION. Command words to commands (30 R100 to R108), their assembler forms (30 R110), and the encoder back. -/

namespace Sys2Proof

/-- The `OP` field, bits [3:0] (30 R100). -/
def opField (w : Word) : BitVec 4 := w.extractLsb' 0 4

/-- The force-scalar bit, bit 8 (30 R100, R103). -/
def sField (w : Word) : Bool := w.getLsbD 8

/-- 30 R107: every word decodes by `OP` alone; the reserved bits are ignored (R104). -/
def decode (w : Word) : Instr :=
  match (opField w).toNat with
  | 0 => .nop
  | 1 => .enc (sField w)
  | 2 => .dec (sField w)
  | 3 => .enclen (sField w)
  | 4 => .declen (sField w)
  | 5 => .ill5 (sField w)
  | 6 => .ill6 (sField w)
  | 7 => .ill7 (sField w)
  | 8 => .ill8 (sField w)
  | 9 => .ill9 (sField w)
  | 10 => .ill10 (sField w)
  | 11 => .ill11 (sField w)
  | 12 => .ill12 (sField w)
  | 13 => .ill13 (sField w)
  | 14 => .ill14 (sField w)
  | _ => .ill15 (sField w)

/-- The register word whose byte lanes are `b0 b1 b2 b3` from the lowest address up: little-endian (20 R85). -/
def wordOfLanes (b0 b1 b2 b3 : Byte) : Word := b3 ++ b2 ++ b1 ++ b0

/-- The byte lanes of a register word from the lowest address up: little-endian (20 R85). -/
def lanesOfWord (w : Word) : List Byte :=
  [w.extractLsb' 0 8, w.extractLsb' 8 8, w.extractLsb' 16 8, w.extractLsb' 24 8]

/-- Why bytes are no command: the port takes one 32-bit word, no more and no less (10 R34, 30 R100, R108). -/
inductive DecodeError where
  /-- The transfer held `n` bytes, not the four of a command word. -/
  | notOneWord (n : Nat)
  deriving DecidableEq, Repr

/-- The command in the byte lanes of a write to `CMD`; total on any bytes, and anything but one word is rejected by name. -/
def decodeBytes : List Byte → Except DecodeError Instr
  | [b0, b1, b2, b3] => .ok (decode (wordOfLanes b0 b1 b2 b3))
  | bs => .error (.notOneWord bs.length)

/-- The `OP` value of each command (30 R102). -/
def Instr.op : Instr → BitVec 4
  | .nop => 0x0
  | .enc _ => 0x1
  | .dec _ => 0x2
  | .enclen _ => 0x3
  | .declen _ => 0x4
  | .ill5 _ => 0x5
  | .ill6 _ => 0x6
  | .ill7 _ => 0x7
  | .ill8 _ => 0x8
  | .ill9 _ => 0x9
  | .ill10 _ => 0xA
  | .ill11 _ => 0xB
  | .ill12 _ => 0xC
  | .ill13 _ => 0xD
  | .ill14 _ => 0xE
  | .ill15 _ => 0xF

/-- The `S` bit of each command (30 R100); `NOP` has none, and assembles with 0. -/
def Instr.forceScalar : Instr → Bool
  | .nop => false
  | .enc S => S
  | .dec S => S
  | .enclen S => S
  | .declen S => S
  | .ill5 S => S
  | .ill6 S => S
  | .ill7 S => S
  | .ill8 S => S
  | .ill9 S => S
  | .ill10 S => S
  | .ill11 S => S
  | .ill12 S => S
  | .ill13 S => S
  | .ill14 S => S
  | .ill15 S => S

/-- The word `OP`, `S` and zero reserved bits make (30 R100, the pattern `rrrrrrrrrrrrrrrrrrrrrrrSrrrrOOOO`). -/
def cmdWord (op : BitVec 4) (S : Bool) : Word := 0#23 ++ BitVec.ofBool S ++ 0#4 ++ op

/-- The word a command assembles to when reserved bits are 0 (30 R110). -/
def encode (i : Instr) : Word := cmdWord i.op i.forceScalar

/-- The byte lanes of `encode`, as a host stores them (20 R85). -/
def encodeBytes (i : Instr) : List Byte := lanesOfWord (encode i)

/-- The assembler form of each command it accepts (30 R110); `none` where it refuses. -/
def Instr.mnemonic? : Instr → Option String
  | .nop => some "b64.nop"
  | .enc S => some (if S then "b64.enc.s" else "b64.enc")
  | .dec S => some (if S then "b64.dec.s" else "b64.dec")
  | .enclen S => if S then none else some "b64.enclen"
  | .declen S => if S then none else some "b64.declen"
  | .ill5 S => if S then none else some "b64.ill 5"
  | .ill6 S => if S then none else some "b64.ill 6"
  | .ill7 S => if S then none else some "b64.ill 7"
  | .ill8 S => if S then none else some "b64.ill 8"
  | .ill9 S => if S then none else some "b64.ill 9"
  | .ill10 S => if S then none else some "b64.ill 10"
  | .ill11 S => if S then none else some "b64.ill 11"
  | .ill12 S => if S then none else some "b64.ill 12"
  | .ill13 S => if S then none else some "b64.ill 13"
  | .ill14 S => if S then none else some "b64.ill 14"
  | .ill15 S => if S then none else some "b64.ill 15"

/-- The command this decoder reads from a word numbered as spec/opcode_table.json numbers it: its low `nbits` bits, every
bit above 0, laid out in byte lanes as the host stores them. -/
def decodeTableWord (nbits w : Nat) : Option Instr :=
  (decodeBytes (lanesOfWord (BitVec.ofNat 32 (w % 2 ^ nbits)))).toOption

end Sys2Proof
end

