-- ==== Sys2Proof/Machine/State.lean ====
section
/-! DEFINITION. The machine's state (spec 10), plain data: parameters, the register window, the engine's hidden state, the
system memory, and the outside world's pending moves; and the state after reset (10 R57). -/

namespace Sys2Proof.Machine

/-- `phase` (10 R53): `BUSY` = 1 exactly in `run`. -/
inductive Phase where
  | idle
  | run
  deriving DecidableEq, Repr

/-- `op` (10 R53): the command being run. -/
inductive Op where
  | enc
  | dec
  | enclen
  | declen
  | illegal
  deriving DecidableEq, Repr

/-- `stage` (10 R53): how far the running command has come. -/
inductive Stage where
  | check
  | vector
  | scalar
  | finish
  deriving DecidableEq, Repr

/-- The errors of 60 R231, with what each one reports. -/
inductive CmdError where
  /-- Code 1, 60 R232. -/
  | inputLength
  /-- Code 2, 60 R233: the least index of an invalid quartet. -/
  | invalidCharacter (q : Word)
  /-- Code 3, 60 R234: the required length. -/
  | bufferTooSmall (req : Word)
  /-- Code 4, 60 R235: the address of the failed transfer. -/
  | unknown (a : Word)
  /-- Code 5, 60 R236. -/
  | illegalCommand
  /-- Code 6, 60 R237. -/
  | lengthOverflow
  /-- Code 7, 60 R238. -/
  | addressError
  deriving DecidableEq, Repr

/-- The vector working registers (10 R54): one per value the datapath of 42 R172 to R183 names. The host cannot see
them, and no rule reads a value left over from an earlier block. Log entry 24 says why `r` has its 24 useful bytes only. -/
structure VecRegs where
  w : BitVec 256
  x : BitVec 256
  s : BitVec 256
  idx : BitVec 256
  out : BitVec 256
  c : BitVec 256
  d : BitVec 256
  p : BitVec 256
  q : BitVec 256
  r : BitVec 192
  deriving DecidableEq, Repr

/-- The width of one access on the register port; only `word` is legal (10 R34). -/
inductive AccessSize where
  | byte
  | half
  | word
  | dword
  deriving DecidableEq, Repr

/-- Where an access on the register port goes: an offset in the 256-byte window, or a bus address of the platform's map, in
which the window stands at `REG_BASE` (10 R33). -/
inductive PortAddr where
  | window (off : Byte)
  | bus (a : Word)
  deriving DecidableEq, Repr

/-- The memory environment: how the platform answers the master port. The spec fixes none of it (20 R80, 93 U7), so it is
plain data that statements quantify over; log entries 8, 12, 13 and 14. -/
structure Bus where
  /-- Addresses whose reads get an error response (20 R82). -/
  rdErr : List Word
  /-- Addresses whose writes get an error response (20 R83). -/
  wrErr : List Word
  /-- Addresses whose reads have side effects or change between reads (20 R91, 70 R265). -/
  volatile : List Word
  /-- Whether transfers are answered at all (70 R272). -/
  answers : Bool
  /-- Whether the engine combines byte transfers into wider ones (20 R86, 60 R235). -/
  combined : Bool
  deriving DecidableEq, Repr

/-- What the outside world can do to the block (70 R274), to the memory beside it, and to the memory environment. -/
inductive HostAct where
  /-- A write of `v` on the register port (10 R34). -/
  | regWrite (a : PortAddr) (size : AccessSize) (v : Word)
  /-- A read on the register port (10 R34). -/
  | regRead (a : PortAddr) (size : AccessSize)
  /-- Another agent writes one byte of system memory (70 R265). -/
  | memWrite (a : Word) (v : Byte)
  /-- Another agent reads one byte of system memory (70 R266). -/
  | memRead (a : Word)
  /-- Reset is asserted (70 R260). -/
  | rstAssert
  /-- Reset is deasserted (70 R260). -/
  | rstDeassert
  /-- The platform changes how it answers the master port (93 U7). -/
  | platform (bus : Bus)
  deriving DecidableEq, Repr

/-- One pending move: what is done, and when it arrives while a command runs: after `k` more engine steps (`some k`), or,
for a host that waits (30 R111 `wait`), once `BUSY` = 0 (`none`). An idle engine is never waited for. Log entry 4. -/
structure HostMove where
  after : Option Nat
  act : HostAct
  deriving DecidableEq, Repr

/-- The answer of the last access: its data (0 for a write or a refused read) and its error response (10 R34). -/
structure Resp where
  data : Word
  err : Bool
  deriving DecidableEq, Repr

structure State where
  /-- `P_HAS_VECTOR`, OPEN (00 R5). -/
  hasVector : Bool
  /-- `REG_BASE`, OPEN (00 R5). -/
  regBase : Word
  /-- `CMD` (10 R37). -/
  cmd : Word
  /-- `STATUS.DONE` (10 R40). -/
  done : Bool
  /-- `STATUS.VSEL` (10 R39). -/
  vsel : Bool
  /-- `STATUS.OVR` (10 R41). -/
  ovr : Bool
  /-- `STATUS.ERR` (10 R42). -/
  err : BitVec 4
  /-- `SRC_ADDR` (10 R43). -/
  srcAddr : Word
  /-- `SRC_LEN` (10 R44). -/
  srcLen : Word
  /-- `DST_ADDR` (10 R45). -/
  dstAddr : Word
  /-- `DST_CAP` (10 R46). -/
  dstCap : Word
  /-- `RESULT` (10 R47). -/
  result : Word
  /-- `ERR_INFO` (10 R48). -/
  errInfo : Word
  /-- `IRQ_EN.DONE_IE` (10 R49). -/
  doneIE : Bool
  /-- The `rst` input (10 R30, 70 R260): true while asserted. -/
  rst : Bool
  /-- `phase` (10 R53), and with it `STATUS.BUSY` (10 R38). -/
  phase : Phase
  /-- `op` (10 R53). -/
  op : Op
  /-- `sel` (10 R53). -/
  sel : Bool
  /-- `stage` (10 R53). -/
  stage : Stage
  /-- `in_off` (10 R32, R53). -/
  inOff : Word
  /-- `out_off` (10 R32, R53). -/
  outOff : Word
  /-- `qbase` (10 R53). -/
  qbase : Word
  /-- `p` (10 R53). -/
  pad : Fin 3
  /-- `blk_ok` (10 R53). -/
  blkOk : Bool
  /-- The vector working registers (10 R54). -/
  vec : VecRegs
  /-- System memory (10 R55, 20 R80), in the canonical form of `Mem.wf`. -/
  mem : List Host.Cell
  /-- The model's own: the memory environment. -/
  bus : Bus
  /-- The model's own: the environments before `bus` that the running command's transfers may have met; log entry 6. -/
  earlier : List Bus
  /-- The model's own: the host's pending moves, oldest first. -/
  inbox : List HostMove
  /-- The model's own: the answer of the last access. -/
  resp : Resp
  /-- The model's own: 70 R265 or 20 R91 has been broken for the running command. -/
  tainted : Bool
  /-- The model's own: how many free values have been drawn. -/
  draws : Nat
  deriving DecidableEq, Repr

/-- Why a step could stop the machine. No constructor: the block never traps or stops (60 R230), every command word has an
effect (30 R107), and every 32-bit address exists (20 R93). Nothing raises a fault; that is neither safe nor unsafe. -/
inductive Fault where
  deriving DecidableEq, Repr

/-- Why a step could refuse an instruction. -/
inductive Refusal where
  /-- Raised only by an arm of `exec` whose instruction has no meaning yet; no arm does. Safe: the machine stops. -/
  | notModelled (mnemonic : String)
  deriving DecidableEq, Repr

/-- The vector working registers' reset values: unspecified (10 R57), 0 by log entry 3. -/
def VecRegs.reset : VecRegs :=
  { w := 0, x := 0, s := 0, idx := 0, out := 0, c := 0, d := 0, p := 0, q := 0, r := 0 }

/-- A platform that answers every transfer with data, without side effects and without combined transfers: DESIGN CHOICE,
the spec gives no reset value of the environment. Log entry 12 for `combined`, 13 for the three lists, 14 for `answers`. -/
def Bus.reset : Bus := { rdErr := [], wrErr := [], volatile := [], answers := true, combined := false }

/-- The machine right after reset (10 R57, 70 R260). `hasVector` and `regBase` are OPEN (log entry 1), the hidden engine
state is unspecified (log entry 3), memory lists nothing (log entry 2) and the host has no pending move (log entry 11). -/
def State.reset : State :=
  { hasVector := Config.hasVector
    regBase := Config.regBase
    cmd := 0
    done := false
    vsel := false
    ovr := false
    err := 0
    srcAddr := 0
    srcLen := 0
    dstAddr := 0
    dstCap := 0
    result := 0
    errInfo := 0
    doneIE := false
    rst := false
    phase := .idle
    op := .illegal
    sel := false
    stage := .check
    inOff := 0
    outOff := 0
    qbase := 0
    pad := 0
    blkOk := false
    vec := VecRegs.reset
    mem := []
    bus := Bus.reset
    earlier := []
    inbox := []
    resp := { data := 0, err := false }
    tainted := false
    draws := 0 }

end Sys2Proof.Machine
end

