-- ==== Sys2Proof/Machine/Flags.lean ====
section
/-! DEFINITION. `STATUS`, `IRQ_EN`, `irq`, `VSEL`'s rule, and the codes an error reports (10 R38 to R42, R49, R56; 43 R200;
60 R231, R240, R242). -/

namespace Sys2Proof.Machine

/-- `STATUS.BUSY` (10 R38): 1 exactly when `phase` = `RUN` (10 R53). -/
def State.busy (s : State) : Bool := s.phase == .run

/-- The `STATUS` word: `BUSY`, `DONE`, `VSEL`, `OVR` in bits 0 to 3, `ERR` in [7:4], the rest reserved (10 R38 to R42). -/
def State.status (s : State) : Word :=
  0#24 ++ s.err ++ BitVec.ofBool s.ovr ++ BitVec.ofBool s.vsel ++ BitVec.ofBool s.done ++ BitVec.ofBool s.busy

/-- The `IRQ_EN` word: `DONE_IE` in bit 0, the rest reserved (10 R49). -/
def State.irqEn (s : State) : Word := 0#31 ++ BitVec.ofBool s.doneIE

/-- The `irq` output (10 R56, 60 R242). -/
def State.irq (s : State) : Bool := s.done && s.doneIE

/-- The next value of `DONE` when a W1C write and a completion may come together: a completion wins (10 R40, 70 R268). -/
def doneNext (done w1c completes : Bool) : Bool := completes || (done && !w1c)

/-- The next value of `OVR` on a write to `STATUS` (10 R41). -/
def ovrNext (ovr w1c : Bool) : Bool := ovr && !w1c

/-- A write of `v` to `STATUS` (10 R40, R41): only the W1C bits act. This is the host's acknowledge (60 R243). -/
def writeStatus (v : Word) (s : State) : State :=
  { s with done := doneNext s.done (v.getLsbD 1) false, ovr := ovrNext s.ovr (v.getLsbD 3) }

/-- A write of `v` to `IRQ_EN` (10 R49): bit 0 acts, also while busy. -/
def writeIrqEn (v : Word) (s : State) : State := { s with doneIE := v.getLsbD 0 }

/-- A lost write to `CMD` or an operand register (10 R41, R50). -/
def setOvr (s : State) : State := { s with ovr := true }

/-- `sel` (43 R200): the Vector Codec runs for `ENC` and `DEC` when it is there and `S` is 0. -/
def selectPath (op : Op) (S hasVector : Bool) : Bool := (op == .enc || op == .dec) && hasVector && !S

/-- The code in `STATUS.ERR` (60 R231). -/
def CmdError.code : CmdError → BitVec 4
  | .inputLength => 1
  | .invalidCharacter _ => 2
  | .bufferTooSmall _ => 3
  | .unknown _ => 4
  | .illegalCommand => 5
  | .lengthOverflow => 6
  | .addressError => 7

/-- `RESULT` after an error (60 R240). -/
def CmdError.resultWord : CmdError → Word
  | .inputLength => 0
  | .invalidCharacter _ => 0
  | .bufferTooSmall req => req
  | .unknown _ => 0
  | .illegalCommand => 0
  | .lengthOverflow => 0
  | .addressError => 0

/-- `ERR_INFO` after an error (60 R240). -/
def CmdError.infoWord : CmdError → Word
  | .inputLength => 0
  | .invalidCharacter q => q
  | .bufferTooSmall _ => 0
  | .unknown a => a
  | .illegalCommand => 0
  | .lengthOverflow => 0
  | .addressError => 0

/-- Whether the destination region is any value after the error: those found during processing (20 R92, 60 R241). -/
def CmdError.opensDest : CmdError → Bool
  | .inputLength => false
  | .invalidCharacter _ => true
  | .bufferTooSmall _ => false
  | .unknown _ => true
  | .illegalCommand => false
  | .lengthOverflow => false
  | .addressError => false

end Sys2Proof.Machine
end

