-- ==== Sys2Proof/Machine/Alphabet.lean ====
section
/-! DEFINITION. The alphabet tables (spec 40): read-only constants that no command and no reset changes (40 R125), and the
sextet split and join of 41 R142. -/

namespace Sys2Proof.Machine

/-- The pad character `'='` (00 R9). -/
def padChar : Byte := 0x3D

/-- `ENC_LUT` (40 R120): the character of a sextet. -/
def encLut (v : Sextet) : Byte :=
  let n := v.toNat
  if n ≤ 25 then BitVec.ofNat 8 (0x41 + n)
  else if n ≤ 51 then BitVec.ofNat 8 (0x61 + (n - 26))
  else if n ≤ 61 then BitVec.ofNat 8 (0x30 + (n - 52))
  else if n = 62 then 0x2B
  else 0x2F

/-- `DEC_LUT` (40 R121): the sextet of a character, or `BADCHAR`. -/
def decLut (c : Byte) : Word :=
  let n := c.toNat
  if 0x41 ≤ n ∧ n ≤ 0x5A then BitVec.ofNat 32 (n - 0x41)
  else if 0x61 ≤ n ∧ n ≤ 0x7A then BitVec.ofNat 32 (n - 0x61 + 26)
  else if 0x30 ≤ n ∧ n ≤ 0x39 then BitVec.ofNat 32 (n - 0x30 + 52)
  else if n = 0x2B then 62
  else if n = 0x2F then 63
  else Config.badChar

/-- `Valid(c)` (40 R129). -/
def validChar (c : Byte) : Bool := decLut c < Config.badChar

/-- `acc` of 40 R123: the 32-bit OR of the looked-up values. -/
def groupAcc (cs : List Byte) : Word := cs.foldl (fun acc c => acc ||| decLut c) 0

/-- `group_valid` (40 R123): the threshold test on the OR. -/
def groupValid (cs : List Byte) : Bool := groupAcc cs < Config.badChar

/-- `ENC_LUT2` (40 R126), optional and derived: two characters, the first in bits [7:0]. The machine does not use it (R128). -/
def encLut2 (k : BitVec 12) : BitVec 16 := encLut (k.extractLsb' 0 6) ++ encLut (k.extractLsb' 6 6)

/-- `DEC_LUT2` (40 R127), optional and derived, keyed by `{c0, c1}`. The machine does not use it (R128). -/
def decLut2 (key : BitVec 16) : Word :=
  let v0 := decLut (key.extractLsb' 8 8)
  let v1 := decLut (key.extractLsb' 0 8)
  if v0 < Config.badChar ∧ v1 < Config.badChar then (v0 <<< 6) ||| v1 else Config.badChar

/-- The triplet value `{b0, b1, b2}` (41 R142): the first byte is the most significant (20 R84). -/
def triplet (b0 b1 b2 : Byte) : Group := b0 ++ b1 ++ b2

/-- `SPLIT24` (41 R142): sextet `k` of a group, most significant first. -/
def split24 (x : Group) (k : Nat) : Sextet := (x >>> (18 - 6 * k)).setWidth 6

/-- `JOIN24` (41 R142) of four table values. -/
def join24 (v0 v1 v2 v3 : Word) : Group :=
  ((v0 <<< 18) ||| (v1 <<< 12) ||| (v2 <<< 6) ||| v3).setWidth 24

/-- The three bytes of a group, `y[23:16]`, `y[15:8]` and `y[7:0]` (41 R142). -/
def groupBytes (y : Group) : List Byte := [y.extractLsb' 16 8, y.extractLsb' 8 8, y.extractLsb' 0 8]

/-- The four characters of a full triplet (41 R143). -/
def tripletChars (b0 b1 b2 : Byte) : List Byte :=
  let x := triplet b0 b1 b2
  [encLut (split24 x 0), encLut (split24 x 1), encLut (split24 x 2), encLut (split24 x 3)]

/-- The four characters of a one-byte tail (41 R144). -/
def tail1Chars (b0 : Byte) : List Byte :=
  let x := triplet b0 0 0
  [encLut (split24 x 0), encLut (split24 x 1), padChar, padChar]

/-- The four characters of a two-byte tail (41 R145). -/
def tail2Chars (b0 b1 : Byte) : List Byte :=
  let x := triplet b0 b1 0
  [encLut (split24 x 0), encLut (split24 x 1), encLut (split24 x 2), padChar]

/-- The three bytes of a full quartet (41 R150). -/
def quartetBytes (c0 c1 c2 c3 : Byte) : List Byte :=
  groupBytes (join24 (decLut c0) (decLut c1) (decLut c2) (decLut c3))

/-- The two bytes of a final quartet with one pad character (41 R151); the low 2 bits of `c2` are ignored (R153). -/
def tail3Bytes (c0 c1 c2 : Byte) : List Byte :=
  (groupBytes (join24 (decLut c0) (decLut c1) (decLut c2) 0)).take 2

/-- The byte of a final quartet with two pad characters (41 R152); the low 4 bits of `c1` are ignored (R153). -/
def tail2Bytes (c0 c1 : Byte) : List Byte :=
  (groupBytes (join24 (decLut c0) (decLut c1) 0 0)).take 1

/-- The pad count of a decode input from its last two characters, the last one second (41 R148). -/
def padOf (beforeLast last : Byte) : Fin 3 :=
  if last = padChar then (if beforeLast = padChar then 2 else 1) else 0

end Sys2Proof.Machine
end

