-- ==== Sys2Proof/Machine/Operands.lean ====
section
/-! DEFINITION. A command's operands (43 R202): the length functions, the source and destination regions, the address-range
check, and the byte addresses the cursors name. Lengths and addresses are exact natural numbers (00 R12). -/

namespace Sys2Proof.Machine

/-- `encode_len(n)`, without bound (41 R140). -/
def encodeLen (n : Nat) : Nat := 4 * (n / 3) + (if n % 3 = 0 then 0 else 4)

/-- `decode_len(m)` (41 R141). -/
def decodeLen (m : Nat) : Nat := 3 * (m / 4)

/-- `fits(a, l)` (43 R209). -/
def fits (a l : Nat) : Bool := l == 0 || a + l ≤ Config.addrSpace

/-- `disjoint(a, l, b, k)` (43 R209). -/
def disjoint (a l b k : Nat) : Bool := l == 0 || k == 0 || a + l ≤ b || b + k ≤ a

/-- `RANGES_OK(src, len, dst, req)` (43 R209). -/
def rangesOk (src len dst req : Nat) : Bool := fits src len && fits dst req && disjoint src len dst req

/-- Whether address `a` lies in the region of `len` bytes at `base` (20 R81). -/
def inRegion (base len a : Nat) : Bool := base ≤ a && a < base + len

/-- `src` (43 R202). -/
def State.src (s : State) : Nat := s.srcAddr.toNat
/-- `n` or `m` (43 R202). -/
def State.len (s : State) : Nat := s.srcLen.toNat
/-- `dst` (43 R202). -/
def State.dst (s : State) : Nat := s.dstAddr.toNat
/-- `cap` (43 R202). -/
def State.cap (s : State) : Nat := s.dstCap.toNat

/-- The required length `req` (43 R204, R205); a command that is no `ENC` or `DEC` has no destination. -/
def State.req (s : State) : Nat :=
  match s.op with
  | .enc => encodeLen s.len
  | .dec => decodeLen s.len
  | .enclen => 0
  | .declen => 0
  | .illegal => 0

/-- The length of the source region (20 R81): only `ENC` and `DEC` read memory (30 R101). -/
def State.srcRegionLen (s : State) : Nat :=
  match s.op with
  | .enc => s.len
  | .dec => s.len
  | .enclen => 0
  | .declen => 0
  | .illegal => 0

/-- Whether `a` lies in the running command's source region (20 R81). -/
def State.inSource (s : State) (a : Word) : Bool := inRegion s.src s.srcRegionLen a.toNat

/-- Whether `a` lies in the running command's destination region (20 R81). -/
def State.inDest (s : State) (a : Word) : Bool := inRegion s.dst s.req a.toNat

/-- How many bytes from `dst` on may hold any value when the destination region does: the region, but never a byte at or
past `dst + cap` (10 R46, 70 R274) or past the address space. Log entry 17. -/
def State.openLen (s : State) : Nat := min (min s.req s.cap) (Config.addrSpace - s.dst)

/-- The address of input byte `i` (20 R84). No index of an accepted command wraps (43 R209); log entry 25. -/
def State.srcAt (s : State) (i : Nat) : Word := s.srcAddr + BitVec.ofNat 32 i

/-- The address of output byte `j` (20 R84). No index of an accepted command wraps (43 R209); log entry 25. -/
def State.dstAt (s : State) (j : Nat) : Word := s.dstAddr + BitVec.ofNat 32 j

/-- The input bytes not yet consumed, `n - in_off` or `m - in_off`. -/
def State.remaining (s : State) : Nat := s.len - s.inOff.toNat

end Sys2Proof.Machine
end

