-- ==== Sys2Proof/Machine/Ops.lean ====
section
/-! DEFINITION. The named operations: memory bytes, free values, ending a command (the completion record of 60 R240, this
block's "exception entry"), accepting one (43 R201), and reset (70 R260, R261). The acknowledge, its "return", is
`writeStatus` of Machine/Flags.lean (60 R243). -/

namespace Sys2Proof.Machine

/-! ### System memory -/

/-- What an address that nothing has written reads as; log entry 2. -/
def memDefault : Byte := 0

/-- The byte at address `a` (20 R82). -/
def Mem.get : List Host.Cell → Nat → Byte
  | [], _ => memDefault
  | (b, v) :: rest, a => if b = a then v else Mem.get rest a

/-- A byte other than the default, put in its place in the rising order of addresses. -/
def Mem.insert : List Host.Cell → Nat → Byte → List Host.Cell
  | [], a, v => [(a, v)]
  | (b, w) :: rest, a, v =>
    if a < b then (a, v) :: (b, w) :: rest
    else if a = b then (a, v) :: rest
    else (b, w) :: Mem.insert rest a v

/-- One byte written (20 R83); writing the default removes the entry, so that equal memories are equal lists. -/
def Mem.set (m : List Host.Cell) (a : Nat) (v : Byte) : List Host.Cell :=
  if v = memDefault then m.filter (fun c => c.1 != a) else Mem.insert m a v

/-- The canonical form: addresses strictly rising and below 2^32, no entry equal to the default. -/
abbrev Mem.wf (m : List Host.Cell) : Prop :=
  m.Pairwise (fun c d => c.1 < d.1) ∧ ∀ c ∈ m, c.1 < Config.addrSpace ∧ c.2 ≠ memDefault

/-- Bytes written one after another from output offset `j` on (20 R84). -/
def storeBytes (s : State) : Nat → List Byte → List Host.Cell → List Host.Cell
  | _, [], m => m
  | j, b :: bs, m => storeBytes s (j + 1) bs (Mem.set m (s.dstAt j).toNat b)

/-- `I[i]` (spec 41): the input byte `i`. -/
def State.input (s : State) (i : Nat) : Byte := Mem.get s.mem (s.srcAt i).toNat

/-- `O[j + k] <- bs[k]` (spec 41): output bytes stored from offset `j` on. -/
def writeOutput (j : Nat) (bs : List Byte) (s : State) : State := { s with mem := storeBytes s j bs s.mem }

/-! ### Free values -/

/-- `k` free bytes from draw `d` on. -/
def freeBytes (d k : Nat) : List Byte := (List.range k).map (fun i => Config.freeByte (d + i))

/-- The destination region holds any value, byte by byte (20 R92, 70 R261, R265); nothing else changes. -/
def openDest (s : State) : State :=
  { s with mem := storeBytes s 0 (freeBytes s.draws s.openLen) s.mem, draws := s.draws + s.openLen }

/-- One of several admitted outcomes (60 R239), free where there is a choice; `c` where the list is empty. -/
def pick {α : Type} (c : α) (cs : List α) (draw : Nat) : α :=
  match cs with
  | [] => c
  | [d] => d
  | d :: e :: rest => (d :: e :: rest).getD (Config.freeChoice draw % (rest.length + 2)) d

/-! ### Ending a command -/

/-- The completion record of 60 R240: one step, whatever the outcome. -/
def record (code : BitVec 4) (result info : Word) (s : State) : State :=
  { s with
    phase := .idle
    done := doneNext s.done false true
    err := code
    result := result
    errInfo := info }

/-- 70 R265: a command whose buffers were disturbed still completes, with any code 0..7, any `RESULT` and `ERR_INFO`, and
any destination bytes. -/
def recordAny (s : State) : State :=
  let s1 := openDest s
  record ((Config.freeErr s1.draws).setWidth 4) (Config.freeWord s1.draws) (Config.freeWord (s1.draws + 1))
    { s1 with draws := s1.draws + 2 }

/-- Every end of a command: the record given, or any record if the buffer rules were broken (70 R265). -/
def endCommand (code : BitVec 4) (result info : Word) (s : State) : State :=
  if s.tainted then recordAny s else record code result info s

/-- `complete(v)` (spec 43): success with `RESULT` = `v`. -/
def complete (v : Word) (s : State) : State := endCommand 0 v 0 s

/-- `raise e` (00 R8, spec 43): the error's record, the destination opened if the error came up in processing (60 R241). -/
def raise (e : CmdError) (s : State) : State :=
  endCommand e.code e.resultWord e.infoWord (if e.opensDest then openDest s else s)

/-! ### Accepting a command -/

/-- Whether the host leaves a command it starts alone until it ends: it has no further move, or it waits (30 R111). -/
def State.hostWaits (s : State) : Bool :=
  match s.inbox with
  | [] => true
  | m :: _ => m.after.isNone

/-- Acceptance (43 R201): one step, for the word `w` of a command `op` with bit `S`. `OVR` and `IRQ_EN` are unchanged. -/
def accept (w : Word) (op : Op) (S : Bool) (s : State) : State :=
  { s with
    cmd := w &&& 0x0000010F
    op := op
    sel := selectPath op S s.hasVector
    phase := .run
    done := false
    err := 0
    vsel := selectPath op S s.hasVector
    result := 0
    errInfo := 0
    inOff := 0
    outOff := 0
    stage := .check
    earlier := []
    tainted := false }

/-! ### Reset -/

/-- The block in the state of 10 R57, the reset input asserted. The parameters, the memory, the memory environment, the
host's pending moves and the model's counter are not the block's, and stay. -/
def resetBlock (s : State) : State :=
  { State.reset with
    hasVector := s.hasVector
    regBase := s.regBase
    rst := true
    mem := s.mem
    bus := s.bus
    inbox := s.inbox
    resp := s.resp
    draws := s.draws }

/-- `rst` asserted (70 R260); a running command is cut off and its destination region holds any value (70 R261). -/
def assertReset (s : State) : State := resetBlock (if s.busy then openDest s else s)

/-- `rst` deasserted (70 R260). -/
def deassertReset (s : State) : State := { s with rst := false }

end Sys2Proof.Machine
end

