-- ==== Sys2Proof/Machine/Scalar.lean ====
section
/-! DEFINITION. The master port's failures (20 R82, R83; 60 R235, R239), the scalar unit operations and one step of each
scalar loop (spec 41). -/

namespace Sys2Proof.Machine

/-! ### Failing transfers and the records they admit -/

/-- The address of the first of the input bytes `i .. i+k-1` whose read gets an error response (20 R82). -/
def firstReadError (s : State) (i k : Nat) : Option Word :=
  ((List.range k).map (fun d => s.srcAt (i + d))).find? (fun a => s.bus.rdErr.contains a)

/-- The address of the first of the output bytes `j .. j+k-1` whose write gets an error response (20 R83). -/
def firstWriteError (s : State) (j k : Nat) : Option Word :=
  ((List.range k).map (fun d => s.dstAt (j + d))).find? (fun a => s.bus.wrErr.contains a)

/-- The first failing transfer of a unit operation that reads `k` bytes from `i` on and writes `l` bytes from `j` on. -/
def firstError (s : State) (i k j l : Nat) : Option Word :=
  (firstReadError s i k).or (firstWriteError s j l)

/-- The pad count of the decode input (41 R148). The spec does not say which pad count holds when the read of one of the
last two characters gets an error response: DESIGN CHOICE, the bytes that memory holds there decide; log entry 29. -/
def State.padCount (s : State) : Fin 3 := padOf (s.input (s.len - 2)) (s.input (s.len - 1))

/-- How many bytes the whole command writes when it succeeds (41 R140, R157). -/
def State.writtenLen (s : State) : Nat :=
  match s.op with
  | .enc => encodeLen s.len
  | .dec => decodeLen s.len - s.padCount.val
  | .enclen => 0
  | .declen => 0
  | .illegal => 0

/-- The environments that have answered since the running command's transfers began: in any of them any of its transfers may
have been made, since their order and repetition are open (20 R90). Log entry 6. -/
def State.buses (s : State) : List Bus := (s.bus :: s.earlier).filter (fun b => b.answers)

/-- The source addresses whose reads got an error response in some environment (20 R82). -/
def failingReads (s : State) : List Word := (s.buses.flatMap (fun b => b.rdErr)).filter s.inSource

/-- The destination addresses whose writes got an error response in some environment (20 R83). -/
def failingWrites (s : State) : List Word :=
  (s.buses.flatMap (fun b => b.wrErr)).filter (fun a => inRegion s.dst s.writtenLen a.toNat)

/-- Every address of the command whose transfer may have got an error response (60 R239 "a failing address"). -/
def failingAddrs (s : State) : List Word := failingReads s ++ failingWrites s

/-- Whether every read of `a` got an error response, in whatever order. -/
def neverRead (s : State) (a : Word) : Bool := s.buses.all (fun b => b.rdErr.contains a)

/-- Whether every write of `a` got an error response, in whatever order. -/
def neverWritten (s : State) (a : Word) : Bool := s.buses.all (fun b => b.wrErr.contains a)

/-- Whether some transfer the command cannot do without has got an error response in whatever order. -/
def mustFail (s : State) : Bool := (failingReads s).any (neverRead s) || (failingWrites s).any (neverWritten s)

/-- Whether the transfer of `a` got an error response in environment `b`, as a read or as a write. -/
def failedIn (s : State) (a : Word) (b : Bus) : Bool := if s.inSource a then b.rdErr.contains a else b.wrErr.contains a

/-- Whether the failing transfer of `a` may have been a combined one (20 R86): transfers were combined in some environment in
which it failed. Log entry 12. -/
def mayBeCombined (s : State) (a : Word) : Bool := s.buses.any (fun b => b.combined && failedIn s a b)

/-- The address `Unknown` reports for a failing transfer at `a` (60 R235): `a`, or, where the transfer may have been combined,
the lowest address of a combined transfer inside the region that holds `a`, which may be `a` too. Log entry 12. -/
def reportedAddr (s : State) (a : Word) : Word :=
  if mayBeCombined s a then
    let base := if s.inSource a then s.srcAddr else s.dstAddr
    base + BitVec.ofNat 32 (Config.freeChoice s.draws % ((a - base).toNat + 1))
  else a

/-- How many characters of quartet `q` are tested: all four, less the pad characters in the final one (41 R150 to R152; log
entry 29). -/
def testedIn (s : State) (q : Nat) : Nat := if q + 1 = s.len / 4 then 4 - s.padCount.val else 4

/-- Whether quartet `q` holds a tested character that can be read and is not in the alphabet (41 R156, 60 R233). -/
def quartetInvalid (s : State) (q : Nat) : Bool :=
  (List.range (testedIn s q)).any fun k =>
    !neverRead s (s.srcAt (4 * q + k)) && !validChar (s.input (4 * q + k))

/-- The least invalid quartet of a `DEC` input (41 R156); no other command has one. -/
def leastInvalid (s : State) : Option Nat :=
  match s.op with
  | .dec => (List.range (s.len / 4)).find? (quartetInvalid s)
  | .enc => none
  | .enclen => none
  | .declen => none
  | .illegal => none

/-- The errors a command may report in processing (60 R239): the least invalid quartet, and every failing address. -/
def admittedErrors (s : State) : List CmdError :=
  (leastInvalid s).toList.map (fun q => CmdError.invalidCharacter (BitVec.ofNat 32 q)) ++
    (failingAddrs s).map (fun a => CmdError.unknown (reportedAddr s a))

/-- The command ends with one of the admitted errors, `e` where there is none. Log entry 6. -/
def raiseAdmitted (e : CmdError) (s : State) : State :=
  raise (pick e (admittedErrors s) (s.draws + 1)) { s with draws := s.draws + 2 }

/-- A failing transfer at `a` ends the command (20 R82, R83; 60 R239). -/
def raiseUnknown (a : Word) (s : State) : State := raiseAdmitted (.unknown (reportedAddr s a)) s

/-- An invalid quartet `q` ends the command (41 R150 to R152). With no failing transfer it is what is reported; otherwise
either error may be (60 R239). -/
def raiseInvalid (q : Nat) (s : State) : State :=
  match failingAddrs s with
  | [] => raise (.invalidCharacter (BitVec.ofNat 32 q)) s
  | _ :: _ => raiseAdmitted (.invalidCharacter (BitVec.ofNat 32 q)) s

/-- Whether the environment is the same for all of the running command: it has not changed, and the host leaves the command
alone. When a transfer is made then makes no difference. -/
def sameThroughout (s : State) : Bool := s.earlier.isEmpty && s.hostWaits

/-- What an error response at `e` does to a step that would do `go`: it ends the command (20 R82, R83), or, where the
environment may differ at another time, the engine makes that transfer then and goes on, as it may since the order is open
(20 R90); which one is free. With no error response the step is `go`. Log entry 6. -/
def meetError (e : Option Word) (go : State → State) (s : State) : State :=
  match e with
  | none => go s
  | some a =>
    if sameThroughout s || Config.freeChoice s.draws % 2 == 0 then raiseUnknown a { s with draws := s.draws + 1 }
    else go { s with draws := s.draws + 1 }

/-- `in_off <- in_off + di; out_off <- out_off + dj` (10 R32). -/
def advance (di dj : Nat) (s : State) : State :=
  { s with inOff := s.inOff + BitVec.ofNat 32 di, outOff := s.outOff + BitVec.ofNat 32 dj }

/-- The bytes `bs` stored at `out_off`, and the cursors moved past them and past `k` input bytes. -/
def emit (k : Nat) (bs : List Byte) (s : State) : State := advance k bs.length (writeOutput s.outOff.toNat bs s)

/-- A unit operation that reads `k` bytes at `in_off`, writes `bs` at `out_off` and moves the cursors. -/
def unit (k : Nat) (bs : List Byte) (s : State) : State :=
  meetError (firstError s s.inOff.toNat k s.outOff.toNat bs.length) (emit k bs) s

/-- The end of an `ENC` or `DEC` whose whole input is processed: success, unless a transfer fails. One that failed whenever
it could be made ends the command in an error; one that failed at some time only may end it or not (20 R90). -/
def settle (s : State) : State :=
  match failingAddrs s with
  | [] => complete s.outOff s
  | a :: _ =>
    if mustFail s || Config.freeChoice s.draws % 2 == 0 then raiseUnknown a { s with draws := s.draws + 1 }
    else complete s.outOff { s with draws := s.draws + 1 }

/-- The input byte `in_off + k`. -/
def State.next (s : State) (k : Nat) : Byte := s.input (s.inOff.toNat + k)

/-- A command that still runs goes on in stage `t`; one that has ended stays ended. -/
def goTo (t : Stage) (s : State) : State := if s.busy then { s with stage := t } else s

/-! ### Encode -/

/-- `ENC_TRIPLET` (41 R143). -/
def encTriplet (s : State) : State := unit 3 (tripletChars (s.next 0) (s.next 1) (s.next 2)) s

/-- `ENC_TAIL1` (41 R144). -/
def encTail1 (s : State) : State := unit 1 (tail1Chars (s.next 0)) s

/-- `ENC_TAIL2` (41 R145). -/
def encTail2 (s : State) : State := unit 2 (tail2Chars (s.next 0) (s.next 1)) s

/-- One engine step of `SCALAR_ENC` (41 R146): a triplet while three bytes remain, then the tail and the end of the loop. -/
def scalarEncStep (s : State) : State :=
  if 3 ≤ s.remaining then encTriplet s
  else if s.remaining = 2 then goTo .finish (encTail2 s)
  else if s.remaining = 1 then goTo .finish (encTail1 s)
  else goTo .finish s

/-! ### Decode -/

/-- The index of the quartet at `in_off` (41 R154). -/
def State.quartet (s : State) : Nat := s.inOff.toNat / 4

/-- A decode unit: `k` characters read, `cs` tested (40 R123), `bs` written. A failing read comes before the test, the test
before the write; 60 R239 leaves their order open and `raiseUnknown` and `raiseInvalid` admit each other's record. -/
def decUnit (k : Nat) (cs bs : List Byte) (s : State) : State :=
  meetError (firstReadError s s.inOff.toNat k) (fun s =>
    if groupValid cs then meetError (firstWriteError s s.outOff.toNat bs.length) (emit k bs) s
    else raiseInvalid s.quartet s) s

/-- `DEC_QUARTET` (41 R150). -/
def decQuartet (s : State) : State :=
  decUnit 4 [s.next 0, s.next 1, s.next 2, s.next 3] (quartetBytes (s.next 0) (s.next 1) (s.next 2) (s.next 3)) s

/-- `DEC_TAIL3` (41 R151). -/
def decTail3 (s : State) : State :=
  decUnit 4 [s.next 0, s.next 1, s.next 2] (tail3Bytes (s.next 0) (s.next 1) (s.next 2)) s

/-- `DEC_TAIL2` (41 R152). -/
def decTail2 (s : State) : State :=
  decUnit 4 [s.next 0, s.next 1] (tail2Bytes (s.next 0) (s.next 1)) s

/-- The final quartet (41 R154): the pad count decides which unit decodes it. -/
def decFinal (s : State) : State :=
  let s1 := { s with pad := s.padCount }
  match s1.pad with
  | 0 => decQuartet s1
  | 1 => decTail3 s1
  | 2 => decTail2 s1

/-- One engine step of `SCALAR_DEC` (41 R154): a quartet while more than four characters remain, then the final one. -/
def scalarDecStep (s : State) : State :=
  if 4 < s.remaining then decQuartet s else goTo .finish (decFinal s)

end Sys2Proof.Machine
end

