-- ==== Sys2Proof/Machine/Vector.lean ====
section
/-! DEFINITION. The vector datapath and its two blocks (spec 42). A working register's value is written here as its list of
byte lanes, lane 0 first (10 R54); `packLanes` is the register that holds them. -/

namespace Sys2Proof.Machine

/-! ### Lanes -/

/-- Byte lane `i` of a working register (10 R54). -/
def laneB (v : List Byte) (i : Nat) : Byte := v.getD i 0

/-- 16-bit lane `j`, little-endian inside the register (10 R54, 42 notation). -/
def laneH (v : List Byte) (j : Nat) : BitVec 16 := laneB v (2 * j + 1) ++ laneB v (2 * j)

/-- 32-bit lane `e`, little-endian inside the register (10 R54, 42 notation). -/
def laneW (v : List Byte) (e : Nat) : Word :=
  laneB v (4 * e + 3) ++ laneB v (4 * e + 2) ++ laneB v (4 * e + 1) ++ laneB v (4 * e)

/-- The byte lanes of a 16-bit lane. -/
def bytesOfH (h : BitVec 16) : List Byte := [h.extractLsb' 0 8, h.extractLsb' 8 8]

/-- The byte lanes of a 32-bit lane. -/
def bytesOfW (w : Word) : List Byte :=
  [w.extractLsb' 0 8, w.extractLsb' 8 8, w.extractLsb' 16 8, w.extractLsb' 24 8]

/-- The number whose base-256 digits are the bytes, the first one least. -/
def lanesToNat : List Byte → Nat
  | [] => 0
  | b :: bs => b.toNat + 256 * lanesToNat bs

/-- The working register of width `n` that holds the byte lanes `v`: lane `i` in bits [8i+7:8i] (10 R54). -/
def packLanes (n : Nat) (v : List Byte) : BitVec n := BitVec.ofNat n (lanesToNat v)

/-! ### Encode block -/

/-- The load window `W` (42 R172): 32 lanes from 4 before `in_off`; a lane outside the source region is 0 and not fetched. -/
def encWindow (s : State) : List Byte :=
  (List.range 32).map fun k =>
    let i := s.inOff.toNat + k
    if 4 ≤ i ∧ i - 4 < s.len then s.input (i - 4) else 0

/-- The reshuffle `X` (42 R173): each 32-bit lane gets its triplet as `[b1, b0, b2, b1]`. -/
def encReshuffle (w : List Byte) : List Byte :=
  (List.range 8).flatMap fun e =>
    [laneB w (4 + 3 * e + 1), laneB w (4 + 3 * e), laneB w (4 + 3 * e + 2), laneB w (4 + 3 * e + 1)]

/-- The high 16 bits of an unsigned 16 by 16 multiply (42 R174). -/
def mulHigh (a b : BitVec 16) : BitVec 16 := ((a.setWidth 32 * b.setWidth 32) >>> 16).setWidth 16

/-- The sextets of one 32-bit lane (42 R174), one in each byte. -/
def laneSextets (x : Word) : Word :=
  let t0 := x &&& 0x0FC0FC00
  let t1 := mulHigh (t0.extractLsb' 16 16) 0x0400 ++ mulHigh (t0.extractLsb' 0 16) 0x0040
  let t2 := x &&& 0x003F03F0
  let t3 := (t2.extractLsb' 16 16 * 0x0100#16) ++ (t2.extractLsb' 0 16 * 0x0010#16)
  t1 ||| t3

/-- The sextet extraction `S` (42 R174). -/
def encSextets (x : List Byte) : List Byte := (List.range 8).flatMap fun e => bytesOfW (laneSextets (laneW x e))

/-- The translation index (42 R175): a saturating subtract of 51, then 13 OR-ed in below 26. -/
def transIndex (s : Byte) : Byte :=
  let idx : Byte := if 51 < s then s - 51 else 0
  if s < 26 then idx ||| 13 else idx

/-- `SHIFT16` (42 R176), the signed offsets as bytes. -/
def shift16 : List Byte :=
  [0x47, 0xFC, 0xFC, 0xFC, 0xFC, 0xFC, 0xFC, 0xFC, 0xFC, 0xFC, 0xFC, 0xED, 0xF0, 0x41, 0x00, 0x00]

/-- The character of a sextet lane (42 R176), mod 256. -/
def translate (s : Byte) : Byte := s + shift16.getD (transIndex s).toNat 0

/-- The stages of one encode block from its window (42 R173 to R176): `X`, `S`, `idx`, `OUT`. -/
def encDatapath (w : List Byte) : List Byte × List Byte × List Byte × List Byte :=
  let x := encReshuffle w
  let sx := encSextets x
  (x, sx, sx.map transIndex, sx.map translate)

/-- The 32 characters of the block whose window is `w`. -/
def encBlockChars (w : List Byte) : List Byte := (encDatapath w).2.2.2

/-- The working registers after an encode block with window `w`. -/
def encVecRegs (v : VecRegs) (w : List Byte) : VecRegs :=
  let d := encDatapath w
  { v with
    w := packLanes 256 w
    x := packLanes 256 d.1
    s := packLanes 256 d.2.1
    idx := packLanes 256 d.2.2.1
    out := packLanes 256 d.2.2.2 }

/-- `VENC_BLOCK` (42 R171) by the datapath of R172 to R176: the window's source bytes are read, 32 characters written. -/
def vencBlock (s : State) : State :=
  let lo := s.inOff.toNat - 4
  let hi := min (s.inOff.toNat + 28) s.len
  meetError (firstError s lo (hi - lo) s.outOff.toNat Config.encBlkOut) (fun s =>
    emit Config.encBlkIn (encBlockChars (encWindow s)) { s with vec := encVecRegs s.vec (encWindow s) }) s

/-! ### Decode block -/

/-- `LUT_HI` (42 R178). -/
def lutHi : List Byte :=
  [0x01, 0x01, 0x02, 0x04, 0x08, 0x10, 0x08, 0x10, 0x01, 0x01, 0x01, 0x01, 0x01, 0x01, 0x01, 0x01]

/-- `LUT_LO` (42 R178). -/
def lutLo : List Byte :=
  [0x0B, 0x03, 0x03, 0x03, 0x03, 0x03, 0x03, 0x03, 0x03, 0x03, 0x07, 0x15, 0x17, 0x17, 0x17, 0x15]

/-- `class(c)` (42 R178). -/
def charClass (c : Byte) : Byte := lutHi.getD (c >>> 4).toNat 0 &&& lutLo.getD (c &&& 0xF).toNat 0

/-- The block validity test of `VDEC_VALID` (42 R179) on the block's characters. -/
def blockValid (c : List Byte) : Bool := c.foldl (fun acc b => acc ||| charClass b) 0 == 0

/-- `ROLL` (42 R180), the signed corrections as bytes. -/
def rollTable : List Byte :=
  [0x00, 0x10, 0x13, 0x04, 0xBF, 0xBF, 0xB9, 0xB9, 0x00, 0x00, 0x00, 0x00, 0x00, 0x00, 0x00, 0x00]

/-- The roll index (42 R180): the high nibble, but 1 for `'/'`. -/
def rollIndex (c : Byte) : Byte := ((c >>> 4) + (if c = 0x2F then 0xF else 0)) &&& 0xF

/-- `D` (42 R180): the sextet of a valid character, mod 256. -/
def roll (c : Byte) : Byte := c + rollTable.getD (rollIndex c).toNat 0

/-- Pack stage 1 of one pair (42 R181). -/
def packPair (a b : Byte) : BitVec 16 := a.setWidth 16 * 0x40 + b.setWidth 16 * 0x01

/-- Pack stage 1, `P` (42 R181). -/
def decPack1 (d : List Byte) : List Byte :=
  (List.range 16).flatMap fun j => bytesOfH (packPair (laneB d (2 * j)) (laneB d (2 * j + 1)))

/-- Pack stage 2 of one pair (42 R182). -/
def packWord (a b : BitVec 16) : Word := a.setWidth 32 * 0x1000 + b.setWidth 32 * 0x0001

/-- Pack stage 2, `Q` (42 R182). -/
def decPack2 (p : List Byte) : List Byte :=
  (List.range 8).flatMap fun e => bytesOfW (packWord (laneH p (2 * e)) (laneH p (2 * e + 1)))

/-- The in-half byte shuffle of pack stage 3 (42 R183). -/
def packShuffle : List Nat := [2, 1, 0, 6, 5, 4, 10, 9, 8, 14, 13, 12]

/-- The in-half shuffle, positions 12..15 of each half filled with 0 (42 R183). -/
def decShuffle (q : List Byte) : List Byte :=
  packShuffle.map (fun i => laneB q i) ++ [0, 0, 0, 0] ++ packShuffle.map (fun i => laneB q (16 + i)) ++ [0, 0, 0, 0]

/-- Pack stage 3, the 24 useful bytes of `R` (42 R183): 32-bit lanes 0, 1, 2, 4, 5, 6. -/
def decPack3 (q : List Byte) : List Byte :=
  [0, 1, 2, 4, 5, 6].flatMap fun e => bytesOfW (laneW (decShuffle q) e)

/-- The stages of one decode block from its characters (42 R180 to R183): `D`, `P`, `Q`, `R.b[0..24)`. -/
def decDatapath (c : List Byte) : List Byte × List Byte × List Byte × List Byte :=
  let d := c.map roll
  let p := decPack1 d
  let q := decPack2 p
  (d, p, q, decPack3 q)

/-- The 24 bytes of a valid block of characters `c`. -/
def decBlockBytes (c : List Byte) : List Byte := (decDatapath c).2.2.2

/-- The block's characters `C` (42 R179). -/
def decWindow (s : State) : List Byte := (List.range 32).map fun i => s.next i

/-- The working registers after the packing of block `c`. -/
def decVecRegs (v : VecRegs) (c : List Byte) : VecRegs :=
  let d := decDatapath c
  { v with
    d := packLanes 256 d.1
    p := packLanes 256 d.2.1
    q := packLanes 256 d.2.2.1
    r := packLanes 192 d.2.2.2 }

/-- `VDEC_VALID` (42 R179): the block is loaded and `blk_ok` written. It never raises `InvalidCharacter` (R187). -/
def vdecValid (s : State) : State :=
  { s with vec := { s.vec with c := packLanes 256 (decWindow s) }, blkOk := blockValid (decWindow s) }

/-- `VDEC_BLOCK` (42 R184) by the datapath of R180 to R183; only the 24 useful bytes are stored (R185). -/
def vdecBlock (s : State) : State :=
  meetError (firstWriteError s s.outOff.toNat Config.decBlkOut) (fun s =>
    emit Config.decBlkIn (decBlockBytes (decWindow s)) { s with vec := decVecRegs s.vec (decWindow s) }) s

end Sys2Proof.Machine
end

