-- ==== Sys2Proof/Machine/Engine.lean ====
section
/-! DEFINITION. The engine (10 R53): its checks (43 R204 to R212), the two tilers (42 R177, R186), one engine step, a
command's whole run (43 R213), and what every `CMD` write does (43 R201, 10 R50). -/

namespace Sys2Proof.Machine

/-- 32-bit words of exact lengths (00 R12). -/
def lenWord (n : Nat) : Word := BitVec.ofNat 32 n

/-- The scalar loop starts at the offset reached; `SCALAR_DEC` first notes its quartet (41 R154). -/
def enterScalar (s : State) : State :=
  match s.op with
  | .dec => { s with stage := .scalar, qbase := BitVec.ofNat 32 s.quartet }
  | .enc => { s with stage := .scalar }
  | .enclen => { s with stage := .scalar }
  | .declen => { s with stage := .scalar }
  | .illegal => { s with stage := .scalar }

/-- Whether some source byte has read side effects or changes between reads (20 R91). -/
def sourceVolatile (s : State) : Bool := s.bus.volatile.any s.inSource

/-- `stage <- VECTOR or SCALAR` (43 R204, R205). From here the source is read, so a volatile one breaks 20 R91. -/
def enterTiler (s : State) : State :=
  let s1 := { s with tainted := s.tainted || sourceVolatile s }
  if s1.sel then { s1 with stage := .vector } else enterScalar s1

/-- The checks of `ENC` (43 R204), in the order of 60 R239. -/
def checkEnc (s : State) : State :=
  if Config.maxLen < encodeLen s.len then raise .lengthOverflow s
  else if s.cap < encodeLen s.len then raise (.bufferTooSmall (lenWord (encodeLen s.len))) s
  else if rangesOk s.src s.len s.dst (encodeLen s.len) then enterTiler s
  else raise .addressError s

/-- The checks of `DEC` (43 R205), in the order of 60 R239. -/
def checkDec (s : State) : State :=
  if s.len = 0 then complete 0 s
  else if s.len % 4 ≠ 0 then raise .inputLength s
  else if s.cap < decodeLen s.len then raise (.bufferTooSmall (lenWord (decodeLen s.len))) s
  else if rangesOk s.src s.len s.dst (decodeLen s.len) then enterTiler s
  else raise .addressError s

/-- `ENCLEN` (43 R206). -/
def checkEnclen (s : State) : State :=
  if Config.maxLen < encodeLen s.len then raise .lengthOverflow s else complete (lenWord (encodeLen s.len)) s

/-- `DECLEN` (43 R207). -/
def checkDeclen (s : State) : State := complete (lenWord (decodeLen s.len)) s

/-- `ILLEGAL` (43 R208). -/
def checkIllegal (s : State) : State := raise .illegalCommand s

/-- The engine step of stage `CHECK`. -/
def checkStep (s : State) : State :=
  match s.op with
  | .enc => checkEnc s
  | .dec => checkDec s
  | .enclen => checkEnclen s
  | .declen => checkDeclen s
  | .illegal => checkIllegal s

/-- One step of `ENC_TILER`'s vector loop (42 R177). -/
def vectorEncStep (s : State) : State :=
  if Config.encVecMin ≤ s.remaining then vencBlock s else enterScalar s

/-- One step of `DEC_TILER`'s vector loop (42 R186), with the fallback of R187. -/
def vectorDecStep (s : State) : State :=
  if Config.decVecMin ≤ s.remaining then
    meetError (firstReadError s s.inOff.toNat Config.decBlkIn) (fun s =>
      if (vdecValid s).blkOk then vdecBlock (vdecValid s) else enterScalar (vdecValid s)) s
  else enterScalar s

/-- The engine step of stage `VECTOR`. Only `ENC` and `DEC` reach it. -/
def vectorStep (s : State) : State :=
  match s.op with
  | .enc => vectorEncStep s
  | .dec => vectorDecStep s
  | .enclen => goTo .finish s
  | .declen => goTo .finish s
  | .illegal => goTo .finish s

/-- The engine step of stage `SCALAR`. Only `ENC` and `DEC` reach it. -/
def scalarStep (s : State) : State :=
  match s.op with
  | .enc => scalarEncStep s
  | .dec => scalarDecStep s
  | .enclen => goTo .finish s
  | .declen => goTo .finish s
  | .illegal => goTo .finish s

/-- Whether the next engine step needs the master port. -/
def State.needsBus (s : State) : Bool := (s.stage == .vector || s.stage == .scalar) && 0 < s.remaining

/-- One engine step (10 R53): nothing while `IDLE` (60 R250); no progress while the master port does not answer (70 R272). -/
def engineStep (s : State) : State :=
  match s.phase with
  | .idle => s
  | .run =>
    if s.needsBus && !s.bus.answers then s
    else
      match s.stage with
      | .check => checkStep s
      | .vector => vectorStep s
      | .scalar => scalarStep s
      | .finish => settle s

/-- At most `k` engine steps; an idle engine makes none. -/
def runFor : Nat → State → State
  | 0, s => s
  | k + 1, s =>
    match s.phase with
    | .idle => s
    | .run => runFor k (engineStep s)

/-- As many engine steps as any command needs (70 R272, 43 R214). -/
def stepBound (s : State) : Nat := s.len + 8

/-- The command's whole run as one step (43 R213). -/
def runToEnd (s : State) : State := runFor (stepBound s) s

/-- A `CMD` write of a command other than `NOP` (43 R201): lost while busy (10 R50); else accepted, and run to its end
unless the host's next move comes in between, in which case the following steps run it. Log entry 5. -/
def command (i : Instr) (op : Op) (s : State) : State :=
  if s.busy then setOvr s
  else
    let s1 := accept (encode i) op i.forceScalar s
    if s1.hostWaits then runToEnd s1 else s1

end Sys2Proof.Machine
end

