-- ==== Sys2Proof/Machine/Commands.lean ====
section
/-! DEFINITION. The meaning of each command (spec 43 §2): what the write of its word to `CMD` does. -/

namespace Sys2Proof.Machine

/-- `NOP` (43 R203, 30 R105): never accepted; while busy it is a lost `CMD` write like any other (10 R41). -/
def execNop (s : State) : Host.Outcome State Fault Refusal := .next (if s.busy then setOvr s else s)

/-- `ENC` (43 R204). -/
def execEnc (S : Bool) (s : State) : Host.Outcome State Fault Refusal := .next (command (.enc S) .enc s)

/-- `DEC` (43 R205). -/
def execDec (S : Bool) (s : State) : Host.Outcome State Fault Refusal := .next (command (.dec S) .dec s)

/-- `ENCLEN` (43 R206). -/
def execEnclen (S : Bool) (s : State) : Host.Outcome State Fault Refusal := .next (command (.enclen S) .enclen s)

/-- `DECLEN` (43 R207). -/
def execDeclen (S : Bool) (s : State) : Host.Outcome State Fault Refusal := .next (command (.declen S) .declen s)

/-- `ILLEGAL`, `OP` = 0x5 (43 R208). -/
def execIll5 (S : Bool) (s : State) : Host.Outcome State Fault Refusal := .next (command (.ill5 S) .illegal s)

/-- `ILLEGAL`, `OP` = 0x6 (43 R208). -/
def execIll6 (S : Bool) (s : State) : Host.Outcome State Fault Refusal := .next (command (.ill6 S) .illegal s)

/-- `ILLEGAL`, `OP` = 0x7 (43 R208). -/
def execIll7 (S : Bool) (s : State) : Host.Outcome State Fault Refusal := .next (command (.ill7 S) .illegal s)

/-- `ILLEGAL`, `OP` = 0x8 (43 R208). -/
def execIll8 (S : Bool) (s : State) : Host.Outcome State Fault Refusal := .next (command (.ill8 S) .illegal s)

/-- `ILLEGAL`, `OP` = 0x9 (43 R208). -/
def execIll9 (S : Bool) (s : State) : Host.Outcome State Fault Refusal := .next (command (.ill9 S) .illegal s)

/-- `ILLEGAL`, `OP` = 0xA (43 R208). -/
def execIll10 (S : Bool) (s : State) : Host.Outcome State Fault Refusal := .next (command (.ill10 S) .illegal s)

/-- `ILLEGAL`, `OP` = 0xB (43 R208). -/
def execIll11 (S : Bool) (s : State) : Host.Outcome State Fault Refusal := .next (command (.ill11 S) .illegal s)

/-- `ILLEGAL`, `OP` = 0xC (43 R208). -/
def execIll12 (S : Bool) (s : State) : Host.Outcome State Fault Refusal := .next (command (.ill12 S) .illegal s)

/-- `ILLEGAL`, `OP` = 0xD (43 R208). -/
def execIll13 (S : Bool) (s : State) : Host.Outcome State Fault Refusal := .next (command (.ill13 S) .illegal s)

/-- `ILLEGAL`, `OP` = 0xE (43 R208). -/
def execIll14 (S : Bool) (s : State) : Host.Outcome State Fault Refusal := .next (command (.ill14 S) .illegal s)

/-- `ILLEGAL`, `OP` = 0xF (43 R208). -/
def execIll15 (S : Bool) (s : State) : Host.Outcome State Fault Refusal := .next (command (.ill15 S) .illegal s)

end Sys2Proof.Machine
end

