-- ==== Sys2Proof/Machine/Dispatch.lean ====
section
/-! DEFINITION. The dispatch: one arm per command, each a direct call of its meaning. -/

namespace Sys2Proof.Machine

def exec (i : Instr) (s : State) : Host.Outcome State Fault Refusal :=
  match i with
  | .nop => Sys2Proof.Machine.execNop s
  | .enc S => Sys2Proof.Machine.execEnc S s
  | .dec S => Sys2Proof.Machine.execDec S s
  | .enclen S => Sys2Proof.Machine.execEnclen S s
  | .declen S => Sys2Proof.Machine.execDeclen S s
  | .ill5 S => Sys2Proof.Machine.execIll5 S s
  | .ill6 S => Sys2Proof.Machine.execIll6 S s
  | .ill7 S => Sys2Proof.Machine.execIll7 S s
  | .ill8 S => Sys2Proof.Machine.execIll8 S s
  | .ill9 S => Sys2Proof.Machine.execIll9 S s
  | .ill10 S => Sys2Proof.Machine.execIll10 S s
  | .ill11 S => Sys2Proof.Machine.execIll11 S s
  | .ill12 S => Sys2Proof.Machine.execIll12 S s
  | .ill13 S => Sys2Proof.Machine.execIll13 S s
  | .ill14 S => Sys2Proof.Machine.execIll14 S s
  | .ill15 S => Sys2Proof.Machine.execIll15 S s

end Sys2Proof.Machine
end

