-- ==== Sys2Proof/Machine/Port.lean ====
section
/-! DEFINITION. The register slave port (10 R33 to R37, R43 to R50), the other moves of the outside world (70 R274), whose
turn it is, and how the next command is found. -/

namespace Sys2Proof.Machine

/-! ### The register map -/

/-- The registers of the window (10 R33). -/
inductive Reg where
  | id
  | cap
  | cmd
  | status
  | srcAddr
  | srcLen
  | dstAddr
  | dstCap
  | result
  | errInfo
  | irqEn
  deriving DecidableEq, Repr

/-- The byte offset of a register (10 R33). -/
def regOffset : Reg → Nat
  | .id => 0x00
  | .cap => 0x04
  | .cmd => 0x08
  | .status => 0x0C
  | .srcAddr => 0x10
  | .srcLen => 0x14
  | .dstAddr => 0x18
  | .dstCap => 0x1C
  | .result => 0x20
  | .errInfo => 0x24
  | .irqEn => 0x28

/-- The register at a byte offset (10 R33); `none` at a reserved one. -/
def regAt (off : Nat) : Option Reg :=
  match off with
  | 0x00 => some .id
  | 0x04 => some .cap
  | 0x08 => some .cmd
  | 0x0C => some .status
  | 0x10 => some .srcAddr
  | 0x14 => some .srcLen
  | 0x18 => some .dstAddr
  | 0x1C => some .dstCap
  | 0x20 => some .result
  | 0x24 => some .errInfo
  | 0x28 => some .irqEn
  | _ => none

/-- `ID` (10 R35). -/
def idWord : Word := 0x42363401

/-- `CAP` (10 R36): `VEC` in bit 0, `EBLK` in [15:8], `DBLK` in [23:16]. -/
def capWord (hasVector : Bool) : Word :=
  0#8 ++ BitVec.ofNat 8 Config.decBlkIn ++ BitVec.ofNat 8 Config.encBlkIn ++ 0#7 ++ BitVec.ofBool hasVector

/-- The value a register reads (10 R33). A read has no side effect (10 R34). -/
def readReg (r : Reg) (s : State) : Word :=
  match r with
  | .id => idWord
  | .cap => capWord s.hasVector
  | .cmd => s.cmd
  | .status => s.status
  | .srcAddr => s.srcAddr
  | .srcLen => s.srcLen
  | .dstAddr => s.dstAddr
  | .dstCap => s.dstCap
  | .result => s.result
  | .errInfo => s.errInfo
  | .irqEn => s.irqEn

/-- The value an aligned word reads at offset `off`: 0 at a reserved one (10 R34). -/
def readOffset (off : Nat) (s : State) : Word :=
  match regAt off with
  | some r => readReg r s
  | none => 0

/-- A write to a register other than `CMD` (10 R43 to R50): operands are lost while busy, RO registers ignore writes. -/
def writeReg (r : Reg) (v : Word) (s : State) : State :=
  match r with
  | .id => s
  | .cap => s
  | .cmd => s
  | .status => writeStatus v s
  | .srcAddr => if s.busy then setOvr s else { s with srcAddr := v }
  | .srcLen => if s.busy then setOvr s else { s with srcLen := v }
  | .dstAddr => if s.busy then setOvr s else { s with dstAddr := v }
  | .dstCap => if s.busy then setOvr s else { s with dstCap := v }
  | .result => s
  | .errInfo => s
  | .irqEn => writeIrqEn v s

/-- A write at offset `off`; a reserved offset ignores it (10 R34). -/
def writeOffset (off : Nat) (v : Word) (s : State) : State :=
  match regAt off with
  | some r => writeReg r v s
  | none => s

/-! ### The port -/

/-- The offset in the window of an access (10 R33); `none` for a bus address outside the 256 bytes. DESIGN CHOICE: bus
addresses have 32 bits, and a window whose `REG_BASE` is above 0xFFFF_FF00 wraps to address 0, since the spec bounds neither
`REG_BASE` nor the host's address map; log entry 28. -/
def windowOffset (s : State) (a : PortAddr) : Option Nat :=
  match a with
  | .window off => some off.toNat
  | .bus a => if (a - s.regBase).toNat < 256 then some (a - s.regBase).toNat else none

/-- A naturally aligned 32-bit word (10 R34); log entry 19. -/
def legalAccess (off : Nat) (size : AccessSize) : Bool := size == .word && off % 4 == 0

/-- The answer of an access. -/
def answer (data : Word) (err : Bool) (s : State) : State := { s with resp := { data := data, err := err } }

/-- A read on the register port (10 R34); 0 while reset is asserted (70 R260). An access outside the window is no access
to this block (log entry 21). -/
def portRead (a : PortAddr) (size : AccessSize) (s : State) : State :=
  match windowOffset s a with
  | none => s
  | some off =>
    if legalAccess off size then answer (if s.rst then 0 else readOffset off s) false s else answer 0 true s

/-- A write on the register port, other than a command (10 R34); ignored while reset is asserted (70 R260). -/
def portWrite (a : PortAddr) (size : AccessSize) (v : Word) (s : State) : State :=
  match windowOffset s a with
  | none => s
  | some off =>
    if legalAccess off size then answer 0 false (if s.rst then s else writeOffset off v s) else answer 0 true s

/-- The command word a write carries: an aligned word to `CMD`, reset not asserted (43 R201, 10 R34, 70 R260). -/
def commandWord (a : PortAddr) (size : AccessSize) (v : Word) (s : State) : Option Word :=
  match windowOffset s a with
  | none => none
  | some off => if legalAccess off size && (regAt off == some .cmd) && !s.rst then some v else none

/-! ### Other agents and the memory environment -/

/-- Another agent writes a byte. In a region of the running command this breaks the buffer rules (70 R265). -/
def otherWrite (a : Word) (v : Byte) (s : State) : State :=
  { s with
    mem := Mem.set s.mem a.toNat v
    tainted := s.tainted || (s.busy && (s.inSource a || s.inDest a)) }

/-- Another agent reads a byte: any value in the running command's destination region (70 R266). -/
def otherRead (a : Word) (s : State) : State :=
  if s.busy && s.inDest a then
    answer ((Config.freeByte s.draws).setWidth 32) false { s with draws := s.draws + 1 }
  else answer ((Mem.get s.mem a.toNat).setWidth 32) false s

/-- The platform changes how it answers. A running command past its checks may have made any of its transfers before, and may
make any from now on (20 R90): the environment so far is remembered if it answered, and a source address that becomes volatile
breaks 20 R91, with the outcome of 70 R265. -/
def changePlatform (b : Bus) (s : State) : State :=
  if s.busy && s.stage != .check then
    { s with
      bus := b
      earlier := if s.bus.answers then s.bus :: s.earlier else s.earlier
      tainted := s.tainted || b.volatile.any s.inSource }
  else { s with bus := b }

/-- A move of the outside world that carries no command (70 R274). -/
def hostAct (act : HostAct) (s : State) : State :=
  match act with
  | .regWrite a size v => portWrite a size v s
  | .regRead a size => portRead a size s
  | .memWrite a v => otherWrite a v s
  | .memRead a => otherRead a s
  | .rstAssert => assertReset s
  | .rstDeassert => deassertReset s
  | .platform bus => changePlatform bus s

/-! ### Whose turn it is -/

/-- What the next step is. -/
inductive Turn where
  /-- The host's next move writes a command word: its command runs at the given state. -/
  | command (i : Instr) (s : State)
  /-- Any other step: its next state. -/
  | other (s : State)
  deriving DecidableEq, Repr

/-- The host's move `act` at `s`. A command write is answered like any write, and its word decoded (30 R107). -/
def moveTurn (act : HostAct) (s : State) : Turn :=
  match act with
  | .regWrite a size v =>
    match commandWord a size v s with
    | some w => .command (decode w) (answer 0 false s)
    | none => .other (portWrite a size v s)
  | .regRead a size => .other (hostAct (.regRead a size) s)
  | .memWrite a v => .other (hostAct (.memWrite a v) s)
  | .memRead a => .other (hostAct (.memRead a) s)
  | .rstAssert => .other (hostAct .rstAssert s)
  | .rstDeassert => .other (hostAct .rstDeassert s)
  | .platform bus => .other (hostAct (.platform bus) s)

/-- Whose turn it is: the host's next move if the engine is idle or the move is due, else one engine step. With no move
pending, a running engine goes on and an idle one stays as it is (60 R250). Log entry 4. -/
def nextTurn (s : State) : Turn :=
  match s.inbox with
  | [] => .other (engineStep s)
  | m :: rest =>
    if !s.busy then moveTurn m.act { s with inbox := rest }
    else
      match m.after with
      | none => .other (engineStep s)
      | some 0 => moveTurn m.act { s with inbox := rest }
      | some (k + 1) => .other (engineStep { s with inbox := { m with after := some k } :: rest })

/-! ### Host programs -/

/-- The bus address of a register, `REG_BASE` + its offset (30 R111). -/
def regAddr (base : Word) (r : Reg) : PortAddr := .bus (base + BitVec.ofNat 32 (regOffset r))

/-- `wr NAME, v` (30 R111), `after` saying when it comes. -/
def wr (base : Word) (after : Option Nat) (r : Reg) (v : Word) : HostMove :=
  { after := after, act := .regWrite (regAddr base r) .word v }

/-- `rd NAME` (30 R111); with `after` = none it comes after a `wait`. -/
def rd (base : Word) (after : Option Nat) (r : Reg) : HostMove :=
  { after := after, act := .regRead (regAddr base r) .word }

/-- `cmd M` (30 R111). -/
def cmdMove (base : Word) (after : Option Nat) (i : Instr) : HostMove := wr base after .cmd (encode i)

/-- `encode_len(n)` (30 R112). -/
def hostEncodeLen (base n : Word) : List HostMove :=
  [wr base none .srcLen n, cmdMove base none (.enclen false), rd base none .result]

/-- `decode_len(n)` (30 R112). -/
def hostDecodeLen (base n : Word) : List HostMove :=
  [wr base none .srcLen n, cmdMove base none (.declen false), rd base none .result]

/-- The operand writes of `encode_into` and `decode_into` (30 R112). -/
def hostOperands (base src len dst cap : Word) : List HostMove :=
  [wr base none .srcAddr src, wr base none .srcLen len, wr base none .dstAddr dst, wr base none .dstCap cap]

/-- `encode_into(in, out)` (30 R112). -/
def hostEncodeInto (base src len dst cap : Word) : List HostMove :=
  hostOperands base src len dst cap ++
    [cmdMove base none (.enc false), rd base none .status, rd base none .result, rd base none .errInfo]

/-- `decode_into(in, out)` (30 R112). -/
def hostDecodeInto (base src len dst cap : Word) : List HostMove :=
  hostOperands base src len dst cap ++
    [cmdMove base none (.dec false), rd base none .status, rd base none .result, rd base none .errInfo]

/-- The host's acknowledge (60 R243): W1C of `DONE` and `OVR`. -/
def hostAcknowledge (base : Word) : List HostMove := [wr base none .status 0xA]

/-- The host's next move is the write of `w` to `CMD`, and the port takes it. -/
def placeCommand (s : State) (w : Word) : State :=
  { s with
    rst := false
    inbox := { after := some 0, act := .regWrite (.window 0x08) .word w } :: s.inbox }

end Sys2Proof.Machine
end

