-- ==== Sys2Proof/Machine/Step.lean ====
section
/-! DEFINITION. One step: the host's next move or one engine step, and how a command word is placed for the next step. -/

namespace Sys2Proof.Machine

/-- One step. A command write runs `exec`; every other step only calls the operation of Machine/Port.lean. -/
def step (s : State) : Host.Outcome State Fault Refusal :=
  match nextTurn s with
  | .command i s1 => exec i s1
  | .other s1 => .next s1

/-- `s` with the host's next move the write to `CMD` of the word `w`, its bits above `nbits` zero. The block fetches no
instruction (10 R32): its next instruction is the next command word the host writes. Log entry 11. -/
def State.withFetchWord (s : State) (nbits w : Nat) : State := placeCommand s (BitVec.ofNat 32 (w % 2 ^ nbits))

end Sys2Proof.Machine
end

