-- ==== Sys2Proof/Machine/Whole.lean ====
section
/-! DEFINITION. The whole-command view (43 R213): what `ENC` and `DEC` compute from the source bytes, as functions of byte
sequences (00 R7), free of cursors, blocks and memory. -/

namespace Sys2Proof.Machine

/-- `encode` (41 R143 to R146): the characters of a byte sequence. -/
def encodeRef : List Byte → List Byte
  | b0 :: b1 :: b2 :: rest => tripletChars b0 b1 b2 ++ encodeRef rest
  | [b0, b1] => tail2Chars b0 b1
  | [b0] => tail1Chars b0
  | [] => []

/-- The final quartet `q` (41 R148, R150 to R152), its bytes or the index of the invalid quartet. -/
def decodeFinal (q : Nat) (c0 c1 c2 c3 : Byte) : Except Nat (List Byte) :=
  match padOf c2 c3 with
  | 0 => if groupValid [c0, c1, c2, c3] then .ok (quartetBytes c0 c1 c2 c3) else .error q
  | 1 => if groupValid [c0, c1, c2] then .ok (tail3Bytes c0 c1 c2) else .error q
  | 2 => if groupValid [c0, c1] then .ok (tail2Bytes c0 c1) else .error q

/-- `decode` from quartet `q` on (41 R154): the bytes, or the least index of an invalid quartet (41 R156). A sequence whose
length is no multiple of four never gets here (41 R149). -/
def decodeFrom : Nat → List Byte → Except Nat (List Byte)
  | _, [] => .ok []
  | q, c0 :: c1 :: c2 :: c3 :: rest =>
    if rest.isEmpty then decodeFinal q c0 c1 c2 c3
    else if groupValid [c0, c1, c2, c3] then
      match decodeFrom (q + 1) rest with
      | .ok bs => .ok (quartetBytes c0 c1 c2 c3 ++ bs)
      | .error e => .error e
    else .error q
  | q, _ => .error q

/-- `decode` (41 R154): the bytes of a character sequence, or the least index of an invalid quartet. -/
def decodeRef (cs : List Byte) : Except Nat (List Byte) := decodeFrom 0 cs

/-- The source region's bytes, in order (20 R81). -/
def State.sourceBytes (s : State) : List Byte := (List.range s.len).map s.input

/-- The first `k` bytes from `dst` on (20 R81). -/
def State.destBytes (s : State) (k : Nat) : List Byte := (List.range k).map fun j => Mem.get s.mem (s.dstAt j).toNat

end Sys2Proof.Machine
end

