-- ==== Sys2Proof/Safety.lean ====
section
/-! DEFINITION. The terms the statements use: what a command leaves alone, when it may run undisturbed, the exact state after
a command that its checks end, and the invariant that every step keeps. -/

namespace Sys2Proof.Safety

open Sys2Proof.Machine

/-- The engine is idle and the host leaves a command it starts alone until it ends: the premise of 43 R213. -/
abbrev idleWaiting (s : State) : Prop := s.phase = .idle ∧ s.hostWaits = true

/-- The platform answers every transfer of a command with required length `req`, with data and without side effects
(20 R82, R83, R91; 70 R272). -/
abbrev quietBus (req : Nat) (s : State) : Prop :=
  s.bus.answers = true ∧
  s.bus.rdErr.any (fun a => inRegion s.src s.len a.toNat) = false ∧
  s.bus.wrErr.any (fun a => inRegion s.dst req a.toNat) = false ∧
  s.bus.volatile.any (fun a => inRegion s.src s.len a.toNat) = false

/-- The checks of `ENC` pass (43 R204). -/
abbrev encReady (s : State) : Prop :=
  encodeLen s.len ≤ Config.maxLen ∧ encodeLen s.len ≤ s.cap ∧
  rangesOk s.src s.len s.dst (encodeLen s.len) = true

/-- The checks of `DEC` pass on a non-empty input (43 R205). -/
abbrev decReady (s : State) : Prop :=
  0 < s.len ∧ s.len % 4 = 0 ∧ decodeLen s.len ≤ s.cap ∧
  rangesOk s.src s.len s.dst (decodeLen s.len) = true

/-- A host move that comes after `after` engine steps is the next step: the engine is idle, or the move is due. -/
abbrev dueNow (after : Option Nat) (s : State) : Prop := s.phase = .idle ∨ after = some 0

/-- What no command and no engine step changes: the parameters, the operand registers, `IRQ_EN`, `OVR`, the reset input, the
memory environment, the host's pending moves and the port's last answer (43 R201, 60 R240). -/
structure SameSetup (s t : State) : Prop where
  hasVector : t.hasVector = s.hasVector
  regBase : t.regBase = s.regBase
  srcAddr : t.srcAddr = s.srcAddr
  srcLen : t.srcLen = s.srcLen
  dstAddr : t.dstAddr = s.dstAddr
  dstCap : t.dstCap = s.dstCap
  doneIE : t.doneIE = s.doneIE
  ovr : t.ovr = s.ovr
  rst : t.rst = s.rst
  bus : t.bus = s.bus
  inbox : t.inbox = s.inbox
  resp : t.resp = s.resp

/-- Every byte outside the `k` bytes at `base` reads as before. -/
def SameOutside (base k : Nat) (s t : State) : Prop :=
  ∀ a, inRegion base k a = false → Mem.get t.mem a = Mem.get s.mem a

/-- The completion record of the last command (60 R240): idle, `DONE` set, and the three result values. -/
structure Completed (t : State) (err : BitVec 4) (result info : Word) : Prop where
  phase : t.phase = .idle
  done : t.done = true
  err : t.err = err
  result : t.result = result
  errInfo : t.errInfo = info

/-- What `Unknown` may report for a failing transfer at `a` in the region at `base` (60 R235): `a`, or with combined
transfers any address of the region up to it (log entry 12). -/
abbrev reportsFor (s : State) (base : Nat) (a r : Word) : Prop :=
  if s.bus.combined then base ≤ r.toNat ∧ r.toNat ≤ a.toNat else r = a

/-- The command of `s`, which writes `k` bytes, has ended with `Unknown` for one of its failing transfers (60 R235). -/
def EndsUnknown (k : Nat) (s t : State) : Prop :=
  ∃ a r, Completed t 4 0 r ∧
    ((a ∈ s.bus.rdErr ∧ inRegion s.src s.len a.toNat = true ∧ reportsFor s s.src a r) ∨
      (a ∈ s.bus.wrErr ∧ inRegion s.dst k a.toNat = true ∧ reportsFor s s.dst a r))

/-- The exact state after a command that ends in its checks (43 R201, 60 R240): every field named changes, no other does. -/
def endedInCheck (i : Instr) (op : Op) (code : BitVec 4) (result info : Word) (s : State) : State :=
  { s with
    cmd := encode i
    op := op
    sel := selectPath op i.forceScalar s.hasVector
    vsel := selectPath op i.forceScalar s.hasVector
    phase := .idle
    stage := .check
    inOff := 0
    outOff := 0
    done := true
    err := code
    result := result
    errInfo := info
    earlier := []
    tainted := false }

/-- The exact state right after acceptance (43 R201). -/
def accepted (i : Instr) (op : Op) (s : State) : State :=
  { s with
    cmd := encode i
    op := op
    sel := selectPath op i.forceScalar s.hasVector
    vsel := selectPath op i.forceScalar s.hasVector
    phase := .run
    stage := .check
    inOff := 0
    outOff := 0
    done := false
    err := 0
    result := 0
    errInfo := 0
    earlier := []
    tainted := false }

/-- The command an instruction starts (30 R102, R107); `NOP` starts none. -/
def opOf : Instr → Option Op
  | .nop => none
  | .enc _ => some .enc
  | .dec _ => some .dec
  | .enclen _ => some .enclen
  | .declen _ => some .declen
  | .ill5 _ => some .illegal
  | .ill6 _ => some .illegal
  | .ill7 _ => some .illegal
  | .ill8 _ => some .illegal
  | .ill9 _ => some .illegal
  | .ill10 _ => some .illegal
  | .ill11 _ => some .illegal
  | .ill12 _ => some .illegal
  | .ill13 _ => some .illegal
  | .ill14 _ => some .illegal
  | .ill15 _ => some .illegal

/-- The length of the region an instruction may write (20 R89, 30 R101), for the operands of `s`. -/
def writeLen (i : Instr) (s : State) : Nat :=
  match opOf i with
  | some .enc => encodeLen s.len
  | some .dec => decodeLen s.len
  | some .enclen => 0
  | some .declen => 0
  | some .illegal => 0
  | none => 0

/-- The checks an accepted `ENC` or `DEC` has passed, as long as it is past stage `CHECK` (43 R204, R205). -/
def PastChecks (s : State) : Prop :=
  match s.op with
  | .enc => encReady s
  | .dec => decReady s
  | .enclen => False
  | .declen => False
  | .illegal => False

/-- The cursors of a running command (10 R32, 42 R177, R186, 41 R146, R154): how far they are and how they relate. -/
def CursorsOk (s : State) : Prop :=
  match s.stage with
  | .check => s.inOff = 0 ∧ s.outOff = 0
  | .vector =>
    s.sel = true ∧
    match s.op with
    | .enc => s.inOff.toNat % 24 = 0 ∧ s.inOff.toNat ≤ s.len ∧ s.outOff.toNat = encodeLen s.inOff.toNat
    | .dec => s.inOff.toNat % 32 = 0 ∧ s.inOff.toNat < s.len ∧ s.outOff.toNat = decodeLen s.inOff.toNat
    | .enclen => False
    | .declen => False
    | .illegal => False
  | .scalar =>
    match s.op with
    | .enc => s.inOff.toNat % 3 = 0 ∧ s.inOff.toNat ≤ s.len ∧ s.outOff.toNat = encodeLen s.inOff.toNat
    | .dec => s.inOff.toNat % 4 = 0 ∧ s.inOff.toNat < s.len ∧ s.outOff.toNat = decodeLen s.inOff.toNat
    | .enclen => False
    | .declen => False
    | .illegal => False
  | .finish =>
    match s.op with
    | .enc => s.inOff.toNat = s.len ∧ s.outOff.toNat = encodeLen s.len
    | .dec => s.inOff.toNat = s.len ∧ s.outOff.toNat = decodeLen s.len - s.pad.val
    | .enclen => False
    | .declen => False
    | .illegal => False

/-- The invariant of every step. -/
structure Inv (s : State) : Prop where
  /-- Memory keeps its canonical form. -/
  memory : Mem.wf s.mem
  /-- `CMD` reads 0 in its reserved bits (10 R37), and holds an accepted command or its reset value. -/
  command : s.cmd &&& 0x0000010F = s.cmd ∧ (s.cmd = 0 ∨ decode s.cmd ≠ .nop)
  /-- Codes 8 to 15 are never produced (60 R231). -/
  code : s.err.toNat < 8
  /-- `VSEL` needs the capability (43 R200: vector code is never reachable without it). -/
  path : s.vsel = true → s.hasVector = true
  /-- A running command has an empty record, `VSEL` mirrors `sel`, and reset is not asserted (43 R201, 10 R39, R42, R53). -/
  running : s.phase = .run →
    s.done = false ∧ s.err = 0 ∧ s.result = 0 ∧ s.errInfo = 0 ∧ s.vsel = s.sel ∧ s.rst = false ∧
    (s.sel = true → s.op = .enc ∨ s.op = .dec)
  /-- Past stage `CHECK` the checks have passed (43 R204, R205). -/
  checked : s.phase = .run → s.stage ≠ .check → PastChecks s
  /-- The cursors are where their loops put them, and never wrap (10 R32). -/
  cursors : s.phase = .run → CursorsOk s
  /-- While reset is asserted the block is in its reset state (70 R260). -/
  inReset : s.rst = true → resetBlock s = s

end Sys2Proof.Safety
end

