-- ==== Sys2Proof/Certificates/Slice0/Obligations.lean ====
section
/-! DEFINITION. The statements for the provers, each from the spec's numbered rules. -/

open Sys2Proof Sys2Proof.Machine Sys2Proof.Safety

/-! ### Encoding (spec 30) -/

/-- 30 R102, R110: command words written out from the opcode map stand for their commands; 0x103 is V-C21's word. -/
def Obligations.CommandWordsDecode : Prop :=
  decode 0x00000000 = .nop ∧ decode 0x00000001 = .enc false ∧ decode 0x00000101 = .enc true ∧
  decode 0x00000002 = .dec false ∧ decode 0x00000102 = .dec true ∧ decode 0x00000003 = .enclen false ∧
  decode 0x00000103 = .enclen true ∧ decode 0x00000004 = .declen false ∧ decode 0x00000005 = .ill5 false ∧
  decode 0x00000007 = .ill7 false ∧ decode 0x0000000F = .ill15 false ∧ decode 0xFFFFFF01 = .enc true

/-- 30 R104: reserved bits are ignored by decoding, so none is illegal, and `CMD` reads them back as 0. -/
def Obligations.ReservedBitsIgnored : Prop :=
  (∀ w : Word, decode w = decode (w &&& 0x0000010F)) ∧
  ∀ (w : Word) (s t : State), s.phase = .idle → decode w ≠ .nop → exec (decode w) s = .next t →
    readReg .cmd t = w &&& 0x0000010F

/-- 30 R107: decoding goes by `w[3:0]` alone, and `S` is `w[8]`. That `ENCLEN` and `DECLEN` carry `S` too is deduced from
43 R201, since `CMD` reads it back: log entry 18. -/
def Obligations.DecodeByOpcodeField : Prop :=
  ∀ w : Word,
    (opField w = 0x0 → decode w = .nop) ∧
    (opField w = 0x1 → decode w = .enc (w.getLsbD 8)) ∧
    (opField w = 0x2 → decode w = .dec (w.getLsbD 8)) ∧
    (opField w = 0x3 → decode w = .enclen (w.getLsbD 8)) ∧
    (opField w = 0x4 → decode w = .declen (w.getLsbD 8)) ∧
    (5 ≤ (opField w).toNat → opOf (decode w) = some .illegal)

/-- 30 R100, R104, R107: decoding undoes encoding for every command, as a word and as the bytes of one; encoding undoes
decoding up to the reserved bits, and up to `S` for `NOP`. -/
def Obligations.EncodeDecodeRoundTrip : Prop :=
  (∀ i : Instr, decode (encode i) = i) ∧
  (∀ i : Instr, decodeBytes (encodeBytes i) = .ok i) ∧
  (∀ w : Word, decodeBytes (lanesOfWord w) = .ok (decode w)) ∧
  ∀ w : Word, encode (decode w) = if opField w = 0 then 0 else w &&& 0x0000010F

/-! ### Reset (10 R57, 70 R260, R261) -/

/-- 10 R33, R57: what the register window, `irq` and the engine show right after reset. -/
def Obligations.ResetState : Prop :=
  readReg .id State.reset = 0x42363401 ∧
  (readReg .cap State.reset = 0x00201800 ∨ readReg .cap State.reset = 0x00201801) ∧
  (∀ r : Reg, r ≠ .id → r ≠ .cap → readReg r State.reset = 0) ∧
  State.reset.irq = false ∧ State.reset.phase = .idle ∧ State.reset.rst = false

/-- 70 R261 (any value: log entries 7 and 10; how far the region goes: log entry 17): a reset while busy ends the command
without a record; each byte of its destination is a free value, and every other byte is unchanged. -/
def Obligations.ResetAbortsCommand : Prop :=
  ∀ (s : State) (rest : List HostMove), s.phase = .run → s.inbox = { after := some 0, act := .rstAssert } :: rest →
    ∃ t, step s = .next t ∧ t.phase = .idle ∧ t.done = false ∧ t.err = 0 ∧ t.result = 0 ∧ t.rst = true ∧
      (∀ j, j < s.openLen → Mem.get t.mem (s.dst + j) = Config.freeByte (s.draws + j)) ∧
      SameOutside s.dst s.openLen s t

/-- 70 R260: asserting reset on an idle block puts every register to its reset value and leaves memory alone; while it is
asserted, aligned word writes are ignored and aligned word reads return 0; deasserting changes only the input. -/
def Obligations.ResetHoldsBlock : Prop :=
  (∀ (s : State) (after : Option Nat) (rest : List HostMove), s.phase = .idle →
    s.inbox = { after := after, act := .rstAssert } :: rest →
    ∃ t, step s = .next t ∧ (∀ r : Reg, r ≠ .id → r ≠ .cap → readReg r t = 0) ∧ t.irq = false ∧ t.phase = .idle ∧
      t.rst = true ∧ t.mem = s.mem) ∧
  (∀ (s : State) (after : Option Nat) (rest : List HostMove) (off : Byte) (v : Word), s.rst = true → s.phase = .idle →
    off.toNat % 4 = 0 → s.inbox = { after := after, act := .regWrite (.window off) .word v } :: rest →
    step s = .next { s with inbox := rest, resp := { data := 0, err := false } }) ∧
  (∀ (s : State) (after : Option Nat) (rest : List HostMove) (off : Byte), s.rst = true → s.phase = .idle →
    off.toNat % 4 = 0 → s.inbox = { after := after, act := .regRead (.window off) .word } :: rest →
    step s = .next { s with inbox := rest, resp := { data := 0, err := false } }) ∧
  ∀ (s : State) (after : Option Nat) (rest : List HostMove), dueNow after s →
    s.inbox = { after := after, act := .rstDeassert } :: rest →
    step s = .next { s with inbox := rest, rst := false }

/-! ### Steps -/

/-- 43 R201, 30 R107, 10 R34: a host's aligned word write to `CMD`, at its window offset or at `REG_BASE` + 0x08, is one step
that answers the port and runs the command decoded from the word. That the second form holds for every `REG_BASE` is the model's
choice: log entry 19 for one that is no multiple of 4, log entry 28 for one above 0xFFFF_FF00. -/
def Obligations.StepRunsDecodedCommand : Prop :=
  ∀ (s : State) (after : Option Nat) (rest : List HostMove) (w : Word), s.rst = false → dueNow after s →
    (s.inbox = { after := after, act := .regWrite (.window 0x08) .word w } :: rest →
      step s = exec (decode w) { s with inbox := rest, resp := { data := 0, err := false } }) ∧
    (s.inbox = { after := after, act := .regWrite (.bus (s.regBase + 0x08)) .word w } :: rest →
      step s = exec (decode w) { s with inbox := rest, resp := { data := 0, err := false } })

/-- `withFetchWord` places a command word: the very next step runs the command decoded from it, in every state. -/
def Obligations.PlacedWordRunsNext : Prop :=
  ∀ (s : State) (nbits w : Nat) (i : Instr), decodeTableWord nbits w = some i →
    step (s.withFetchWord nbits w) = exec i { s with rst := false, resp := { data := 0, err := false } }

/-- 00 R11, 60 R250 (the schedule: log entry 4): with no host move due, a step is one engine step; an idle engine with
nothing pending stays as it is. -/
def Obligations.StepIsEngineStep : Prop :=
  (∀ s : State, s.phase = .idle → s.inbox = [] → step s = .next s) ∧
  (∀ s : State, s.phase = .run → s.hostWaits = true → step s = .next (engineStep s)) ∧
  ∀ (s : State) (k : Nat) (act : HostAct) (rest : List HostMove), s.phase = .run →
    s.inbox = { after := some (k + 1), act := act } :: rest →
    step s = .next (engineStep { s with inbox := { after := some k, act := act } :: rest })

/-- 60 R230, 43 R214: no step stops the block, and none refuses a command. -/
def Obligations.StepNeverStops : Prop := ∀ s : State, ∃ t, step s = .next t

/-! ### The register port (10 R33 to R50) -/

/-- 10 R43 to R46, R49: an operand write while idle sets that register, whatever the value, and nothing else; a write to
`IRQ_EN` sets `DONE_IE` from bit 0. -/
def Obligations.OperandWritesWhileIdle : Prop :=
  ∀ (s : State) (after : Option Nat) (rest : List HostMove) (v : Word), s.phase = .idle → s.rst = false →
    (s.inbox = { after := after, act := .regWrite (.window 0x10) .word v } :: rest →
      step s = .next { s with inbox := rest, resp := { data := 0, err := false }, srcAddr := v }) ∧
    (s.inbox = { after := after, act := .regWrite (.window 0x14) .word v } :: rest →
      step s = .next { s with inbox := rest, resp := { data := 0, err := false }, srcLen := v }) ∧
    (s.inbox = { after := after, act := .regWrite (.window 0x18) .word v } :: rest →
      step s = .next { s with inbox := rest, resp := { data := 0, err := false }, dstAddr := v }) ∧
    (s.inbox = { after := after, act := .regWrite (.window 0x1C) .word v } :: rest →
      step s = .next { s with inbox := rest, resp := { data := 0, err := false }, dstCap := v }) ∧
    (s.inbox = { after := after, act := .regWrite (.window 0x28) .word v } :: rest →
      step s = .next { s with inbox := rest, resp := { data := 0, err := false }, doneIE := v.getLsbD 0 })

/-- 10 R50: while busy, writes to `CMD` and the operand registers only set `OVR`; `STATUS` and `IRQ_EN` writes act; and the
engine leaves the operand registers alone. -/
def Obligations.WritesWhileBusy : Prop :=
  (∀ (s : State) (rest : List HostMove) (off : Byte) (v : Word), s.phase = .run → s.rst = false →
    off ∈ [(0x08 : Byte), 0x10, 0x14, 0x18, 0x1C] →
    s.inbox = { after := some 0, act := .regWrite (.window off) .word v } :: rest →
    step s = .next { s with inbox := rest, resp := { data := 0, err := false }, ovr := true }) ∧
  (∀ (s : State) (rest : List HostMove) (v : Word), s.phase = .run → s.rst = false →
    s.inbox = { after := some 0, act := .regWrite (.window 0x0C) .word v } :: rest →
    step s = .next { s with
      inbox := rest
      resp := { data := 0, err := false }
      done := s.done && !v.getLsbD 1
      ovr := s.ovr && !v.getLsbD 3 }) ∧
  (∀ (s : State) (rest : List HostMove) (v : Word), s.phase = .run → s.rst = false →
    s.inbox = { after := some 0, act := .regWrite (.window 0x28) .word v } :: rest →
    step s = .next { s with inbox := rest, resp := { data := 0, err := false }, doneIE := v.getLsbD 0 }) ∧
  ∀ s : State, (engineStep s).srcAddr = s.srcAddr ∧ (engineStep s).srcLen = s.srcLen ∧
    (engineStep s).dstAddr = s.dstAddr ∧ (engineStep s).dstCap = s.dstCap

/-- 60 R243, 10 R40, R41: the acknowledge. A `STATUS` write clears `DONE` by bit 1, and `irq` falls, and `OVR` by bit 3;
nothing else changes. -/
def Obligations.AcknowledgeClearsDone : Prop :=
  ∀ (s : State) (after : Option Nat) (rest : List HostMove) (v : Word), dueNow after s → s.rst = false →
    s.inbox = { after := after, act := .regWrite (.window 0x0C) .word v } :: rest →
    ∃ t, step s = .next t ∧
      t = { s with
        inbox := rest
        resp := { data := 0, err := false }
        done := if v.getLsbD 1 then false else s.done
        ovr := if v.getLsbD 3 then false else s.ovr } ∧
      (v.getLsbD 1 = true → t.irq = false)

/-- 10 R34: an aligned word read returns the register at the offset, 0 at a reserved one, and has no side effect. -/
def Obligations.ReadsReturnRegisters : Prop :=
  (∀ (s : State) (after : Option Nat) (rest : List HostMove) (off : Byte), dueNow after s → s.rst = false →
    off.toNat % 4 = 0 → s.inbox = { after := after, act := .regRead (.window off) .word } :: rest →
    step s = .next { s with inbox := rest, resp := { data := readOffset off.toNat s, err := false } }) ∧
  (∀ (s : State) (r : Reg), readOffset (regOffset r) s = readReg r s) ∧
  ∀ (s : State) (off : Nat), 0x2C ≤ off → readOffset off s = 0

/-- 10 R33, R35 to R49, R56: what each register of the window reads, which bit of `CAP`, `STATUS` and `IRQ_EN` shows what,
and when `irq` is high. -/
def Obligations.RegisterLayout : Prop :=
  ∀ s : State,
    readReg .id s = 0x42363401 ∧
    readReg .cap s = (if s.hasVector then 0x00201801 else 0x00201800) ∧
    readReg .cmd s = s.cmd ∧
    readReg .srcAddr s = s.srcAddr ∧
    readReg .srcLen s = s.srcLen ∧
    readReg .dstAddr s = s.dstAddr ∧
    readReg .dstCap s = s.dstCap ∧
    readReg .result s = s.result ∧
    readReg .errInfo s = s.errInfo ∧
    ((readReg .status s).getLsbD 0 = true ↔ s.phase = .run) ∧
    (readReg .status s).getLsbD 1 = s.done ∧
    (readReg .status s).getLsbD 2 = s.vsel ∧
    (readReg .status s).getLsbD 3 = s.ovr ∧
    (readReg .status s).extractLsb' 4 4 = s.err ∧
    (readReg .status s).toNat < 256 ∧
    readReg .irqEn s = (if s.doneIE then 1 else 0) ∧
    (s.irq = true ↔ s.done = true ∧ s.doneIE = true) ∧
    readOffset 0x00 s = readReg .id s ∧ readOffset 0x04 s = readReg .cap s ∧ readOffset 0x08 s = readReg .cmd s ∧
    readOffset 0x0C s = readReg .status s ∧ readOffset 0x10 s = readReg .srcAddr s ∧
    readOffset 0x14 s = readReg .srcLen s ∧ readOffset 0x18 s = readReg .dstAddr s ∧
    readOffset 0x1C s = readReg .dstCap s ∧ readOffset 0x20 s = readReg .result s ∧
    readOffset 0x24 s = readReg .errInfo s ∧ readOffset 0x28 s = readReg .irqEn s

/-- 10 R33, R34: writes to read-only registers and reserved offsets change nothing. -/
def Obligations.ReadOnlyWritesIgnored : Prop :=
  ∀ (s : State) (after : Option Nat) (rest : List HostMove) (off : Byte) (v : Word), dueNow after s →
    off.toNat % 4 = 0 → (off ∈ [(0x00 : Byte), 0x04, 0x20, 0x24] ∨ 0x2C ≤ off.toNat) →
    s.inbox = { after := after, act := .regWrite (.window off) .word v } :: rest →
    step s = .next { s with inbox := rest, resp := { data := 0, err := false } }

/-- 10 R34: an access that is no aligned 32-bit word gets an error response, changes nothing and reads 0. -/
def Obligations.IllegalAccessRefused : Prop :=
  ∀ (s : State) (after : Option Nat) (rest : List HostMove) (off : Byte) (size : AccessSize) (v : Word),
    dueNow after s → (size ≠ .word ∨ off.toNat % 4 ≠ 0) →
    (s.inbox = { after := after, act := .regWrite (.window off) size v } :: rest →
      step s = .next { s with inbox := rest, resp := { data := 0, err := true } }) ∧
    (s.inbox = { after := after, act := .regRead (.window off) size } :: rest →
      step s = .next { s with inbox := rest, resp := { data := 0, err := true } })

/-- 10 R33, 30 R111, 20 R93: an access at `REG_BASE` + offset steps as the access at that window offset, whatever its width
and direction; an access outside the 256 bytes is only taken from the pending moves (the model's choice: log entry 21). That
this holds for every `REG_BASE` is the model's choice: log entry 19 for one that is no multiple of 4, log entry 28 for one above
0xFFFF_FF00. -/
def Obligations.BusAccessIsWindowAccess : Prop :=
  (∀ (s : State) (after : Option Nat) (rest : List HostMove) (off : Byte) (size : AccessSize) (v : Word),
    dueNow after s →
    (s.inbox = { after := after, act := .regWrite (.bus (s.regBase + off.setWidth 32)) size v } :: rest →
      step s = step { s with inbox := { after := after, act := .regWrite (.window off) size v } :: rest }) ∧
    (s.inbox = { after := after, act := .regRead (.bus (s.regBase + off.setWidth 32)) size } :: rest →
      step s = step { s with inbox := { after := after, act := .regRead (.window off) size } :: rest })) ∧
  ∀ (s : State) (after : Option Nat) (rest : List HostMove) (a : Word) (size : AccessSize) (v : Word),
    dueNow after s → 256 ≤ (a - s.regBase).toNat →
    (s.inbox = { after := after, act := .regWrite (.bus a) size v } :: rest → step s = .next { s with inbox := rest }) ∧
    (s.inbox = { after := after, act := .regRead (.bus a) size } :: rest → step s = .next { s with inbox := rest })

/-! ### Acceptance (43 R200, R201) -/

/-- 43 R201: acceptance. While idle a word whose command is not `NOP` is accepted, with exactly R201's changes (seen where the
host's next move comes before the command ends: log entry 5); `NOP` changes nothing; while running the write only sets `OVR`;
and acceptance lowers `irq`. -/
def Obligations.AcceptanceRecord : Prop :=
  (∀ (w : Word) (op : Op) (s : State), s.phase = .idle → s.hostWaits = false → opOf (decode w) = some op →
    exec (decode w) s = .next { accepted (decode w) op s with cmd := w &&& 0x0000010F } ∧
    ({ accepted (decode w) op s with cmd := w &&& 0x0000010F } : State).irq = false) ∧
  (∀ (w : Word) (s : State), s.phase = .idle → opOf (decode w) = none → exec (decode w) s = .next s) ∧
  ∀ (w : Word) (s : State), s.phase = .run → exec (decode w) s = .next { s with ovr := true }

/-- 43 R203, 30 R105: `NOP`, whatever its `S` and reserved bits, changes nothing while idle and sets `OVR` while busy. -/
def Obligations.NopDoesNothing : Prop :=
  (∀ w : Word, opField w = 0 → decode w = .nop) ∧
  (∀ s : State, s.phase = .idle → exec .nop s = .next s) ∧
  ∀ s : State, s.phase = .run → exec .nop s = .next { s with ovr := true }

/-- 10 R41, R50: every command written while busy is lost; only `OVR` changes. -/
def Obligations.BusyCommandLost : Prop :=
  ∀ (i : Instr) (s : State), s.phase = .run → exec i s = .next { s with ovr := true }

/-- 43 R200, 42 R189: `VSEL` after any accepted command is R200's choice, and with `sel` = 0 no vector operation runs: the
vector working registers and `blk_ok` stay as they were. -/
def Obligations.PathChosenByCapability : Prop :=
  ∀ (i : Instr) (s t : State), s.phase = .idle → i ≠ .nop → exec i s = .next t →
    (t.vsel = true ↔ (opOf i = some .enc ∨ opOf i = some .dec) ∧ s.hasVector = true ∧ i.forceScalar = false) ∧
    (t.vsel = false → t.vec = s.vec ∧ t.blkOk = s.blkOk)

/-- 70 R264, 60 R242: after an accepted command the host sees `BUSY` = 1, and `irq` low, or `BUSY` = 0 with `DONE` = 1, and
`irq` at `DONE_IE`. -/
def Obligations.BusyOrDoneAfterCommand : Prop :=
  ∀ (i : Instr) (s t : State), s.phase = .idle → i ≠ .nop → exec i s = .next t →
    (t.busy = true ∧ t.irq = false) ∨ (t.busy = false ∧ t.done = true ∧ t.irq = s.doneIE)

/-! ### The commands that make no memory access (43 R206 to R208) -/

/-- 43 R206, R210: `ENCLEN`, whatever `S`: the exact state it ends in, and where it overflows. -/
def Obligations.EnclenResult : Prop :=
  ∀ (S : Bool) (s : State), idleWaiting s →
    (0xBFFFFFFE ≤ s.len → exec (.enclen S) s = .next (endedInCheck (.enclen S) .enclen 6 0 0 s)) ∧
    (s.len < 0xBFFFFFFE →
      exec (.enclen S) s = .next (endedInCheck (.enclen S) .enclen 0 (BitVec.ofNat 32 (encodeLen s.len)) 0 s) ∧
      encodeLen s.len < 2 ^ 32) ∧
    selectPath .enclen S s.hasVector = false

/-- 43 R207: `DECLEN`, whatever `S` and whatever the length: the exact state it ends in. -/
def Obligations.DeclenResult : Prop :=
  ∀ (S : Bool) (s : State), idleWaiting s →
    exec (.declen S) s = .next (endedInCheck (.declen S) .declen 0 (BitVec.ofNat 32 (decodeLen s.len)) 0 s) ∧
    decodeLen s.len < 2 ^ 32 ∧ selectPath .declen S s.hasVector = false

/-- 43 R208: every reserved `OP` 0x5 to 0xF completes with `IllegalCommand`, and `CMD` reads back its word. -/
def Obligations.IllegalCompletes : Prop :=
  ∀ (i : Instr) (s : State),
    i ∈ [Instr.ill5 true, .ill5 false, .ill6 true, .ill6 false, .ill7 true, .ill7 false, .ill8 true, .ill8 false,
      .ill9 true, .ill9 false, .ill10 true, .ill10 false, .ill11 true, .ill11 false, .ill12 true, .ill12 false,
      .ill13 true, .ill13 false, .ill14 true, .ill14 false, .ill15 true, .ill15 false] →
    idleWaiting s →
    exec i s = .next (endedInCheck i .illegal 5 0 0 s) ∧ selectPath .illegal i.forceScalar s.hasVector = false

/-! ### `ENC` and `DEC` (43 R204, R205) -/

/-- 43 R204, R209 to R211; 60 R239: an `ENC` whose checks fail ends with the first error that applies; no byte is written. -/
def Obligations.EncCheckErrors : Prop :=
  ∀ (S : Bool) (s : State), idleWaiting s → ¬ encReady s →
    exec (.enc S) s = .next (
      if 2 ^ 32 - 1 < encodeLen s.len then endedInCheck (.enc S) .enc 6 0 0 s
      else if s.cap < encodeLen s.len then
        endedInCheck (.enc S) .enc 3 (BitVec.ofNat 32 (encodeLen s.len)) 0 s
      else endedInCheck (.enc S) .enc 7 0 0 s)

/-- 43 R205, R209, R212; 60 R239: an empty `DEC` succeeds whatever the other operands; one whose checks fail ends with the
first error that applies; no byte is written. -/
def Obligations.DecCheckErrors : Prop :=
  ∀ (S : Bool) (s : State), idleWaiting s → ¬ decReady s →
    exec (.dec S) s = .next (
      if s.len = 0 then endedInCheck (.dec S) .dec 0 0 0 s
      else if s.len % 4 ≠ 0 then endedInCheck (.dec S) .dec 1 0 0 s
      else if s.cap < decodeLen s.len then
        endedInCheck (.dec S) .dec 3 (BitVec.ofNat 32 (decodeLen s.len)) 0 s
      else endedInCheck (.dec S) .dec 7 0 0 s)

/-- 43 R204, R213; 20 R89; 60 R240: an `ENC` whose checks pass, on a platform that answers its transfers, completes on either
path with `RESULT` = `encode_len(n)` and exactly the encoding of the source bytes in the destination. -/
def Obligations.EncWritesEncoding : Prop :=
  ∀ (S : Bool) (s : State), idleWaiting s → encReady s → quietBus (encodeLen s.len) s →
    ∃ t, exec (.enc S) s = .next t ∧
      Completed t 0 (BitVec.ofNat 32 (encodeLen s.len)) 0 ∧
      t.cmd = encode (.enc S) ∧ t.vsel = (s.hasVector && !S) ∧ SameSetup s t ∧
      t.destBytes (encodeLen s.len) = encodeRef s.sourceBytes ∧
      SameOutside s.dst (encodeLen s.len) s t

/-- 43 R205, R213; 41 R157; 20 R89; 60 R240: a `DEC` whose checks pass, on a platform that answers its transfers and with
valid input, completes on either path with the decoded bytes in the destination; their number is `RESULT`, and the bytes
after them are unchanged. -/
def Obligations.DecWritesDecoding : Prop :=
  ∀ (S : Bool) (s : State) (bs : List Byte), idleWaiting s → decReady s → quietBus (decodeLen s.len) s →
    decodeRef s.sourceBytes = .ok bs →
    bs.length = decodeLen s.len - s.padCount.val ∧
    ∃ t, exec (.dec S) s = .next t ∧
      Completed t 0 (BitVec.ofNat 32 bs.length) 0 ∧
      t.cmd = encode (.dec S) ∧ t.vsel = (s.hasVector && !S) ∧ SameSetup s t ∧
      t.destBytes bs.length = bs ∧
      SameOutside s.dst bs.length s t

/-- 60 R233, 41 R156, 42 R187: with invalid input, and no failing transfer, `DEC` completes on either path with
`InvalidCharacter` and the least index of an invalid quartet; only bytes of the destination region can change. -/
def Obligations.DecReportsLeastQuartet : Prop :=
  ∀ (S : Bool) (s : State) (q : Nat), idleWaiting s → decReady s → quietBus (decodeLen s.len) s →
    decodeRef s.sourceBytes = .error q →
    ∃ t, exec (.dec S) s = .next t ∧
      Completed t 2 0 (BitVec.ofNat 32 q) ∧ q < s.len / 4 ∧
      t.cmd = encode (.dec S) ∧ t.vsel = (s.hasVector && !S) ∧ SameSetup s t ∧
      SameOutside s.dst (decodeLen s.len) s t

/-- 60 R235, 20 R82, R83 (the choice among them: log entry 6; combined transfers: log entry 12): an `ENC` with a failing
transfer in a region completes with `Unknown` and a failing address, or, with combined transfers, one not above it in its
region. -/
def Obligations.EncBusErrorIsUnknown : Prop :=
  ∀ (S : Bool) (s : State), idleWaiting s → encReady s → s.bus.answers = true →
    s.bus.volatile.any (fun a => inRegion s.src s.len a.toNat) = false →
    (s.bus.rdErr.any (fun a => inRegion s.src s.len a.toNat) = true ∨
      s.bus.wrErr.any (fun a => inRegion s.dst (encodeLen s.len) a.toNat) = true) →
    ∃ t, exec (.enc S) s = .next t ∧ EndsUnknown (encodeLen s.len) s t

/-- 60 R239, R235, 20 R82, R83 (both records admitted: log entry 6; combined transfers: log entry 12; the pad count where the
last characters cannot be read: log entry 29): a `DEC` with a failing transfer, of a source byte or of a byte it would write,
completes with `Unknown` and a failing address as above, or with `InvalidCharacter` and the least invalid quartet of the bytes
that can be read. -/
def Obligations.DecBusErrorOrInvalid : Prop :=
  ∀ (S : Bool) (s : State), idleWaiting s → decReady s → s.bus.answers = true →
    s.bus.volatile.any (fun a => inRegion s.src s.len a.toNat) = false →
    (s.bus.rdErr.any (fun a => inRegion s.src s.len a.toNat) = true ∨
      s.bus.wrErr.any (fun a => inRegion s.dst (decodeLen s.len - s.padCount.val) a.toNat) = true) →
    ∃ t, exec (.dec S) s = .next t ∧
      (EndsUnknown (decodeLen s.len - s.padCount.val) s t ∨
      ∃ q, Completed t 2 0 (BitVec.ofNat 32 q) ∧ q < s.len / 4 ∧
        quartetInvalid (accepted (.dec S) .dec s) q = true ∧
        ∀ q' < q, quartetInvalid (accepted (.dec S) .dec s) q' = false)

/-- 30 R101, 43 R201, 60 R240, R241; 10 R46: the frame of every command, from every idle state and whatever the outcome: the
operand registers, `IRQ_EN`, `OVR` and the rest of the setup are unchanged, and so is every byte outside the destination
region and every byte from `dst + cap` on; an instruction with no destination changes no byte. -/
def Obligations.CommandFrame : Prop :=
  ∀ (i : Instr) (s t : State), s.phase = .idle → exec i s = .next t →
    SameSetup s t ∧ SameOutside s.dst (min (writeLen i s) s.cap) s t

/-- 42 R170: the same record, and on success the same memory, on every path: whatever `S` and `P_HAS_VECTOR` are. -/
def Obligations.VectorScalarParity : Prop :=
  (∀ (s : State) (hv S S' : Bool), idleWaiting s → quietBus (encodeLen s.len) s →
    ∃ t t', exec (.enc S) s = .next t ∧ exec (.enc S') { s with hasVector := hv } = .next t' ∧
      t'.err = t.err ∧ t'.result = t.result ∧ t'.errInfo = t.errInfo ∧
      ∀ a, Mem.get t'.mem a = Mem.get t.mem a) ∧
  ∀ (s : State) (hv S S' : Bool), idleWaiting s → quietBus (decodeLen s.len) s →
    ∃ t t', exec (.dec S) s = .next t ∧ exec (.dec S') { s with hasVector := hv } = .next t' ∧
      t'.err = t.err ∧ t'.result = t.result ∧ t'.errInfo = t.errInfo ∧
      (t.err = 0 → ∀ a, Mem.get t'.mem a = Mem.get t.mem a)

/-! ### The codec as functions (spec 40, 41, 42) -/

/-- 40 R122: the tables are inverse to each other, and exactly 64 bytes are valid. -/
def Obligations.AlphabetTablesInverse : Prop :=
  (∀ c : Byte, validChar c = true → encLut ((decLut c).setWidth 6) = c ∧ (decLut c).toNat < 64) ∧
  (∀ v : Sextet, decLut (encLut v) = v.setWidth 32) ∧
  ((List.range 256).filter fun n => decide (decLut (BitVec.ofNat 8 n) < Config.badChar)).length = 64

/-- 40 R123, R124: the OR and threshold test of any group is exact. -/
def Obligations.ThresholdTestExact : Prop :=
  ∀ cs : List Byte, groupValid cs = true ↔ ∀ c ∈ cs, validChar c = true

/-- 40 R126, R127, R128: the derived tables give what the base tables give: the four characters of a group, the validity of
a quartet, and its 24-bit value. -/
def Obligations.DerivedTablesAgree : Prop :=
  (∀ x : Group,
    encLut2 (x.extractLsb' 12 12) = encLut (split24 x 1) ++ encLut (split24 x 0) ∧
    encLut2 (x.extractLsb' 0 12) = encLut (split24 x 3) ++ encLut (split24 x 2)) ∧
  ∀ c0 c1 c2 c3 : Byte,
    (groupValid [c0, c1, c2, c3] = true ↔
      decLut2 (c0 ++ c1) < Config.badChar ∧ decLut2 (c2 ++ c3) < Config.badChar) ∧
    (groupValid [c0, c1, c2, c3] = true →
      (decLut2 (c0 ++ c1) <<< 12) ||| decLut2 (c2 ++ c3) =
        (join24 (decLut c0) (decLut c1) (decLut c2) (decLut c3)).setWidth 32)

/-- 41 R142: `SPLIT24` gives the sextets most significant first, `JOIN24` undoes it, and a group's bytes are its triplet's. -/
def Obligations.SplitJoinInverse : Prop :=
  (∀ x : Group, ∀ k < 4, (split24 x k).toNat = x.toNat / 2 ^ (18 - 6 * k) % 64) ∧
  (∀ x : Group, join24 ((split24 x 0).setWidth 32) ((split24 x 1).setWidth 32) ((split24 x 2).setWidth 32)
    ((split24 x 3).setWidth 32) = x) ∧
  (∀ b0 b1 b2 : Byte, (triplet b0 b1 b2).toNat = b0.toNat * 2 ^ 16 + b1.toNat * 2 ^ 8 + b2.toNat) ∧
  ∀ b0 b1 b2 : Byte, groupBytes (triplet b0 b1 b2) = [b0, b1, b2]

/-- 41 R153: the bits that padding leaves unused are ignored: the low 2 bits of the third sextet with one pad character, the
low 4 bits of the second with two. -/
def Obligations.PaddingBitsIgnored : Prop :=
  (∀ (q : Nat) (c0 c1 c2 c2' : Byte), validChar c2 = true → validChar c2' = true →
    (decLut c2).toNat / 4 = (decLut c2').toNat / 4 →
    decodeFinal q c0 c1 c2 padChar = decodeFinal q c0 c1 c2' padChar) ∧
  ∀ (q : Nat) (c0 c1 c1' : Byte), validChar c1 = true → validChar c1' = true →
    (decLut c1).toNat / 16 = (decLut c1').toNat / 16 →
    decodeFinal q c0 c1 padChar padChar = decodeFinal q c0 c1' padChar padChar

/-- 41 R158: decoding an encoding gives the bytes back. -/
def Obligations.DecodeOfEncode : Prop := ∀ b : List Byte, decodeRef (encodeRef b) = .ok b

/-- 41 R158, R140: the length, the padding and the characters of an encoding. -/
def Obligations.EncodingShape : Prop :=
  ∀ b : List Byte,
    (encodeRef b).length = encodeLen b.length ∧
    (∀ c ∈ encodeRef b, validChar c = true ∨ c = padChar) ∧
    (encodeRef b).count padChar = (3 - b.length % 3) % 3 ∧
    (b.length % 3 = 1 → (encodeRef b).drop (encodeLen b.length - 2) = [padChar, padChar]) ∧
    (b.length % 3 = 2 → (encodeRef b).drop (encodeLen b.length - 1) = [padChar])

/-- 43 R215: the encodings of consecutive chunks, each a multiple of 3 bytes except the last, make up the whole encoding. -/
def Obligations.ChunksConcatenate : Prop :=
  ∀ chunks : List (List Byte), ∀ last : List Byte, (∀ b ∈ chunks, b.length % 3 = 0) →
    (chunks.map encodeRef).flatten ++ encodeRef last = encodeRef (chunks.flatten ++ last)

/-- 41 R156, R148: a decode error names the least quartet with an invalid character among those it tests: every character
before it is valid, and one of its own is not, a final pad character apart. -/
def Obligations.ErrorNamesLeastQuartet : Prop :=
  ∀ (cs : List Byte) (q : Nat), cs.length % 4 = 0 → decodeRef cs = .error q →
    4 * q + 4 ≤ cs.length ∧ (∀ i < 4 * q, validChar (cs.getD i 0) = true) ∧
    ∃ k < 4, validChar (cs.getD (4 * q + k) 0) = false ∧
      (4 * q + 4 = cs.length → k + (padOf (cs.getD (cs.length - 2) 0) (cs.getD (cs.length - 1) 0)).val < 4)

/-- 41 R155, 43 R215: a pad character anywhere but in the last `p` places is invalid: the decode fails at its quartet or an
earlier one. -/
def Obligations.PaddingOnlyAtTheEnd : Prop :=
  ∀ (cs : List Byte) (i : Nat), cs.length % 4 = 0 → i < cs.length → cs.getD i 0 = padChar →
    i + (padOf (cs.getD (cs.length - 2) 0) (cs.getD (cs.length - 1) 0)).val < cs.length →
    ∃ q ≤ i / 4, decodeRef cs = .error q

/-- 42 R171 to R176: the encode datapath on a 32-lane window gives the eight triplets' characters; the four lanes before and
the four after them do not matter. -/
def Obligations.EncBlockIsEightTriplets : Prop :=
  ∀ w : List Byte, w.length = 32 → encBlockChars w = encodeRef ((w.drop 4).take 24)

/-- 42 R178, R179: the classification is 0 exactly on the alphabet, so the block test is exact. -/
def Obligations.BlockValidityExact : Prop :=
  ∀ c : List Byte, blockValid c = true ↔ ∀ b ∈ c, validChar b = true

/-- 42 R180 to R184: the decode datapath on a valid 32-character block gives the eight quartets' 24 bytes. -/
def Obligations.DecBlockIsEightQuartets : Prop :=
  ∀ c : List Byte, c.length = 32 → (∀ b ∈ c, validChar b = true) →
    decBlockBytes c = (List.range 8).flatMap fun e =>
      quartetBytes (c.getD (4 * e) 0) (c.getD (4 * e + 1) 0) (c.getD (4 * e + 2) 0) (c.getD (4 * e + 3) 0)

/-! ### The engine (spec 20, 60, 70) -/

/-- 20 R89, 10 R46, 70 R274: an engine step writes no byte outside the destination region, and none from `dst + cap` on. -/
def Obligations.EngineWritesOnlyDestination : Prop :=
  ∀ s : State, Inv s → s.phase = .run → SameOutside s.dst (min s.req s.cap) s (engineStep s)

/-- 60 R240, R241: the engine step that ends an undisturbed command sets `DONE`, writes the record of a success or of one
error, and leaves `VSEL`, `OVR`, `CMD`, `IRQ_EN` and the operand registers alone; it changes a byte of memory only for
`InvalidCharacter` or `Unknown`, and then only in the destination region (how far it goes: log entry 17). -/
def Obligations.CompletionRecord : Prop :=
  ∀ s : State, s.phase = .run → s.tainted = false → (engineStep s).phase = .idle →
    ((∃ v, Completed (engineStep s) 0 v 0) ∨
      ∃ e : CmdError, Completed (engineStep s) e.code e.resultWord e.infoWord) ∧
    (engineStep s).vsel = s.vsel ∧ (engineStep s).cmd = s.cmd ∧ SameSetup s (engineStep s) ∧
    ((engineStep s).err ≠ 2 → (engineStep s).err ≠ 4 → (engineStep s).mem = s.mem) ∧
    SameOutside s.dst s.openLen s (engineStep s)

/-- 20 R90, 60 R239 (the choice: log entry 6): the last engine step of an undisturbed `ENC` or `DEC` decides over every order
its transfers may have had: success where none failed in any environment, an admitted error where one failed in all of them,
and either where one failed in some. -/
def Obligations.LastStepAdmitsEveryOrder : Prop :=
  ∀ s : State, s.phase = .run → s.stage = .finish → s.tainted = false →
    (failingAddrs s = [] → Completed (engineStep s) 0 s.outOff 0) ∧
    (mustFail s = true → ∃ d, ∃ e ∈ admittedErrors { s with draws := d },
      Completed (engineStep s) e.code e.resultWord e.infoWord) ∧
    (Completed (engineStep s) 0 s.outOff 0 ∨ ∃ d, ∃ e ∈ admittedErrors { s with draws := d },
      Completed (engineStep s) e.code e.resultWord e.infoWord)

/-- 43 R214, 70 R272: a running command of a reachable state completes after at most `SRC_LEN` + 8 engine steps, if the
memory port answers and the host waits; the buffers may have been disturbed (70 R265). -/
def Obligations.CommandCompletes : Prop :=
  ∀ s : State, Inv s → s.phase = .run → s.hostWaits = true → s.bus.answers = true →
    ∃ (k : Nat) (t : State), k ≤ s.len + 8 ∧ Sys2Proof.core.run k s = .next t ∧ t.phase = .idle ∧ t.done = true

/-- 70 R272: while the memory port does not answer, a step that needs it makes no progress; `BUSY` stays 1. -/
def Obligations.SilentPortStalls : Prop :=
  ∀ s : State, s.phase = .run → s.needsBus = true → s.bus.answers = false → engineStep s = s

/-- 70 R265 (log entry 8): another agent's write to a region of the running command disturbs it; a write elsewhere does not. -/
def Obligations.BufferWriteDisturbs : Prop :=
  ∀ (s : State) (rest : List HostMove) (a : Word) (v : Byte), s.phase = .run →
    s.inbox = { after := some 0, act := .memWrite a v } :: rest →
    ∃ t, step s = .next t ∧ Mem.get t.mem a.toNat = v ∧
      (∀ b, b ≠ a.toNat → Mem.get t.mem b = Mem.get s.mem b) ∧
      (t.tainted = true ↔ s.tainted = true ∨ s.inSource a = true ∨ s.inDest a = true) ∧
      t = { s with inbox := rest, mem := t.mem, tainted := t.tainted }

/-- 20 R90, R91, 70 R265 (log entries 6, 8 and 13): a change of the environment while a command is past its checks is
remembered with the environment before it, and disturbs the command if a source byte is volatile from now on; before the
checks are done, and while idle, only the environment changes. The step of the checks, where they pass, disturbs the command
exactly if a source byte is volatile when its processing starts. -/
def Obligations.PlatformChangeWhileBusy : Prop :=
  (∀ (s : State) (after : Option Nat) (rest : List HostMove) (b : Bus), dueNow after s →
    s.inbox = { after := after, act := .platform b } :: rest →
    (s.phase = .run → s.stage ≠ .check →
      step s = .next { s with
        inbox := rest
        bus := b
        earlier := if s.bus.answers then s.bus :: s.earlier else s.earlier
        tainted := s.tainted || b.volatile.any s.inSource }) ∧
    ((s.phase = .idle ∨ s.stage = .check) → step s = .next { s with inbox := rest, bus := b })) ∧
  ∀ s : State, s.phase = .run → s.stage = .check → PastChecks s →
    (engineStep s).phase = .run ∧ (engineStep s).stage ≠ .check ∧
    ((engineStep s).tainted = true ↔ s.tainted = true ∨ s.bus.volatile.any s.inSource = true)

/-- 70 R265 (free values: log entry 8; how far the region goes: log entry 17): the step that ends a disturbed command reports a
free code below 8, a free `RESULT` and a free `ERR_INFO`, and leaves free bytes in the destination; no other byte changes. -/
def Obligations.DisturbedCommandEndsFree : Prop :=
  ∀ s : State, s.phase = .run → s.tainted = true → (engineStep s).phase = .idle →
    ∃ d : Nat,
      Completed (engineStep s) ((Config.freeErr (d + s.openLen)).setWidth 4) (Config.freeWord (d + s.openLen))
        (Config.freeWord (d + s.openLen + 1)) ∧
      (engineStep s).err.toNat < 8 ∧
      (∀ j, j < s.openLen → Mem.get (engineStep s).mem (s.dst + j) = Config.freeByte (d + j)) ∧
      SameOutside s.dst s.openLen s (engineStep s)

/-- 70 R266 (a free value: log entry 9): a read of the destination while busy returns any value, a fresh one each time; a read
elsewhere, or while idle, returns the byte. -/
def Obligations.DestinationReadWhileBusy : Prop :=
  ∀ (s : State) (after : Option Nat) (rest : List HostMove) (a : Word), dueNow after s →
    s.inbox = { after := after, act := .memRead a } :: rest →
    (s.phase = .run → s.inDest a = true →
      step s = .next { s with
        inbox := rest
        resp := { data := (Config.freeByte s.draws).setWidth 32, err := false }
        draws := s.draws + 1 }) ∧
    ((s.phase = .idle ∨ s.inDest a = false) →
      step s = .next { s with inbox := rest, resp := { data := (Mem.get s.mem a.toNat).setWidth 32, err := false } })

/-! ### The invariant -/

/-- Every step keeps the invariant: memory canonical, `CMD` and `ERR` legal, the running command's record empty, its checks
passed and its cursors in bounds (10 R32, R37, R39, R42, R53; 43 R200, R201; 60 R231; 70 R260). -/
def Obligations.StepKeepsInvariant : Prop := ∀ s t : State, Inv s → step s = .next t → Inv t

/-- The machine right after reset meets the invariant. -/
def Obligations.ResetMeetsInvariant : Prop := Inv State.reset
end

