-- ==== Sys2Proof/Laws/State.lean ====
section
/-! SUPPORT. One lemma per field per update of the state, each true by `rfl`, so that no proof unfolds a record update. -/

namespace Sys2Proof.Machine

/-! ### `setOvr` -/

@[simp] theorem setOvr_hasVector (s : State) : (setOvr s).hasVector = s.hasVector := rfl
@[simp] theorem setOvr_regBase (s : State) : (setOvr s).regBase = s.regBase := rfl
@[simp] theorem setOvr_cmd (s : State) : (setOvr s).cmd = s.cmd := rfl
@[simp] theorem setOvr_done (s : State) : (setOvr s).done = s.done := rfl
@[simp] theorem setOvr_vsel (s : State) : (setOvr s).vsel = s.vsel := rfl
@[simp] theorem setOvr_ovr (s : State) : (setOvr s).ovr = true := rfl
@[simp] theorem setOvr_err (s : State) : (setOvr s).err = s.err := rfl
@[simp] theorem setOvr_srcAddr (s : State) : (setOvr s).srcAddr = s.srcAddr := rfl
@[simp] theorem setOvr_srcLen (s : State) : (setOvr s).srcLen = s.srcLen := rfl
@[simp] theorem setOvr_dstAddr (s : State) : (setOvr s).dstAddr = s.dstAddr := rfl
@[simp] theorem setOvr_dstCap (s : State) : (setOvr s).dstCap = s.dstCap := rfl
@[simp] theorem setOvr_result (s : State) : (setOvr s).result = s.result := rfl
@[simp] theorem setOvr_errInfo (s : State) : (setOvr s).errInfo = s.errInfo := rfl
@[simp] theorem setOvr_doneIE (s : State) : (setOvr s).doneIE = s.doneIE := rfl
@[simp] theorem setOvr_rst (s : State) : (setOvr s).rst = s.rst := rfl
@[simp] theorem setOvr_phase (s : State) : (setOvr s).phase = s.phase := rfl
@[simp] theorem setOvr_op (s : State) : (setOvr s).op = s.op := rfl
@[simp] theorem setOvr_sel (s : State) : (setOvr s).sel = s.sel := rfl
@[simp] theorem setOvr_stage (s : State) : (setOvr s).stage = s.stage := rfl
@[simp] theorem setOvr_inOff (s : State) : (setOvr s).inOff = s.inOff := rfl
@[simp] theorem setOvr_outOff (s : State) : (setOvr s).outOff = s.outOff := rfl
@[simp] theorem setOvr_qbase (s : State) : (setOvr s).qbase = s.qbase := rfl
@[simp] theorem setOvr_pad (s : State) : (setOvr s).pad = s.pad := rfl
@[simp] theorem setOvr_blkOk (s : State) : (setOvr s).blkOk = s.blkOk := rfl
@[simp] theorem setOvr_vec (s : State) : (setOvr s).vec = s.vec := rfl
@[simp] theorem setOvr_mem (s : State) : (setOvr s).mem = s.mem := rfl
@[simp] theorem setOvr_bus (s : State) : (setOvr s).bus = s.bus := rfl
@[simp] theorem setOvr_earlier (s : State) : (setOvr s).earlier = s.earlier := rfl
@[simp] theorem setOvr_inbox (s : State) : (setOvr s).inbox = s.inbox := rfl
@[simp] theorem setOvr_resp (s : State) : (setOvr s).resp = s.resp := rfl
@[simp] theorem setOvr_tainted (s : State) : (setOvr s).tainted = s.tainted := rfl
@[simp] theorem setOvr_draws (s : State) : (setOvr s).draws = s.draws := rfl

/-! ### `writeStatus` -/

@[simp] theorem writeStatus_hasVector (v : Word) (s : State) : (writeStatus v s).hasVector = s.hasVector := rfl
@[simp] theorem writeStatus_regBase (v : Word) (s : State) : (writeStatus v s).regBase = s.regBase := rfl
@[simp] theorem writeStatus_cmd (v : Word) (s : State) : (writeStatus v s).cmd = s.cmd := rfl
@[simp] theorem writeStatus_done (v : Word) (s : State) : (writeStatus v s).done = doneNext s.done (v.getLsbD 1) false := rfl
@[simp] theorem writeStatus_vsel (v : Word) (s : State) : (writeStatus v s).vsel = s.vsel := rfl
@[simp] theorem writeStatus_ovr (v : Word) (s : State) : (writeStatus v s).ovr = ovrNext s.ovr (v.getLsbD 3) := rfl
@[simp] theorem writeStatus_err (v : Word) (s : State) : (writeStatus v s).err = s.err := rfl
@[simp] theorem writeStatus_srcAddr (v : Word) (s : State) : (writeStatus v s).srcAddr = s.srcAddr := rfl
@[simp] theorem writeStatus_srcLen (v : Word) (s : State) : (writeStatus v s).srcLen = s.srcLen := rfl
@[simp] theorem writeStatus_dstAddr (v : Word) (s : State) : (writeStatus v s).dstAddr = s.dstAddr := rfl
@[simp] theorem writeStatus_dstCap (v : Word) (s : State) : (writeStatus v s).dstCap = s.dstCap := rfl
@[simp] theorem writeStatus_result (v : Word) (s : State) : (writeStatus v s).result = s.result := rfl
@[simp] theorem writeStatus_errInfo (v : Word) (s : State) : (writeStatus v s).errInfo = s.errInfo := rfl
@[simp] theorem writeStatus_doneIE (v : Word) (s : State) : (writeStatus v s).doneIE = s.doneIE := rfl
@[simp] theorem writeStatus_rst (v : Word) (s : State) : (writeStatus v s).rst = s.rst := rfl
@[simp] theorem writeStatus_phase (v : Word) (s : State) : (writeStatus v s).phase = s.phase := rfl
@[simp] theorem writeStatus_op (v : Word) (s : State) : (writeStatus v s).op = s.op := rfl
@[simp] theorem writeStatus_sel (v : Word) (s : State) : (writeStatus v s).sel = s.sel := rfl
@[simp] theorem writeStatus_stage (v : Word) (s : State) : (writeStatus v s).stage = s.stage := rfl
@[simp] theorem writeStatus_inOff (v : Word) (s : State) : (writeStatus v s).inOff = s.inOff := rfl
@[simp] theorem writeStatus_outOff (v : Word) (s : State) : (writeStatus v s).outOff = s.outOff := rfl
@[simp] theorem writeStatus_qbase (v : Word) (s : State) : (writeStatus v s).qbase = s.qbase := rfl
@[simp] theorem writeStatus_pad (v : Word) (s : State) : (writeStatus v s).pad = s.pad := rfl
@[simp] theorem writeStatus_blkOk (v : Word) (s : State) : (writeStatus v s).blkOk = s.blkOk := rfl
@[simp] theorem writeStatus_vec (v : Word) (s : State) : (writeStatus v s).vec = s.vec := rfl
@[simp] theorem writeStatus_mem (v : Word) (s : State) : (writeStatus v s).mem = s.mem := rfl
@[simp] theorem writeStatus_bus (v : Word) (s : State) : (writeStatus v s).bus = s.bus := rfl
@[simp] theorem writeStatus_earlier (v : Word) (s : State) : (writeStatus v s).earlier = s.earlier := rfl
@[simp] theorem writeStatus_inbox (v : Word) (s : State) : (writeStatus v s).inbox = s.inbox := rfl
@[simp] theorem writeStatus_resp (v : Word) (s : State) : (writeStatus v s).resp = s.resp := rfl
@[simp] theorem writeStatus_tainted (v : Word) (s : State) : (writeStatus v s).tainted = s.tainted := rfl
@[simp] theorem writeStatus_draws (v : Word) (s : State) : (writeStatus v s).draws = s.draws := rfl

/-! ### `writeIrqEn` -/

@[simp] theorem writeIrqEn_hasVector (v : Word) (s : State) : (writeIrqEn v s).hasVector = s.hasVector := rfl
@[simp] theorem writeIrqEn_regBase (v : Word) (s : State) : (writeIrqEn v s).regBase = s.regBase := rfl
@[simp] theorem writeIrqEn_cmd (v : Word) (s : State) : (writeIrqEn v s).cmd = s.cmd := rfl
@[simp] theorem writeIrqEn_done (v : Word) (s : State) : (writeIrqEn v s).done = s.done := rfl
@[simp] theorem writeIrqEn_vsel (v : Word) (s : State) : (writeIrqEn v s).vsel = s.vsel := rfl
@[simp] theorem writeIrqEn_ovr (v : Word) (s : State) : (writeIrqEn v s).ovr = s.ovr := rfl
@[simp] theorem writeIrqEn_err (v : Word) (s : State) : (writeIrqEn v s).err = s.err := rfl
@[simp] theorem writeIrqEn_srcAddr (v : Word) (s : State) : (writeIrqEn v s).srcAddr = s.srcAddr := rfl
@[simp] theorem writeIrqEn_srcLen (v : Word) (s : State) : (writeIrqEn v s).srcLen = s.srcLen := rfl
@[simp] theorem writeIrqEn_dstAddr (v : Word) (s : State) : (writeIrqEn v s).dstAddr = s.dstAddr := rfl
@[simp] theorem writeIrqEn_dstCap (v : Word) (s : State) : (writeIrqEn v s).dstCap = s.dstCap := rfl
@[simp] theorem writeIrqEn_result (v : Word) (s : State) : (writeIrqEn v s).result = s.result := rfl
@[simp] theorem writeIrqEn_errInfo (v : Word) (s : State) : (writeIrqEn v s).errInfo = s.errInfo := rfl
@[simp] theorem writeIrqEn_doneIE (v : Word) (s : State) : (writeIrqEn v s).doneIE = v.getLsbD 0 := rfl
@[simp] theorem writeIrqEn_rst (v : Word) (s : State) : (writeIrqEn v s).rst = s.rst := rfl
@[simp] theorem writeIrqEn_phase (v : Word) (s : State) : (writeIrqEn v s).phase = s.phase := rfl
@[simp] theorem writeIrqEn_op (v : Word) (s : State) : (writeIrqEn v s).op = s.op := rfl
@[simp] theorem writeIrqEn_sel (v : Word) (s : State) : (writeIrqEn v s).sel = s.sel := rfl
@[simp] theorem writeIrqEn_stage (v : Word) (s : State) : (writeIrqEn v s).stage = s.stage := rfl
@[simp] theorem writeIrqEn_inOff (v : Word) (s : State) : (writeIrqEn v s).inOff = s.inOff := rfl
@[simp] theorem writeIrqEn_outOff (v : Word) (s : State) : (writeIrqEn v s).outOff = s.outOff := rfl
@[simp] theorem writeIrqEn_qbase (v : Word) (s : State) : (writeIrqEn v s).qbase = s.qbase := rfl
@[simp] theorem writeIrqEn_pad (v : Word) (s : State) : (writeIrqEn v s).pad = s.pad := rfl
@[simp] theorem writeIrqEn_blkOk (v : Word) (s : State) : (writeIrqEn v s).blkOk = s.blkOk := rfl
@[simp] theorem writeIrqEn_vec (v : Word) (s : State) : (writeIrqEn v s).vec = s.vec := rfl
@[simp] theorem writeIrqEn_mem (v : Word) (s : State) : (writeIrqEn v s).mem = s.mem := rfl
@[simp] theorem writeIrqEn_bus (v : Word) (s : State) : (writeIrqEn v s).bus = s.bus := rfl
@[simp] theorem writeIrqEn_earlier (v : Word) (s : State) : (writeIrqEn v s).earlier = s.earlier := rfl
@[simp] theorem writeIrqEn_inbox (v : Word) (s : State) : (writeIrqEn v s).inbox = s.inbox := rfl
@[simp] theorem writeIrqEn_resp (v : Word) (s : State) : (writeIrqEn v s).resp = s.resp := rfl
@[simp] theorem writeIrqEn_tainted (v : Word) (s : State) : (writeIrqEn v s).tainted = s.tainted := rfl
@[simp] theorem writeIrqEn_draws (v : Word) (s : State) : (writeIrqEn v s).draws = s.draws := rfl

/-! ### `writeOutput` -/

@[simp] theorem writeOutput_hasVector (j : Nat) (bs : List Byte) (s : State) : (writeOutput j bs s).hasVector = s.hasVector := rfl
@[simp] theorem writeOutput_regBase (j : Nat) (bs : List Byte) (s : State) : (writeOutput j bs s).regBase = s.regBase := rfl
@[simp] theorem writeOutput_cmd (j : Nat) (bs : List Byte) (s : State) : (writeOutput j bs s).cmd = s.cmd := rfl
@[simp] theorem writeOutput_done (j : Nat) (bs : List Byte) (s : State) : (writeOutput j bs s).done = s.done := rfl
@[simp] theorem writeOutput_vsel (j : Nat) (bs : List Byte) (s : State) : (writeOutput j bs s).vsel = s.vsel := rfl
@[simp] theorem writeOutput_ovr (j : Nat) (bs : List Byte) (s : State) : (writeOutput j bs s).ovr = s.ovr := rfl
@[simp] theorem writeOutput_err (j : Nat) (bs : List Byte) (s : State) : (writeOutput j bs s).err = s.err := rfl
@[simp] theorem writeOutput_srcAddr (j : Nat) (bs : List Byte) (s : State) : (writeOutput j bs s).srcAddr = s.srcAddr := rfl
@[simp] theorem writeOutput_srcLen (j : Nat) (bs : List Byte) (s : State) : (writeOutput j bs s).srcLen = s.srcLen := rfl
@[simp] theorem writeOutput_dstAddr (j : Nat) (bs : List Byte) (s : State) : (writeOutput j bs s).dstAddr = s.dstAddr := rfl
@[simp] theorem writeOutput_dstCap (j : Nat) (bs : List Byte) (s : State) : (writeOutput j bs s).dstCap = s.dstCap := rfl
@[simp] theorem writeOutput_result (j : Nat) (bs : List Byte) (s : State) : (writeOutput j bs s).result = s.result := rfl
@[simp] theorem writeOutput_errInfo (j : Nat) (bs : List Byte) (s : State) : (writeOutput j bs s).errInfo = s.errInfo := rfl
@[simp] theorem writeOutput_doneIE (j : Nat) (bs : List Byte) (s : State) : (writeOutput j bs s).doneIE = s.doneIE := rfl
@[simp] theorem writeOutput_rst (j : Nat) (bs : List Byte) (s : State) : (writeOutput j bs s).rst = s.rst := rfl
@[simp] theorem writeOutput_phase (j : Nat) (bs : List Byte) (s : State) : (writeOutput j bs s).phase = s.phase := rfl
@[simp] theorem writeOutput_op (j : Nat) (bs : List Byte) (s : State) : (writeOutput j bs s).op = s.op := rfl
@[simp] theorem writeOutput_sel (j : Nat) (bs : List Byte) (s : State) : (writeOutput j bs s).sel = s.sel := rfl
@[simp] theorem writeOutput_stage (j : Nat) (bs : List Byte) (s : State) : (writeOutput j bs s).stage = s.stage := rfl
@[simp] theorem writeOutput_inOff (j : Nat) (bs : List Byte) (s : State) : (writeOutput j bs s).inOff = s.inOff := rfl
@[simp] theorem writeOutput_outOff (j : Nat) (bs : List Byte) (s : State) : (writeOutput j bs s).outOff = s.outOff := rfl
@[simp] theorem writeOutput_qbase (j : Nat) (bs : List Byte) (s : State) : (writeOutput j bs s).qbase = s.qbase := rfl
@[simp] theorem writeOutput_pad (j : Nat) (bs : List Byte) (s : State) : (writeOutput j bs s).pad = s.pad := rfl
@[simp] theorem writeOutput_blkOk (j : Nat) (bs : List Byte) (s : State) : (writeOutput j bs s).blkOk = s.blkOk := rfl
@[simp] theorem writeOutput_vec (j : Nat) (bs : List Byte) (s : State) : (writeOutput j bs s).vec = s.vec := rfl
@[simp] theorem writeOutput_mem (j : Nat) (bs : List Byte) (s : State) : (writeOutput j bs s).mem = storeBytes s j bs s.mem := rfl
@[simp] theorem writeOutput_bus (j : Nat) (bs : List Byte) (s : State) : (writeOutput j bs s).bus = s.bus := rfl
@[simp] theorem writeOutput_earlier (j : Nat) (bs : List Byte) (s : State) : (writeOutput j bs s).earlier = s.earlier := rfl
@[simp] theorem writeOutput_inbox (j : Nat) (bs : List Byte) (s : State) : (writeOutput j bs s).inbox = s.inbox := rfl
@[simp] theorem writeOutput_resp (j : Nat) (bs : List Byte) (s : State) : (writeOutput j bs s).resp = s.resp := rfl
@[simp] theorem writeOutput_tainted (j : Nat) (bs : List Byte) (s : State) : (writeOutput j bs s).tainted = s.tainted := rfl
@[simp] theorem writeOutput_draws (j : Nat) (bs : List Byte) (s : State) : (writeOutput j bs s).draws = s.draws := rfl

/-! ### `openDest` -/

@[simp] theorem openDest_hasVector (s : State) : (openDest s).hasVector = s.hasVector := rfl
@[simp] theorem openDest_regBase (s : State) : (openDest s).regBase = s.regBase := rfl
@[simp] theorem openDest_cmd (s : State) : (openDest s).cmd = s.cmd := rfl
@[simp] theorem openDest_done (s : State) : (openDest s).done = s.done := rfl
@[simp] theorem openDest_vsel (s : State) : (openDest s).vsel = s.vsel := rfl
@[simp] theorem openDest_ovr (s : State) : (openDest s).ovr = s.ovr := rfl
@[simp] theorem openDest_err (s : State) : (openDest s).err = s.err := rfl
@[simp] theorem openDest_srcAddr (s : State) : (openDest s).srcAddr = s.srcAddr := rfl
@[simp] theorem openDest_srcLen (s : State) : (openDest s).srcLen = s.srcLen := rfl
@[simp] theorem openDest_dstAddr (s : State) : (openDest s).dstAddr = s.dstAddr := rfl
@[simp] theorem openDest_dstCap (s : State) : (openDest s).dstCap = s.dstCap := rfl
@[simp] theorem openDest_result (s : State) : (openDest s).result = s.result := rfl
@[simp] theorem openDest_errInfo (s : State) : (openDest s).errInfo = s.errInfo := rfl
@[simp] theorem openDest_doneIE (s : State) : (openDest s).doneIE = s.doneIE := rfl
@[simp] theorem openDest_rst (s : State) : (openDest s).rst = s.rst := rfl
@[simp] theorem openDest_phase (s : State) : (openDest s).phase = s.phase := rfl
@[simp] theorem openDest_op (s : State) : (openDest s).op = s.op := rfl
@[simp] theorem openDest_sel (s : State) : (openDest s).sel = s.sel := rfl
@[simp] theorem openDest_stage (s : State) : (openDest s).stage = s.stage := rfl
@[simp] theorem openDest_inOff (s : State) : (openDest s).inOff = s.inOff := rfl
@[simp] theorem openDest_outOff (s : State) : (openDest s).outOff = s.outOff := rfl
@[simp] theorem openDest_qbase (s : State) : (openDest s).qbase = s.qbase := rfl
@[simp] theorem openDest_pad (s : State) : (openDest s).pad = s.pad := rfl
@[simp] theorem openDest_blkOk (s : State) : (openDest s).blkOk = s.blkOk := rfl
@[simp] theorem openDest_vec (s : State) : (openDest s).vec = s.vec := rfl
@[simp] theorem openDest_mem (s : State) : (openDest s).mem = storeBytes s 0 (freeBytes s.draws s.openLen) s.mem := rfl
@[simp] theorem openDest_bus (s : State) : (openDest s).bus = s.bus := rfl
@[simp] theorem openDest_earlier (s : State) : (openDest s).earlier = s.earlier := rfl
@[simp] theorem openDest_inbox (s : State) : (openDest s).inbox = s.inbox := rfl
@[simp] theorem openDest_resp (s : State) : (openDest s).resp = s.resp := rfl
@[simp] theorem openDest_tainted (s : State) : (openDest s).tainted = s.tainted := rfl
@[simp] theorem openDest_draws (s : State) : (openDest s).draws = s.draws + s.openLen := rfl

/-! ### `record` -/

@[simp] theorem record_hasVector (c : BitVec 4) (v i : Word) (s : State) : (record c v i s).hasVector = s.hasVector := rfl
@[simp] theorem record_regBase (c : BitVec 4) (v i : Word) (s : State) : (record c v i s).regBase = s.regBase := rfl
@[simp] theorem record_cmd (c : BitVec 4) (v i : Word) (s : State) : (record c v i s).cmd = s.cmd := rfl
@[simp] theorem record_done (c : BitVec 4) (v i : Word) (s : State) : (record c v i s).done = true := rfl
@[simp] theorem record_vsel (c : BitVec 4) (v i : Word) (s : State) : (record c v i s).vsel = s.vsel := rfl
@[simp] theorem record_ovr (c : BitVec 4) (v i : Word) (s : State) : (record c v i s).ovr = s.ovr := rfl
@[simp] theorem record_err (c : BitVec 4) (v i : Word) (s : State) : (record c v i s).err = c := rfl
@[simp] theorem record_srcAddr (c : BitVec 4) (v i : Word) (s : State) : (record c v i s).srcAddr = s.srcAddr := rfl
@[simp] theorem record_srcLen (c : BitVec 4) (v i : Word) (s : State) : (record c v i s).srcLen = s.srcLen := rfl
@[simp] theorem record_dstAddr (c : BitVec 4) (v i : Word) (s : State) : (record c v i s).dstAddr = s.dstAddr := rfl
@[simp] theorem record_dstCap (c : BitVec 4) (v i : Word) (s : State) : (record c v i s).dstCap = s.dstCap := rfl
@[simp] theorem record_result (c : BitVec 4) (v i : Word) (s : State) : (record c v i s).result = v := rfl
@[simp] theorem record_errInfo (c : BitVec 4) (v i : Word) (s : State) : (record c v i s).errInfo = i := rfl
@[simp] theorem record_doneIE (c : BitVec 4) (v i : Word) (s : State) : (record c v i s).doneIE = s.doneIE := rfl
@[simp] theorem record_rst (c : BitVec 4) (v i : Word) (s : State) : (record c v i s).rst = s.rst := rfl
@[simp] theorem record_phase (c : BitVec 4) (v i : Word) (s : State) : (record c v i s).phase = .idle := rfl
@[simp] theorem record_op (c : BitVec 4) (v i : Word) (s : State) : (record c v i s).op = s.op := rfl
@[simp] theorem record_sel (c : BitVec 4) (v i : Word) (s : State) : (record c v i s).sel = s.sel := rfl
@[simp] theorem record_stage (c : BitVec 4) (v i : Word) (s : State) : (record c v i s).stage = s.stage := rfl
@[simp] theorem record_inOff (c : BitVec 4) (v i : Word) (s : State) : (record c v i s).inOff = s.inOff := rfl
@[simp] theorem record_outOff (c : BitVec 4) (v i : Word) (s : State) : (record c v i s).outOff = s.outOff := rfl
@[simp] theorem record_qbase (c : BitVec 4) (v i : Word) (s : State) : (record c v i s).qbase = s.qbase := rfl
@[simp] theorem record_pad (c : BitVec 4) (v i : Word) (s : State) : (record c v i s).pad = s.pad := rfl
@[simp] theorem record_blkOk (c : BitVec 4) (v i : Word) (s : State) : (record c v i s).blkOk = s.blkOk := rfl
@[simp] theorem record_vec (c : BitVec 4) (v i : Word) (s : State) : (record c v i s).vec = s.vec := rfl
@[simp] theorem record_mem (c : BitVec 4) (v i : Word) (s : State) : (record c v i s).mem = s.mem := rfl
@[simp] theorem record_bus (c : BitVec 4) (v i : Word) (s : State) : (record c v i s).bus = s.bus := rfl
@[simp] theorem record_earlier (c : BitVec 4) (v i : Word) (s : State) : (record c v i s).earlier = s.earlier := rfl
@[simp] theorem record_inbox (c : BitVec 4) (v i : Word) (s : State) : (record c v i s).inbox = s.inbox := rfl
@[simp] theorem record_resp (c : BitVec 4) (v i : Word) (s : State) : (record c v i s).resp = s.resp := rfl
@[simp] theorem record_tainted (c : BitVec 4) (v i : Word) (s : State) : (record c v i s).tainted = s.tainted := rfl
@[simp] theorem record_draws (c : BitVec 4) (v i : Word) (s : State) : (record c v i s).draws = s.draws := rfl

/-! ### `accept` -/

@[simp] theorem accept_hasVector (w : Word) (o : Op) (S : Bool) (s : State) : (accept w o S s).hasVector = s.hasVector := rfl
@[simp] theorem accept_regBase (w : Word) (o : Op) (S : Bool) (s : State) : (accept w o S s).regBase = s.regBase := rfl
@[simp] theorem accept_cmd (w : Word) (o : Op) (S : Bool) (s : State) : (accept w o S s).cmd = w &&& 0x0000010F := rfl
@[simp] theorem accept_done (w : Word) (o : Op) (S : Bool) (s : State) : (accept w o S s).done = false := rfl
@[simp] theorem accept_vsel (w : Word) (o : Op) (S : Bool) (s : State) : (accept w o S s).vsel = selectPath o S s.hasVector := rfl
@[simp] theorem accept_ovr (w : Word) (o : Op) (S : Bool) (s : State) : (accept w o S s).ovr = s.ovr := rfl
@[simp] theorem accept_err (w : Word) (o : Op) (S : Bool) (s : State) : (accept w o S s).err = 0 := rfl
@[simp] theorem accept_srcAddr (w : Word) (o : Op) (S : Bool) (s : State) : (accept w o S s).srcAddr = s.srcAddr := rfl
@[simp] theorem accept_srcLen (w : Word) (o : Op) (S : Bool) (s : State) : (accept w o S s).srcLen = s.srcLen := rfl
@[simp] theorem accept_dstAddr (w : Word) (o : Op) (S : Bool) (s : State) : (accept w o S s).dstAddr = s.dstAddr := rfl
@[simp] theorem accept_dstCap (w : Word) (o : Op) (S : Bool) (s : State) : (accept w o S s).dstCap = s.dstCap := rfl
@[simp] theorem accept_result (w : Word) (o : Op) (S : Bool) (s : State) : (accept w o S s).result = 0 := rfl
@[simp] theorem accept_errInfo (w : Word) (o : Op) (S : Bool) (s : State) : (accept w o S s).errInfo = 0 := rfl
@[simp] theorem accept_doneIE (w : Word) (o : Op) (S : Bool) (s : State) : (accept w o S s).doneIE = s.doneIE := rfl
@[simp] theorem accept_rst (w : Word) (o : Op) (S : Bool) (s : State) : (accept w o S s).rst = s.rst := rfl
@[simp] theorem accept_phase (w : Word) (o : Op) (S : Bool) (s : State) : (accept w o S s).phase = .run := rfl
@[simp] theorem accept_op (w : Word) (o : Op) (S : Bool) (s : State) : (accept w o S s).op = o := rfl
@[simp] theorem accept_sel (w : Word) (o : Op) (S : Bool) (s : State) : (accept w o S s).sel = selectPath o S s.hasVector := rfl
@[simp] theorem accept_stage (w : Word) (o : Op) (S : Bool) (s : State) : (accept w o S s).stage = .check := rfl
@[simp] theorem accept_inOff (w : Word) (o : Op) (S : Bool) (s : State) : (accept w o S s).inOff = 0 := rfl
@[simp] theorem accept_outOff (w : Word) (o : Op) (S : Bool) (s : State) : (accept w o S s).outOff = 0 := rfl
@[simp] theorem accept_qbase (w : Word) (o : Op) (S : Bool) (s : State) : (accept w o S s).qbase = s.qbase := rfl
@[simp] theorem accept_pad (w : Word) (o : Op) (S : Bool) (s : State) : (accept w o S s).pad = s.pad := rfl
@[simp] theorem accept_blkOk (w : Word) (o : Op) (S : Bool) (s : State) : (accept w o S s).blkOk = s.blkOk := rfl
@[simp] theorem accept_vec (w : Word) (o : Op) (S : Bool) (s : State) : (accept w o S s).vec = s.vec := rfl
@[simp] theorem accept_mem (w : Word) (o : Op) (S : Bool) (s : State) : (accept w o S s).mem = s.mem := rfl
@[simp] theorem accept_bus (w : Word) (o : Op) (S : Bool) (s : State) : (accept w o S s).bus = s.bus := rfl
@[simp] theorem accept_earlier (w : Word) (o : Op) (S : Bool) (s : State) : (accept w o S s).earlier = [] := rfl
@[simp] theorem accept_inbox (w : Word) (o : Op) (S : Bool) (s : State) : (accept w o S s).inbox = s.inbox := rfl
@[simp] theorem accept_resp (w : Word) (o : Op) (S : Bool) (s : State) : (accept w o S s).resp = s.resp := rfl
@[simp] theorem accept_tainted (w : Word) (o : Op) (S : Bool) (s : State) : (accept w o S s).tainted = false := rfl
@[simp] theorem accept_draws (w : Word) (o : Op) (S : Bool) (s : State) : (accept w o S s).draws = s.draws := rfl

/-! ### `advance` -/

@[simp] theorem advance_hasVector (k l : Nat) (s : State) : (advance k l s).hasVector = s.hasVector := rfl
@[simp] theorem advance_regBase (k l : Nat) (s : State) : (advance k l s).regBase = s.regBase := rfl
@[simp] theorem advance_cmd (k l : Nat) (s : State) : (advance k l s).cmd = s.cmd := rfl
@[simp] theorem advance_done (k l : Nat) (s : State) : (advance k l s).done = s.done := rfl
@[simp] theorem advance_vsel (k l : Nat) (s : State) : (advance k l s).vsel = s.vsel := rfl
@[simp] theorem advance_ovr (k l : Nat) (s : State) : (advance k l s).ovr = s.ovr := rfl
@[simp] theorem advance_err (k l : Nat) (s : State) : (advance k l s).err = s.err := rfl
@[simp] theorem advance_srcAddr (k l : Nat) (s : State) : (advance k l s).srcAddr = s.srcAddr := rfl
@[simp] theorem advance_srcLen (k l : Nat) (s : State) : (advance k l s).srcLen = s.srcLen := rfl
@[simp] theorem advance_dstAddr (k l : Nat) (s : State) : (advance k l s).dstAddr = s.dstAddr := rfl
@[simp] theorem advance_dstCap (k l : Nat) (s : State) : (advance k l s).dstCap = s.dstCap := rfl
@[simp] theorem advance_result (k l : Nat) (s : State) : (advance k l s).result = s.result := rfl
@[simp] theorem advance_errInfo (k l : Nat) (s : State) : (advance k l s).errInfo = s.errInfo := rfl
@[simp] theorem advance_doneIE (k l : Nat) (s : State) : (advance k l s).doneIE = s.doneIE := rfl
@[simp] theorem advance_rst (k l : Nat) (s : State) : (advance k l s).rst = s.rst := rfl
@[simp] theorem advance_phase (k l : Nat) (s : State) : (advance k l s).phase = s.phase := rfl
@[simp] theorem advance_op (k l : Nat) (s : State) : (advance k l s).op = s.op := rfl
@[simp] theorem advance_sel (k l : Nat) (s : State) : (advance k l s).sel = s.sel := rfl
@[simp] theorem advance_stage (k l : Nat) (s : State) : (advance k l s).stage = s.stage := rfl
@[simp] theorem advance_inOff (k l : Nat) (s : State) : (advance k l s).inOff = s.inOff + BitVec.ofNat 32 k := rfl
@[simp] theorem advance_outOff (k l : Nat) (s : State) : (advance k l s).outOff = s.outOff + BitVec.ofNat 32 l := rfl
@[simp] theorem advance_qbase (k l : Nat) (s : State) : (advance k l s).qbase = s.qbase := rfl
@[simp] theorem advance_pad (k l : Nat) (s : State) : (advance k l s).pad = s.pad := rfl
@[simp] theorem advance_blkOk (k l : Nat) (s : State) : (advance k l s).blkOk = s.blkOk := rfl
@[simp] theorem advance_vec (k l : Nat) (s : State) : (advance k l s).vec = s.vec := rfl
@[simp] theorem advance_mem (k l : Nat) (s : State) : (advance k l s).mem = s.mem := rfl
@[simp] theorem advance_bus (k l : Nat) (s : State) : (advance k l s).bus = s.bus := rfl
@[simp] theorem advance_earlier (k l : Nat) (s : State) : (advance k l s).earlier = s.earlier := rfl
@[simp] theorem advance_inbox (k l : Nat) (s : State) : (advance k l s).inbox = s.inbox := rfl
@[simp] theorem advance_resp (k l : Nat) (s : State) : (advance k l s).resp = s.resp := rfl
@[simp] theorem advance_tainted (k l : Nat) (s : State) : (advance k l s).tainted = s.tainted := rfl
@[simp] theorem advance_draws (k l : Nat) (s : State) : (advance k l s).draws = s.draws := rfl

/-! ### `answer` -/

@[simp] theorem answer_hasVector (d : Word) (e : Bool) (s : State) : (answer d e s).hasVector = s.hasVector := rfl
@[simp] theorem answer_regBase (d : Word) (e : Bool) (s : State) : (answer d e s).regBase = s.regBase := rfl
@[simp] theorem answer_cmd (d : Word) (e : Bool) (s : State) : (answer d e s).cmd = s.cmd := rfl
@[simp] theorem answer_done (d : Word) (e : Bool) (s : State) : (answer d e s).done = s.done := rfl
@[simp] theorem answer_vsel (d : Word) (e : Bool) (s : State) : (answer d e s).vsel = s.vsel := rfl
@[simp] theorem answer_ovr (d : Word) (e : Bool) (s : State) : (answer d e s).ovr = s.ovr := rfl
@[simp] theorem answer_err (d : Word) (e : Bool) (s : State) : (answer d e s).err = s.err := rfl
@[simp] theorem answer_srcAddr (d : Word) (e : Bool) (s : State) : (answer d e s).srcAddr = s.srcAddr := rfl
@[simp] theorem answer_srcLen (d : Word) (e : Bool) (s : State) : (answer d e s).srcLen = s.srcLen := rfl
@[simp] theorem answer_dstAddr (d : Word) (e : Bool) (s : State) : (answer d e s).dstAddr = s.dstAddr := rfl
@[simp] theorem answer_dstCap (d : Word) (e : Bool) (s : State) : (answer d e s).dstCap = s.dstCap := rfl
@[simp] theorem answer_result (d : Word) (e : Bool) (s : State) : (answer d e s).result = s.result := rfl
@[simp] theorem answer_errInfo (d : Word) (e : Bool) (s : State) : (answer d e s).errInfo = s.errInfo := rfl
@[simp] theorem answer_doneIE (d : Word) (e : Bool) (s : State) : (answer d e s).doneIE = s.doneIE := rfl
@[simp] theorem answer_rst (d : Word) (e : Bool) (s : State) : (answer d e s).rst = s.rst := rfl
@[simp] theorem answer_phase (d : Word) (e : Bool) (s : State) : (answer d e s).phase = s.phase := rfl
@[simp] theorem answer_op (d : Word) (e : Bool) (s : State) : (answer d e s).op = s.op := rfl
@[simp] theorem answer_sel (d : Word) (e : Bool) (s : State) : (answer d e s).sel = s.sel := rfl
@[simp] theorem answer_stage (d : Word) (e : Bool) (s : State) : (answer d e s).stage = s.stage := rfl
@[simp] theorem answer_inOff (d : Word) (e : Bool) (s : State) : (answer d e s).inOff = s.inOff := rfl
@[simp] theorem answer_outOff (d : Word) (e : Bool) (s : State) : (answer d e s).outOff = s.outOff := rfl
@[simp] theorem answer_qbase (d : Word) (e : Bool) (s : State) : (answer d e s).qbase = s.qbase := rfl
@[simp] theorem answer_pad (d : Word) (e : Bool) (s : State) : (answer d e s).pad = s.pad := rfl
@[simp] theorem answer_blkOk (d : Word) (e : Bool) (s : State) : (answer d e s).blkOk = s.blkOk := rfl
@[simp] theorem answer_vec (d : Word) (e : Bool) (s : State) : (answer d e s).vec = s.vec := rfl
@[simp] theorem answer_mem (d : Word) (e : Bool) (s : State) : (answer d e s).mem = s.mem := rfl
@[simp] theorem answer_bus (d : Word) (e : Bool) (s : State) : (answer d e s).bus = s.bus := rfl
@[simp] theorem answer_earlier (d : Word) (e : Bool) (s : State) : (answer d e s).earlier = s.earlier := rfl
@[simp] theorem answer_inbox (d : Word) (e : Bool) (s : State) : (answer d e s).inbox = s.inbox := rfl
@[simp] theorem answer_resp (d : Word) (e : Bool) (s : State) : (answer d e s).resp = { data := d, err := e } := rfl
@[simp] theorem answer_tainted (d : Word) (e : Bool) (s : State) : (answer d e s).tainted = s.tainted := rfl
@[simp] theorem answer_draws (d : Word) (e : Bool) (s : State) : (answer d e s).draws = s.draws := rfl

end Sys2Proof.Machine
end

