-- ==== Sys2Proof/Laws/Mem.lean ====
section
/-! SUPPORT. Memory: a read after a write, and that every memory operation keeps the canonical form. -/

namespace Sys2Proof.Machine

theorem get_insert_self (m : List Host.Cell) (a : Nat) (v : Byte) : Mem.get (Mem.insert m a v) a = v := by
  induction m with
  | nil => simp [Mem.insert, Mem.get]
  | cons c rest ih =>
    obtain ⟨b, w⟩ := c
    unfold Mem.insert
    split
    · simp [Mem.get]
    · split
      · simp [Mem.get]
      · rename_i h1 h2
        simp [Mem.get, ih, Ne.symm h2]

theorem get_insert_ne (m : List Host.Cell) {a b : Nat} (v : Byte) (h : b ≠ a) :
    Mem.get (Mem.insert m a v) b = Mem.get m b := by
  induction m with
  | nil => simp [Mem.insert, Mem.get, h.symm]
  | cons c rest ih =>
    obtain ⟨b', w⟩ := c
    unfold Mem.insert
    split
    · simp [Mem.get, h.symm]
    · split
      · rename_i h1 h2
        subst h2
        simp [Mem.get, h.symm]
      · simp [Mem.get, ih]

theorem get_filter_self (m : List Host.Cell) (a : Nat) :
    Mem.get (m.filter fun c => c.1 != a) a = memDefault := by
  induction m with
  | nil => rfl
  | cons c rest ih =>
    obtain ⟨b, w⟩ := c
    by_cases h : b = a <;> simp_all [Mem.get]

theorem get_filter_ne (m : List Host.Cell) {a b : Nat} (h : b ≠ a) :
    Mem.get (m.filter fun c => c.1 != a) b = Mem.get m b := by
  induction m with
  | nil => rfl
  | cons c rest ih =>
    obtain ⟨b', w⟩ := c
    by_cases h' : b' = a
    · subst h'
      simp_all [Mem.get, Ne.symm h]
    · simp_all [Mem.get]

/-- A read after a write to the same address gives the value written. -/
@[simp] theorem get_set_self (m : List Host.Cell) (a : Nat) (v : Byte) : Mem.get (Mem.set m a v) a = v := by
  unfold Mem.set
  split
  · rename_i h
    rw [get_filter_self, h]
  · exact get_insert_self m a v

/-- A write leaves every other address alone. -/
theorem get_set_ne (m : List Host.Cell) {a b : Nat} (v : Byte) (h : b ≠ a) :
    Mem.get (Mem.set m a v) b = Mem.get m b := by
  unfold Mem.set
  split
  · exact get_filter_ne m h
  · exact get_insert_ne m v h

theorem mem_insert_cases {m : List Host.Cell} {a : Nat} {v : Byte} {c : Host.Cell} (h : c ∈ Mem.insert m a v) :
    c = (a, v) ∨ c ∈ m := by
  induction m with
  | nil => simpa [Mem.insert] using h
  | cons d rest ih =>
    obtain ⟨b, w⟩ := d
    unfold Mem.insert at h
    split at h
    · simpa using h
    · split at h
      · simp only [List.mem_cons] at h ⊢
        tauto
      · simp only [List.mem_cons] at h ⊢
        rcases h with h | h
        · exact .inr (.inl h)
        · rcases ih h with h | h <;> tauto

theorem pairwise_insert {m : List Host.Cell} (hm : m.Pairwise fun c d => c.1 < d.1) (a : Nat) (v : Byte) :
    (Mem.insert m a v).Pairwise fun c d => c.1 < d.1 := by
  induction m with
  | nil => simp [Mem.insert]
  | cons d rest ih =>
    obtain ⟨b, w⟩ := d
    rw [List.pairwise_cons] at hm
    unfold Mem.insert
    split
    · rename_i hab
      rw [List.pairwise_cons, List.pairwise_cons]
      refine ⟨fun c hc => ?_, hm.1, hm.2⟩
      rcases List.mem_cons.1 hc with rfl | hc
      · exact hab
      · exact lt_trans hab (hm.1 c hc)
    · split
      · rename_i hab
        subst hab
        rw [List.pairwise_cons]
        exact ⟨hm.1, hm.2⟩
      · rename_i h1 h2
        rw [List.pairwise_cons]
        refine ⟨fun c hc => ?_, ih hm.2⟩
        rcases mem_insert_cases hc with rfl | hc
        · change b < a
          omega
        · exact hm.1 c hc

/-- A write keeps the canonical form. -/
theorem wf_set {m : List Host.Cell} (h : Mem.wf m) {a : Nat} (ha : a < Config.addrSpace) (v : Byte) :
    Mem.wf (Mem.set m a v) := by
  unfold Mem.set
  split
  · exact ⟨h.1.filter _, fun c hc => h.2 c (List.mem_filter.1 hc).1⟩
  · rename_i hv
    refine ⟨pairwise_insert h.1 a v, fun c hc => ?_⟩
    rcases mem_insert_cases hc with rfl | hc
    · exact ⟨ha, hv⟩
    · exact h.2 c hc

/-- Storing bytes keeps the canonical form. -/
theorem wf_storeBytes {m : List Host.Cell} (h : Mem.wf m) (s : State) (j : Nat) (bs : List Byte) :
    Mem.wf (storeBytes s j bs m) := by
  induction bs generalizing j m with
  | nil => exact h
  | cons b bs ih => exact ih (wf_set h (s.dstAt j).isLt b) (j + 1)

theorem wf_reset : Mem.wf State.reset.mem := by decide

/-- Output offset `j` stands at `dst + j` while it stays in the address space. -/
theorem toNat_dstAt (s : State) {j : Nat} (h : s.dst + j < Config.addrSpace) : (s.dstAt j).toNat = s.dst + j := by
  unfold State.dstAt
  rw [BitVec.toNat_add, BitVec.toNat_ofNat]
  change (s.dst + j % 2 ^ 32) % 2 ^ 32 = s.dst + j
  unfold Config.addrSpace at h
  omega

/-- Input offset `i` stands at `src + i` while it stays in the address space. -/
theorem toNat_srcAt (s : State) {i : Nat} (h : s.src + i < Config.addrSpace) : (s.srcAt i).toNat = s.src + i := by
  unfold State.srcAt
  rw [BitVec.toNat_add, BitVec.toNat_ofNat]
  change (s.src + i % 2 ^ 32) % 2 ^ 32 = s.src + i
  unfold Config.addrSpace at h
  omega

/-- Stored bytes leave every address outside them alone. -/
theorem get_storeBytes_outside (s : State) {j : Nat} {bs : List Byte} (m : List Host.Cell) {a : Nat}
    (h : s.dst + j + bs.length ≤ Config.addrSpace) (ha : a < s.dst + j ∨ s.dst + j + bs.length ≤ a) :
    Mem.get (storeBytes s j bs m) a = Mem.get m a := by
  induction bs generalizing j m with
  | nil => rfl
  | cons b bs ih =>
    simp only [List.length_cons] at h ha
    unfold storeBytes
    rw [ih (Mem.set m (s.dstAt j).toNat b) (by omega) (by omega)]
    refine get_set_ne m b ?_
    rw [toNat_dstAt s (by omega)]
    omega

/-- Stored bytes read back, each at its offset. -/
theorem get_storeBytes_inside (s : State) {j : Nat} {bs : List Byte} (m : List Host.Cell) {k : Nat}
    (h : s.dst + j + bs.length ≤ Config.addrSpace) (hk : k < bs.length) :
    Mem.get (storeBytes s j bs m) (s.dst + j + k) = bs[k] := by
  induction bs generalizing j m k with
  | nil => exact absurd hk (Nat.not_lt_zero k)
  | cons b bs ih =>
    simp only [List.length_cons] at h hk
    unfold storeBytes
    cases k with
    | zero =>
      rw [get_storeBytes_outside s _ (by omega) (by omega)]
      have := toNat_dstAt s (j := j) (by omega)
      simp [← this]
    | succ k =>
      have := ih (j := j + 1) (Mem.set m (s.dstAt j).toNat b) (k := k) (by omega) (by omega)
      rw [show s.dst + j + (k + 1) = s.dst + (j + 1) + k by omega, this]
      rfl

end Sys2Proof.Machine
end

