-- ==== Sys2Proof/Laws/Setup.lean ====
section
/-! SUPPORT. What every shared operation leaves alone: one `SameSetup` lemma per operation, up to a command's whole run. -/

namespace Sys2Proof.Safety

open Sys2Proof.Machine

theorem SameSetup.rfl' (s : State) : SameSetup s s := by constructor <;> rfl

theorem SameSetup.trans {s t u : State} (h : SameSetup s t) (k : SameSetup t u) : SameSetup s u where
  hasVector := k.hasVector.trans h.hasVector
  regBase := k.regBase.trans h.regBase
  srcAddr := k.srcAddr.trans h.srcAddr
  srcLen := k.srcLen.trans h.srcLen
  dstAddr := k.dstAddr.trans h.dstAddr
  dstCap := k.dstCap.trans h.dstCap
  doneIE := k.doneIE.trans h.doneIE
  ovr := k.ovr.trans h.ovr
  rst := k.rst.trans h.rst
  bus := k.bus.trans h.bus
  inbox := k.inbox.trans h.inbox
  resp := k.resp.trans h.resp

theorem sameSetup_openDest (s : State) : SameSetup s (openDest s) := by constructor <;> rfl

theorem sameSetup_record (c : BitVec 4) (v i : Word) (s : State) : SameSetup s (record c v i s) := by constructor <;> rfl

theorem sameSetup_accept (w : Word) (o : Op) (S : Bool) (s : State) : SameSetup s (accept w o S s) := by
  constructor <;> rfl

theorem sameSetup_advance (k l : Nat) (s : State) : SameSetup s (advance k l s) := by constructor <;> rfl

theorem sameSetup_writeOutput (j : Nat) (bs : List Byte) (s : State) : SameSetup s (writeOutput j bs s) := by
  constructor <;> rfl

theorem sameSetup_recordAny (s : State) : SameSetup s (recordAny s) := by constructor <;> rfl

theorem sameSetup_endCommand (c : BitVec 4) (v i : Word) (s : State) : SameSetup s (endCommand c v i s) := by
  unfold endCommand
  split
  · exact sameSetup_recordAny s
  · exact sameSetup_record c v i s

theorem sameSetup_complete (v : Word) (s : State) : SameSetup s (complete v s) := sameSetup_endCommand 0 v 0 s

theorem sameSetup_raise (e : CmdError) (s : State) : SameSetup s (raise e s) := by
  unfold raise
  refine SameSetup.trans ?_ (sameSetup_endCommand _ _ _ _)
  split
  · exact sameSetup_openDest s
  · exact .rfl' s

theorem sameSetup_draws (d : Nat) (s : State) : SameSetup s { s with draws := d } := by constructor <;> rfl

theorem sameSetup_raiseAdmitted (e : CmdError) (s : State) : SameSetup s (raiseAdmitted e s) :=
  (sameSetup_draws (s.draws + 2) s).trans (sameSetup_raise _ _)

theorem sameSetup_raiseUnknown (a : Word) (s : State) : SameSetup s (raiseUnknown a s) := sameSetup_raiseAdmitted _ s

theorem sameSetup_raiseInvalid (q : Nat) (s : State) : SameSetup s (raiseInvalid q s) := by
  unfold raiseInvalid
  split
  · exact sameSetup_raise _ s
  · exact sameSetup_raiseAdmitted _ s

theorem sameSetup_emit (k : Nat) (bs : List Byte) (s : State) : SameSetup s (emit k bs s) :=
  (sameSetup_writeOutput _ bs s).trans (sameSetup_advance k _ _)

/-- With no error response the step is what it would do. -/
theorem meetError_none (go : State → State) (s : State) : meetError none go s = go s := rfl

/-- Everything an error response can do to a step. -/
theorem meetError_cases (e : Option Word) (go : State → State) (s : State) :
    (∃ a, e = some a ∧ meetError e go s = raiseUnknown a { s with draws := s.draws + 1 }) ∨
    ∃ d, meetError e go s = go { s with draws := d } := by
  cases e with
  | none => exact .inr ⟨s.draws, rfl⟩
  | some a =>
    by_cases h : (sameThroughout s || Config.freeChoice s.draws % 2 == 0) = true
    · exact .inl ⟨a, rfl, if_pos h⟩
    · exact .inr ⟨s.draws + 1, if_neg h⟩

/-- Where the environment stays the same, an error response ends the command. -/
theorem meetError_same {a : Word} {s : State} (h : sameThroughout s = true) (go : State → State) :
    meetError (some a) go s = raiseUnknown a { s with draws := s.draws + 1 } := by
  simp [meetError, h]

/-- A choice among admitted outcomes is one of them. -/
theorem pick_mem {α : Type} {cs : List α} (h : cs ≠ []) (c : α) (d : Nat) : pick c cs d ∈ cs := by
  match cs with
  | [] => exact absurd rfl h
  | [a] => exact List.mem_cons_self
  | a :: b :: rest =>
    have hl : Config.freeChoice d % (rest.length + 2) < (a :: b :: rest).length := by
      simp only [List.length_cons]
      exact Nat.mod_lt _ (by omega)
    change (a :: b :: rest).getD (Config.freeChoice d % (rest.length + 2)) a ∈ _
    rw [List.getD_eq_getElem _ _ hl]
    exact List.getElem_mem hl

theorem sameSetup_meetError {go : State → State} (h : ∀ u, SameSetup u (go u)) (e : Option Word) (s : State) :
    SameSetup s (meetError e go s) := by
  rcases meetError_cases e go s with ⟨a, -, he⟩ | ⟨d, he⟩
  · rw [he]
    exact (sameSetup_draws _ s).trans (sameSetup_raiseUnknown a _)
  · rw [he]
    exact (sameSetup_draws d s).trans (h _)

/-- Everything the end of the input can do: success, or an admitted error. -/
theorem settle_cases (s : State) :
    (∃ d, mustFail s = false ∧ settle s = complete s.outOff { s with draws := d }) ∨
    ∃ a ∈ failingAddrs s, settle s = raiseUnknown a { s with draws := s.draws + 1 } := by
  unfold settle
  cases hf : failingAddrs s with
  | nil =>
    refine .inl ⟨s.draws, ?_, rfl⟩
    obtain ⟨h1, h2⟩ := List.append_eq_nil_iff.1 hf
    simp [mustFail, h1, h2]
  | cons a rest =>
    simp only
    split
    · exact .inr ⟨a, List.mem_cons_self, rfl⟩
    · rename_i h
      exact .inl ⟨s.draws + 1, by cases hm : mustFail s <;> simp_all, rfl⟩

theorem sameSetup_settle (s : State) : SameSetup s (settle s) := by
  rcases settle_cases s with ⟨d, -, e⟩ | ⟨a, -, e⟩ <;> rw [e]
  · exact (sameSetup_draws d s).trans (sameSetup_complete _ _)
  · exact (sameSetup_draws _ s).trans (sameSetup_raiseUnknown a _)

theorem sameSetup_goTo {s t : State} (g : Stage) (h : SameSetup s t) : SameSetup s (goTo g t) := by
  unfold goTo
  split
  · exact h.trans (by constructor <;> rfl)
  · exact h

theorem sameSetup_unit (k : Nat) (bs : List Byte) (s : State) : SameSetup s (unit k bs s) :=
  sameSetup_meetError (sameSetup_emit k bs) _ s

theorem sameSetup_decUnit (k : Nat) (cs bs : List Byte) (s : State) : SameSetup s (decUnit k cs bs s) := by
  refine sameSetup_meetError (fun u => ?_) _ s
  split
  · exact sameSetup_meetError (sameSetup_emit k bs) _ u
  · exact sameSetup_raiseInvalid _ u

theorem sameSetup_scalarEncStep (s : State) : SameSetup s (scalarEncStep s) := by
  unfold scalarEncStep
  split
  · exact sameSetup_unit _ _ s
  · split
    · exact sameSetup_goTo _ (sameSetup_unit _ _ s)
    · split
      · exact sameSetup_goTo _ (sameSetup_unit _ _ s)
      · exact sameSetup_goTo _ (.rfl' s)

theorem sameSetup_decFinal (s : State) : SameSetup s (decFinal s) := by
  refine SameSetup.trans (t := { s with pad := s.padCount }) (by constructor <;> rfl) ?_
  unfold decFinal
  simp only
  split <;> exact sameSetup_decUnit _ _ _ _

theorem sameSetup_scalarDecStep (s : State) : SameSetup s (scalarDecStep s) := by
  unfold scalarDecStep
  split
  · exact sameSetup_decUnit _ _ _ s
  · exact sameSetup_goTo _ (sameSetup_decFinal s)

theorem sameSetup_enterScalar (s : State) : SameSetup s (enterScalar s) := by
  unfold enterScalar
  split <;> constructor <;> rfl

theorem sameSetup_enterTiler (s : State) : SameSetup s (enterTiler s) := by
  unfold enterTiler
  simp only
  split
  · constructor <;> rfl
  · exact SameSetup.trans (by constructor <;> rfl) (sameSetup_enterScalar _)

theorem sameSetup_vec (v : VecRegs) (s : State) : SameSetup s { s with vec := v } := by constructor <;> rfl

theorem sameSetup_vencBlock (s : State) : SameSetup s (vencBlock s) := by
  unfold vencBlock
  exact sameSetup_meetError (fun u => (sameSetup_vec _ u).trans (sameSetup_emit _ _ _)) _ s

theorem sameSetup_vdecValid (s : State) : SameSetup s (vdecValid s) := by constructor <;> rfl

theorem sameSetup_vdecBlock (s : State) : SameSetup s (vdecBlock s) := by
  unfold vdecBlock
  exact sameSetup_meetError (fun u => (sameSetup_vec _ u).trans (sameSetup_emit _ _ _)) _ s

theorem sameSetup_checkStep (s : State) : SameSetup s (checkStep s) := by
  unfold checkStep checkEnc checkDec checkEnclen checkDeclen checkIllegal
  split <;> (try split) <;> (try split) <;> (try split) <;> (try split) <;>
    first
      | exact sameSetup_raise _ s
      | exact sameSetup_complete _ s
      | exact sameSetup_enterTiler s

theorem sameSetup_vectorStep (s : State) : SameSetup s (vectorStep s) := by
  unfold vectorStep
  split
  · unfold vectorEncStep
    split
    · exact sameSetup_vencBlock s
    · exact sameSetup_enterScalar s
  · unfold vectorDecStep
    split
    · refine sameSetup_meetError (fun u => ?_) _ s
      split
      · exact (sameSetup_vdecValid u).trans (sameSetup_vdecBlock _)
      · exact (sameSetup_vdecValid u).trans (sameSetup_enterScalar _)
    · exact sameSetup_enterScalar s
  all_goals exact sameSetup_goTo _ (.rfl' s)

theorem sameSetup_scalarStep (s : State) : SameSetup s (scalarStep s) := by
  unfold scalarStep
  split
  · exact sameSetup_scalarEncStep s
  · exact sameSetup_scalarDecStep s
  all_goals exact sameSetup_goTo _ (.rfl' s)

/-- An engine step leaves the setup alone. -/
theorem sameSetup_engineStep (s : State) : SameSetup s (engineStep s) := by
  unfold engineStep
  split
  · exact .rfl' s
  · split
    · exact .rfl' s
    · split
      · exact sameSetup_checkStep s
      · exact sameSetup_vectorStep s
      · exact sameSetup_scalarStep s
      · exact sameSetup_settle s

/-- Any number of engine steps leaves the setup alone. -/
theorem sameSetup_runFor (k : Nat) (s : State) : SameSetup s (runFor k s) := by
  induction k generalizing s with
  | zero => exact .rfl' s
  | succ k ih =>
    unfold runFor
    split
    · exact .rfl' s
    · exact (sameSetup_engineStep s).trans (ih _)

end Sys2Proof.Safety
end

