-- ==== Sys2Proof/Laws/Port.lean ====
section
/-! SUPPORT. Whose turn it is and what the port sees: the rewriting lemmas every statement about a step starts from. -/

namespace Sys2Proof.Machine

theorem busy_of_run {s : State} (h : s.phase = .run) : s.busy = true := by simp [State.busy, h]

theorem busy_of_idle {s : State} (h : s.phase = .idle) : s.busy = false := by simp [State.busy, h]

theorem phase_of_busy {s : State} (h : s.busy = true) : s.phase = .run := by simpa [State.busy] using h

/-- A due move is the next turn. -/
theorem nextTurn_due {s : State} {after : Option Nat} {act : HostAct} {rest : List HostMove}
    (hd : Safety.dueNow after s) (h : s.inbox = { after := after, act := act } :: rest) :
    nextTurn s = moveTurn act { s with inbox := rest } := by
  unfold nextTurn
  rw [h]
  rcases hd with hd | hd
  · simp [busy_of_idle hd]
  · subst hd
    simp

/-- A running engine whose host waits makes an engine step. -/
theorem nextTurn_waits {s : State} (h : s.phase = .run) (hw : s.hostWaits = true) :
    nextTurn s = .other (engineStep s) := by
  unfold State.hostWaits at hw
  unfold nextTurn
  cases hb : s.inbox with
  | nil => rfl
  | cons m rest =>
    rw [hb] at hw
    simp only [Option.isNone_iff_eq_none] at hw
    simp [busy_of_run h, hw]

/-- Everything the next turn can be: a pending move at the state without it, or an engine step with the list as it is or
with its first move one engine step nearer. -/
theorem nextTurn_cases (s : State) :
    (∃ m rest, s.inbox = m :: rest ∧ nextTurn s = moveTurn m.act { s with inbox := rest }) ∨
    ∃ inbox, nextTurn s = .other (engineStep { s with inbox := inbox }) := by
  unfold nextTurn
  cases hb : s.inbox with
  | nil => exact .inr ⟨[], by simp [← hb]⟩
  | cons m rest =>
    simp only
    split
    · exact .inl ⟨m, rest, rfl, rfl⟩
    · split
      · exact .inr ⟨s.inbox, rfl⟩
      · exact .inl ⟨m, rest, rfl, rfl⟩
      · exact .inr ⟨_, rfl⟩

/-- Everything the host's move can be: a command, or the move's own effect. -/
theorem moveTurn_cases (act : HostAct) (s : State) :
    (∃ w, s.rst = false ∧ moveTurn act s = .command (decode w) (answer 0 false s)) ∨
    moveTurn act s = .other (hostAct act s) := by
  cases act with
  | regWrite a size v =>
    simp only [moveTurn]
    cases hc : commandWord a size v s with
    | none => exact .inr rfl
    | some w =>
      refine .inl ⟨w, ?_, rfl⟩
      unfold commandWord at hc
      split at hc
      · cases hc
      · split at hc
        · rename_i h
          simp only [Bool.and_eq_true, Bool.not_eq_true'] at h
          exact h.2
        · cases hc
  | regRead a size => exact .inr rfl
  | memWrite a v => exact .inr rfl
  | memRead a => exact .inr rfl
  | rstAssert => exact .inr rfl
  | rstDeassert => exact .inr rfl
  | platform b => exact .inr rfl

/-- Offsets from 0x2C on are reserved (10 R33). -/
theorem regAt_none {off : Nat} (h : 0x2C ≤ off) : regAt off = none := by
  unfold regAt
  split <;> first | omega | rfl

/-- `exec` answers a next state for every instruction. -/
theorem exec_next (i : Instr) (s : State) : ∃ t, exec i s = .next t := by
  cases i <;> exact ⟨_, rfl⟩

/-- What every instruction other than `NOP` does is the one operation `command`. -/
theorem exec_eq_command {i : Instr} {op : Op} (h : Safety.opOf i = some op) (s : State) :
    exec i s = .next (command i op s) := by
  cases i <;> simp only [Safety.opOf, Option.some.injEq, reduceCtorEq] at h <;> subst h <;> rfl

end Sys2Proof.Machine
end

