-- ==== Sys2Proof/Laws/Frame.lean ====
section
/-! SUPPORT. What every shared operation can do to memory and to the record: either it ends the command (`Ended`) or the
command goes on (`Going`), and no byte outside the destination region changes. -/

namespace Sys2Proof.Safety

open Sys2Proof.Machine

/-! ### Memory outside a region -/

theorem inRegion_false {base k a : Nat} : inRegion base k a = false ↔ a < base ∨ base + k ≤ a := by
  simp only [inRegion, Bool.and_eq_false_iff, decide_eq_false_iff_not, Nat.not_le, Nat.not_lt]

theorem SameOutside.rfl' (b k : Nat) (s : State) : SameOutside b k s s := fun _ _ => rfl

theorem SameOutside.trans {b k : Nat} {s t u : State} (h : SameOutside b k s t) (g : SameOutside b k t u) :
    SameOutside b k s u := fun a ha => (g a ha).trans (h a ha)

theorem SameOutside.mono {b k l : Nat} {s t : State} (h : SameOutside b k s t) (hl : k ≤ l) : SameOutside b l s t :=
  fun a ha => h a (inRegion_false.2 (by rcases inRegion_false.1 ha with h | h <;> omega))

theorem sameOutside_of_mem {b k : Nat} {s t : State} (h : t.mem = s.mem) : SameOutside b k s t := fun a _ => by rw [h]

theorem freeBytes_length (d k : Nat) : (freeBytes d k).length = k := by simp [freeBytes]

/-- Output bytes within the first `k` of the destination leave everything else alone. -/
theorem sameOutside_writeOutput {s : State} {j k : Nat} {bs : List Byte} (hj : j + bs.length ≤ k)
    (hk : s.dst + k ≤ Config.addrSpace) : SameOutside s.dst k s (writeOutput j bs s) := fun a ha =>
  get_storeBytes_outside s s.mem (by omega) (by rcases inRegion_false.1 ha with h | h <;> omega)

theorem openLen_le (s : State) : s.openLen ≤ min s.req s.cap := by
  unfold State.openLen
  omega

theorem dst_add_openLen (s : State) : s.dst + s.openLen ≤ Config.addrSpace := by
  have : s.dst < 2 ^ 32 := s.dstAddr.isLt
  unfold State.openLen Config.addrSpace
  omega

/-- Opening the destination region changes no byte outside it. -/
theorem sameOutside_openDest (s : State) : SameOutside s.dst s.openLen s (openDest s) := fun a ha =>
  get_storeBytes_outside s s.mem (by rw [freeBytes_length]; have := dst_add_openLen s; omega)
    (by rw [freeBytes_length]; rcases inRegion_false.1 ha with h | h <;> omega)

/-- Opening the destination region makes each of its bytes a free value. -/
theorem get_openDest {s : State} {j : Nat} (hj : j < s.openLen) :
    Mem.get (openDest s).mem (s.dst + j) = Config.freeByte (s.draws + j) := by
  have h := get_storeBytes_inside s (j := 0) (bs := freeBytes s.draws s.openLen) s.mem (k := j)
    (by rw [freeBytes_length]; have := dst_add_openLen s; omega) (by rw [freeBytes_length]; exact hj)
  simp only [Nat.add_zero] at h
  change Mem.get (storeBytes s 0 _ s.mem) (s.dst + j) = _
  rw [h]
  simp [freeBytes]

/-! ### The end of a command -/

/-- The command has ended: a legal record, and memory changed only where it may. -/
structure Ended (s t : State) : Prop where
  phase : t.phase = .idle
  done : t.done = true
  code : t.err.toNat < 8
  cmd : t.cmd = s.cmd
  vsel : t.vsel = s.vsel
  wf : Mem.wf s.mem → Mem.wf t.mem
  outside : SameOutside s.dst (min s.req s.cap) s t
  setup : SameSetup s t

theorem ended_recordAny (s : State) : Ended s (recordAny s) where
  phase := rfl
  done := rfl
  code := by
    change ((Config.freeErr _).setWidth 4).toNat < 8
    have := (Config.freeErr (openDest s).draws).isLt
    rw [BitVec.toNat_setWidth]
    omega
  cmd := rfl
  vsel := rfl
  wf := fun h => wf_storeBytes h s 0 _
  outside := (sameOutside_openDest s).mono (openLen_le s)
  setup := sameSetup_recordAny s

theorem ended_record {code : BitVec 4} (hc : code.toNat < 8) (result info : Word) (s : State) :
    Ended s (record code result info s) where
  phase := rfl
  done := rfl
  code := hc
  cmd := rfl
  vsel := rfl
  wf := id
  outside := sameOutside_of_mem rfl
  setup := sameSetup_record _ _ _ s

theorem ended_endCommand {code : BitVec 4} (hc : code.toNat < 8) (result info : Word) (s : State) :
    Ended s (endCommand code result info s) := by
  unfold endCommand
  split
  · exact ended_recordAny s
  · exact ended_record hc result info s

theorem ended_complete (v : Word) (s : State) : Ended s (complete v s) := ended_endCommand (by decide) v 0 s

/-- An end reached from a state that differs from `s` only where an ending may look. -/
theorem Ended.of_step {s u t : State} (h : Ended u t) (hd : u.dst = s.dst) (hr : u.req = s.req) (hc : u.cap = s.cap)
    (hcmd : u.cmd = s.cmd) (hv : u.vsel = s.vsel) (hw : Mem.wf s.mem → Mem.wf u.mem)
    (ho : SameOutside s.dst (min s.req s.cap) s u) (hs : SameSetup s u) : Ended s t where
  phase := h.phase
  done := h.done
  code := h.code
  cmd := h.cmd.trans hcmd
  vsel := h.vsel.trans hv
  wf := fun w => h.wf (hw w)
  outside := ho.trans (by have := h.outside; rwa [hd, hr, hc] at this)
  setup := hs.trans h.setup

theorem code_lt (e : CmdError) : e.code.toNat < 8 := by cases e <;> exact of_decide_eq_true rfl

theorem ended_raise (e : CmdError) (s : State) : Ended s (raise e s) := by
  unfold raise
  split
  · exact (ended_endCommand (code_lt e) _ _ _).of_step rfl rfl rfl rfl rfl (fun h => wf_storeBytes h s 0 _)
      ((sameOutside_openDest s).mono (openLen_le s)) (sameSetup_openDest s)
  · exact ended_endCommand (code_lt e) _ _ s

theorem ended_draws {s t : State} {d : Nat} (h : Ended { s with draws := d } t) : Ended s t :=
  h.of_step rfl rfl rfl rfl rfl id (sameOutside_of_mem rfl) (by constructor <;> rfl)

theorem ended_raiseAdmitted (e : CmdError) (s : State) : Ended s (raiseAdmitted e s) := ended_draws (ended_raise _ _)

theorem ended_raiseUnknown (a : Word) (s : State) : Ended s (raiseUnknown a s) := ended_raiseAdmitted _ s

theorem ended_raiseInvalid (q : Nat) (s : State) : Ended s (raiseInvalid q s) := by
  unfold raiseInvalid
  split
  · exact ended_raise _ s
  · exact ended_raiseAdmitted _ s

theorem ended_settle (s : State) : Ended s (settle s) := by
  rcases settle_cases s with ⟨d, -, e⟩ | ⟨a, -, e⟩ <;> rw [e]
  · exact ended_draws (ended_complete _ _)
  · exact ended_draws (ended_raiseUnknown a _)

/-- A command that has ended is not moved to another stage. -/
theorem goTo_ended {g : Stage} {s t : State} (h : Ended s t) : goTo g t = t := by
  unfold goTo
  rw [busy_of_idle h.phase]
  rfl

/-! ### A command that goes on -/

/-- The running command goes on: only its stage, cursors, working state and destination bytes have changed. -/
structure Going (s t : State) : Prop where
  phase : t.phase = .run
  done : t.done = s.done
  err : t.err = s.err
  result : t.result = s.result
  errInfo : t.errInfo = s.errInfo
  cmd : t.cmd = s.cmd
  op : t.op = s.op
  sel : t.sel = s.sel
  vsel : t.vsel = s.vsel
  wf : Mem.wf s.mem → Mem.wf t.mem
  outside : SameOutside s.dst (min s.req s.cap) s t
  setup : SameSetup s t

theorem Going.len {s t : State} (h : Going s t) : t.len = s.len := by
  unfold State.len
  rw [h.setup.srcLen]

theorem Going.src {s t : State} (h : Going s t) : t.src = s.src := by
  unfold State.src
  rw [h.setup.srcAddr]

theorem Going.dst {s t : State} (h : Going s t) : t.dst = s.dst := by
  unfold State.dst
  rw [h.setup.dstAddr]

theorem Going.cap {s t : State} (h : Going s t) : t.cap = s.cap := by
  unfold State.cap
  rw [h.setup.dstCap]

theorem Going.req {s t : State} (h : Going s t) : t.req = s.req := by
  unfold State.req
  rw [h.op, h.len]

theorem Going.trans {s t u : State} (h : Going s t) (g : Going t u) : Going s u where
  phase := g.phase
  done := g.done.trans h.done
  err := g.err.trans h.err
  result := g.result.trans h.result
  errInfo := g.errInfo.trans h.errInfo
  cmd := g.cmd.trans h.cmd
  op := g.op.trans h.op
  sel := g.sel.trans h.sel
  vsel := g.vsel.trans h.vsel
  wf := fun w => g.wf (h.wf w)
  outside := h.outside.trans (by have := g.outside; rwa [h.dst, h.req, h.cap] at this)
  setup := h.setup.trans g.setup

theorem Going.ended {s t u : State} (h : Going s t) (g : Ended t u) : Ended s u :=
  g.of_step h.dst h.req h.cap h.cmd h.vsel h.wf h.outside h.setup

theorem Going.pastChecks {s t : State} (h : Going s t) (hc : PastChecks s) : PastChecks t := by
  unfold PastChecks at hc ⊢
  rw [h.op]
  unfold encReady decReady at *
  rw [h.len, h.cap, h.src, h.dst]
  exact hc

/-- Stored output and moved cursors, with any draw number and vector registers. -/
theorem going_emit {s : State} (hr : s.phase = .run) {bs : List Byte} (v : VecRegs) (d k : Nat)
    (hj : s.outOff.toNat + bs.length ≤ min s.req s.cap) (hk : s.dst + min s.req s.cap ≤ Config.addrSpace) :
    Going s (emit k bs { s with vec := v, draws := d }) where
  phase := hr
  done := rfl
  err := rfl
  result := rfl
  errInfo := rfl
  cmd := rfl
  op := rfl
  sel := rfl
  vsel := rfl
  wf := fun h => wf_storeBytes (m := s.mem) h { s with vec := v, draws := d } _ _
  outside := sameOutside_writeOutput (s := { s with vec := v, draws := d }) hj hk
  setup := (SameSetup.trans (by constructor <;> rfl) (sameSetup_emit k bs { s with vec := v, draws := d }))

/-- What one unit operation does: it ends the command, or the bytes are stored and the cursors moved. -/
theorem unit_cases {s : State} (hr : s.phase = .run) (k : Nat) (bs : List Byte)
    (hj : s.outOff.toNat + bs.length ≤ min s.req s.cap) (hk : s.dst + min s.req s.cap ≤ Config.addrSpace) :
    Ended s (unit k bs s) ∨
    ∃ d, unit k bs s = emit k bs { s with draws := d } ∧ Going s (emit k bs { s with draws := d }) := by
  rcases meetError_cases (firstError s s.inOff.toNat k s.outOff.toNat bs.length) (emit k bs) s with ⟨a, -, e⟩ | ⟨d, e⟩
  · exact .inl (by unfold unit; rw [e]; exact ended_draws (ended_raiseUnknown a _))
  · exact .inr ⟨d, e, going_emit hr s.vec d k hj hk⟩

/-- A unit operation on characters that may be invalid: the same, or the quartet ends the command. -/
theorem decUnit_cases {s : State} (hr : s.phase = .run) (k : Nat) (cs bs : List Byte)
    (hj : s.outOff.toNat + bs.length ≤ min s.req s.cap) (hk : s.dst + min s.req s.cap ≤ Config.addrSpace) :
    Ended s (decUnit k cs bs s) ∨
    ∃ d, decUnit k cs bs s = emit k bs { s with draws := d } ∧ Going s (emit k bs { s with draws := d }) := by
  unfold decUnit
  rcases meetError_cases (firstReadError s s.inOff.toNat k) (fun s =>
    if groupValid cs then meetError (firstWriteError s s.outOff.toNat bs.length) (emit k bs) s
    else raiseInvalid s.quartet s) s with ⟨a, -, e⟩ | ⟨d, e⟩ <;> rw [e]
  · exact .inl (ended_draws (ended_raiseUnknown a _))
  · simp only
    split
    · rcases meetError_cases (firstWriteError { s with draws := d } s.outOff.toNat bs.length) (emit k bs)
        { s with draws := d } with ⟨a, -, e⟩ | ⟨d', e⟩
      · exact .inl (by rw [e]; exact ended_draws (ended_draws (ended_raiseUnknown a _)))
      · exact .inr ⟨d', e, going_emit hr s.vec d' k hj hk⟩
    · exact .inl (ended_draws (ended_raiseInvalid _ _))

/-- A command that goes on can be moved to another stage. -/
theorem goTo_going {g : Stage} {s t : State} (h : Going s t) :
    goTo g t = { t with stage := g } ∧ Going s (goTo g t) := by
  have e : goTo g t = { t with stage := g } := by
    unfold goTo
    rw [busy_of_run h.phase]
    rfl
  refine ⟨e, ?_⟩
  rw [e]
  exact ⟨h.phase, h.done, h.err, h.result, h.errInfo, h.cmd, h.op, h.sel, h.vsel, h.wf, h.outside,
    h.setup.trans (by constructor <;> rfl)⟩

theorem Going.rfl' {s : State} (hr : s.phase = .run) : Going s s :=
  ⟨hr, rfl, rfl, rfl, rfl, rfl, rfl, rfl, rfl, id, sameOutside_of_mem rfl, .rfl' s⟩

end Sys2Proof.Safety
end

