-- ==== Sys2Proof/Laws/Engine.lean ====
section
/-! SUPPORT. Everything one engine step of a running command can do: it ends the command, or the command goes on with its
cursors where its loops put them; and the arithmetic of the lengths behind it. -/

namespace Sys2Proof.Safety

open Sys2Proof.Machine

/-! ### Lengths -/

theorem encodeLen_add_three (n : Nat) : encodeLen (n + 3) = encodeLen n + 4 := by
  unfold encodeLen
  split <;> split <;> omega

theorem encodeLen_of_mod {n : Nat} (h : n % 3 = 0) : encodeLen n = 4 * (n / 3) := by simp [encodeLen, h]

theorem encodeLen_mono {a b : Nat} (h : a ≤ b) : encodeLen a ≤ encodeLen b := by
  unfold encodeLen
  split <;> split <;> omega

/-- There is room for one more quartet while bytes remain. -/
theorem encodeLen_room {i n : Nat} (h : i % 3 = 0) (hi : i < n) : 4 * (i / 3) + 4 ≤ encodeLen n := by
  unfold encodeLen
  split <;> omega

theorem decodeLen_add_four (m : Nat) : decodeLen (m + 4) = decodeLen m + 3 := by
  unfold decodeLen
  omega

theorem decodeLen_mono {a b : Nat} (h : a ≤ b) : decodeLen a ≤ decodeLen b := by
  unfold decodeLen
  omega

theorem flatMap_length_const {α β : Type} {f : α → List β} {k : Nat} (hf : ∀ a, (f a).length = k) (l : List α) :
    (l.flatMap f).length = l.length * k := by
  induction l with
  | nil => simp
  | cons a l ih =>
    rw [List.flatMap_cons, List.length_append, ih, hf, List.length_cons]
    ring

theorem encBlockChars_length (w : List Byte) : (encBlockChars w).length = 32 := by
  unfold encBlockChars encDatapath encSextets
  simp only [List.length_map]
  rw [flatMap_length_const (k := 4) fun _ => rfl]
  simp

theorem decBlockBytes_length (c : List Byte) : (decBlockBytes c).length = 24 := by
  unfold decBlockBytes decDatapath decPack3
  simp only
  rw [flatMap_length_const (k := 4) fun _ => rfl]
  simp

theorem tripletChars_length (b0 b1 b2 : Byte) : (tripletChars b0 b1 b2).length = 4 := rfl

theorem quartetBytes_length (c0 c1 c2 c3 : Byte) : (quartetBytes c0 c1 c2 c3).length = 3 := rfl

theorem len_lt (s : State) : s.len < 2 ^ 32 := s.srcLen.isLt

/-! ### The regions of a command past its checks -/

/-- Only `ENC` and `DEC` get past the checks. -/
theorem op_of_pastChecks {s : State} (h : PastChecks s) : s.op = .enc ∨ s.op = .dec := by
  unfold PastChecks at h
  split at h
  · exact .inl ‹_›
  · exact .inr ‹_›
  all_goals exact absurd h id

/-- Past its checks a command's required length fits its capacity and the address space, and a word. -/
theorem req_fits {s : State} (h : PastChecks s) :
    s.req ≤ s.cap ∧ s.dst + s.req ≤ Config.addrSpace ∧ s.req < 2 ^ 32 := by
  have hd : s.dst < 2 ^ 32 := s.dstAddr.isLt
  have hl := len_lt s
  have hr : ∀ {src len req : Nat}, rangesOk src len s.dst req = true → s.dst + req ≤ Config.addrSpace := by
    intro src len req h
    simp only [rangesOk, fits, Bool.and_eq_true, Bool.or_eq_true, beq_iff_eq, decide_eq_true_eq] at h
    rcases h.1.2 with h | h
    · unfold Config.addrSpace
      omega
    · exact h
  rcases op_of_pastChecks h with ho | ho
  · have hq : s.req = encodeLen s.len := by simp [State.req, ho]
    simp only [PastChecks, ho] at h
    obtain ⟨h1, h2, h3⟩ := h
    unfold Config.maxLen at h1
    rw [hq]
    exact ⟨h2, hr h3, by omega⟩
  · have hq : s.req = decodeLen s.len := by simp [State.req, ho]
    simp only [PastChecks, ho] at h
    obtain ⟨-, -, h2, h3⟩ := h
    rw [hq]
    exact ⟨h2, hr h3, by unfold decodeLen; omega⟩

theorem min_req_cap {s : State} (h : PastChecks s) : min s.req s.cap = s.req := Nat.min_eq_left (req_fits h).1

theorem toNat_add_ofNat {x : Word} {k : Nat} (h : x.toNat + k < 2 ^ 32) :
    (x + BitVec.ofNat 32 k).toNat = x.toNat + k := by
  rw [BitVec.toNat_add, BitVec.toNat_ofNat]
  omega

/-! ### The cursors, stage by stage -/

theorem cursorsOk_vector_enc {s : State} (hst : s.stage = .vector) (ho : s.op = .enc) : CursorsOk s ↔
    s.sel = true ∧ s.inOff.toNat % 24 = 0 ∧ s.inOff.toNat ≤ s.len ∧ s.outOff.toNat = encodeLen s.inOff.toNat := by
  simp only [CursorsOk, hst, ho]

theorem cursorsOk_vector_dec {s : State} (hst : s.stage = .vector) (ho : s.op = .dec) : CursorsOk s ↔
    s.sel = true ∧ s.inOff.toNat % 32 = 0 ∧ s.inOff.toNat < s.len ∧ s.outOff.toNat = decodeLen s.inOff.toNat := by
  simp only [CursorsOk, hst, ho]

theorem cursorsOk_scalar_enc {s : State} (hst : s.stage = .scalar) (ho : s.op = .enc) : CursorsOk s ↔
    s.inOff.toNat % 3 = 0 ∧ s.inOff.toNat ≤ s.len ∧ s.outOff.toNat = encodeLen s.inOff.toNat := by
  simp only [CursorsOk, hst, ho]

theorem cursorsOk_scalar_dec {s : State} (hst : s.stage = .scalar) (ho : s.op = .dec) : CursorsOk s ↔
    s.inOff.toNat % 4 = 0 ∧ s.inOff.toNat < s.len ∧ s.outOff.toNat = decodeLen s.inOff.toNat := by
  simp only [CursorsOk, hst, ho]

theorem cursorsOk_finish_enc {s : State} (hst : s.stage = .finish) (ho : s.op = .enc) : CursorsOk s ↔
    s.inOff.toNat = s.len ∧ s.outOff.toNat = encodeLen s.len := by
  simp only [CursorsOk, hst, ho]

theorem cursorsOk_finish_dec {s : State} (hst : s.stage = .finish) (ho : s.op = .dec) : CursorsOk s ↔
    s.inOff.toNat = s.len ∧ s.outOff.toNat = decodeLen s.len - s.pad.val := by
  simp only [CursorsOk, hst, ho]

/-- Where the cursors stand after stored output. -/
theorem emit_inOff {s : State} {k : Nat} (bs : List Byte) (h : s.inOff.toNat + k < 2 ^ 32) :
    (emit k bs s).inOff.toNat = s.inOff.toNat + k := toNat_add_ofNat h

theorem emit_outOff {s : State} {bs : List Byte} (k : Nat) (h : s.outOff.toNat + bs.length < 2 ^ 32) :
    (emit k bs s).outOff.toNat = s.outOff.toNat + bs.length := toNat_add_ofNat h

@[simp] theorem emit_len (k : Nat) (bs : List Byte) (s : State) : (emit k bs s).len = s.len := rfl
@[simp] theorem emit_stage (k : Nat) (bs : List Byte) (s : State) : (emit k bs s).stage = s.stage := rfl
@[simp] theorem emit_op (k : Nat) (bs : List Byte) (s : State) : (emit k bs s).op = s.op := rfl
@[simp] theorem emit_sel (k : Nat) (bs : List Byte) (s : State) : (emit k bs s).sel = s.sel := rfl
@[simp] theorem emit_pad (k : Nat) (bs : List Byte) (s : State) : (emit k bs s).pad = s.pad := rfl

/-- The cursors after a triplet. -/
theorem cursors_triplet {s : State} {bs : List Byte} (hb : bs.length = 4) (hst : s.stage = .scalar) (ho : s.op = .enc)
    (hc : s.inOff.toNat % 3 = 0 ∧ s.inOff.toNat ≤ s.len ∧ s.outOff.toNat = encodeLen s.inOff.toNat)
    (h : 3 ≤ s.remaining) (hreq : encodeLen s.len < 2 ^ 32) : CursorsOk (emit 3 bs s) := by
  obtain ⟨h3, hle, hout⟩ := hc
  have hl := len_lt s
  have hrem : s.remaining = s.len - s.inOff.toNat := rfl
  have hroom := encodeLen_room h3 (n := s.len) (by omega)
  rw [encodeLen_of_mod h3] at hout
  rw [cursorsOk_scalar_enc (by rw [emit_stage, hst]) (by rw [emit_op, ho]), emit_len, emit_inOff _ (by omega),
    emit_outOff _ (by omega), hb, encodeLen_of_mod (by omega)]
  omega

/-- The cursors after the tail of an encode. -/
theorem cursors_tail {s : State} {bs : List Byte} {k : Nat} (hb : bs.length = 4) (ho : s.op = .enc)
    (hc : s.inOff.toNat % 3 = 0 ∧ s.inOff.toNat ≤ s.len ∧ s.outOff.toNat = encodeLen s.inOff.toNat)
    (hk : k = s.remaining) (h0 : 0 < k) (h3 : k < 3) (hreq : encodeLen s.len < 2 ^ 32) :
    CursorsOk { emit k bs s with stage := .finish } := by
  obtain ⟨hm, hle, hout⟩ := hc
  have hl := len_lt s
  have hrem : s.remaining = s.len - s.inOff.toNat := rfl
  have hroom := encodeLen_room hm (n := s.len) (by omega)
  rw [encodeLen_of_mod hm] at hout
  have e1 := emit_inOff (s := s) (k := k) bs (by omega)
  have e2 := emit_outOff (s := s) (bs := bs) k (by omega)
  refine (cursorsOk_finish_enc rfl (by exact ho)).2 ⟨e1.trans (by change _ = s.len; omega), e2.trans ?_⟩
  change s.outOff.toNat + bs.length = encodeLen s.len
  rw [hb, hout]
  unfold encodeLen
  split <;> omega

/-- The cursors after a quartet. -/
theorem cursors_quartet {s : State} {bs : List Byte} (hb : bs.length = 3) (hst : s.stage = .scalar) (ho : s.op = .dec)
    (hc : s.inOff.toNat % 4 = 0 ∧ s.inOff.toNat < s.len ∧ s.outOff.toNat = decodeLen s.inOff.toNat)
    (h : 4 < s.remaining) : CursorsOk (emit 4 bs s) := by
  obtain ⟨h4, hle, hout⟩ := hc
  have hl := len_lt s
  have hrem : s.remaining = s.len - s.inOff.toNat := rfl
  have hroom : s.outOff.toNat + 3 < 2 ^ 32 := by
    rw [hout]
    unfold decodeLen
    omega
  rw [cursorsOk_scalar_dec (by rw [emit_stage, hst]) (by rw [emit_op, ho]), emit_len, emit_inOff _ (by omega),
    emit_outOff _ (by omega), hb, decodeLen_add_four]
  omega

/-- The cursors after the final quartet. -/
theorem cursors_final {s : State} {bs : List Byte} (hb : bs.length = 3 - s.pad.val) (ho : s.op = .dec)
    (hc : s.inOff.toNat % 4 = 0 ∧ s.inOff.toNat < s.len ∧ s.outOff.toNat = decodeLen s.inOff.toNat)
    (h : s.remaining ≤ 4) (hl4 : s.len % 4 = 0) : CursorsOk { emit 4 bs s with stage := .finish } := by
  obtain ⟨h4, hle, hout⟩ := hc
  have hl := len_lt s
  have hp3 := s.pad.isLt
  have hrem : s.remaining = s.len - s.inOff.toNat := rfl
  have hroom : s.outOff.toNat + 3 < 2 ^ 32 := by
    rw [hout]
    unfold decodeLen
    omega
  have he : s.len = s.inOff.toNat + 4 := by omega
  have e1 := emit_inOff (s := s) (k := 4) bs (by omega)
  have e2 := emit_outOff (s := s) (bs := bs) 4 (by omega)
  refine (cursorsOk_finish_dec rfl (by exact ho)).2 ⟨e1.trans he.symm, e2.trans ?_⟩
  change s.outOff.toNat + bs.length = decodeLen s.len - s.pad.val
  rw [hb, hout, he, decodeLen_add_four]
  omega

/-! ### What a step can do -/

/-- Everything an engine step of a command past its checks can do. -/
def StepOutcome (s t : State) : Prop := Ended s t ∨ (Going s t ∧ PastChecks t ∧ CursorsOk t)

/-- A going command whose cursors are right is one of the two outcomes. -/
theorem StepOutcome.going {s t : State} (hp : PastChecks s) (h : Going s t) (hc : CursorsOk t) : StepOutcome s t :=
  .inr ⟨h, h.pastChecks hp, hc⟩

/-- The next stage of a unit operation that may have ended the command. -/
theorem StepOutcome.goTo {s u : State} {g : Stage} (hp : PastChecks s)
    (h : Ended s u ∨ Going s u ∧ CursorsOk { u with stage := g }) : StepOutcome s (goTo g u) := by
  rcases h with h | ⟨h, hc⟩
  · rw [goTo_ended h]
    exact .inl h
  · obtain ⟨e, hg⟩ := goTo_going (g := g) h
    refine .going hp hg ?_
    rw [e]
    exact hc

/-- One step of the scalar encode loop. -/
theorem outcome_scalarEncStep {s : State} (hr : s.phase = .run) (ho : s.op = .enc) (hst : s.stage = .scalar)
    (hp : PastChecks s) (hc : CursorsOk s) : StepOutcome s (scalarEncStep s) := by
  obtain ⟨hcap, hfit, hlt⟩ := req_fits hp
  have hq : s.req = encodeLen s.len := by simp [State.req, ho]
  have hm := min_req_cap hp
  rw [cursorsOk_scalar_enc hst ho] at hc
  have hrem : s.remaining = s.len - s.inOff.toNat := rfl
  have hu : ∀ (k : Nat) (bs : List Byte), bs.length = 4 → 0 < s.remaining → Ended s (unit k bs s) ∨
      ∃ d, unit k bs s = emit k bs { s with draws := d } ∧ Going s (emit k bs { s with draws := d }) := by
    intro k bs hb hpos
    refine unit_cases hr k bs ?_ (by rw [hm]; exact hfit)
    rw [hm, hq, hb, hc.2.2, encodeLen_of_mod hc.1]
    exact encodeLen_room hc.1 (by omega)
  rw [hq] at hlt
  unfold scalarEncStep
  split
  · rename_i h
    rcases hu 3 (tripletChars (s.next 0) (s.next 1) (s.next 2)) rfl (by omega) with he | ⟨d, e, hg⟩
    · exact .inl he
    · unfold encTriplet
      rw [e]
      exact .going hp hg (cursors_triplet (s := { s with draws := d }) rfl hst ho hc h hlt)
  · have htail : ∀ (k : Nat) (bs : List Byte), bs.length = 4 → k = s.remaining → 0 < k → k < 3 →
        StepOutcome s (Machine.goTo .finish (unit k bs s)) := by
      intro k bs hb hk hk0 hk3
      refine .goTo hp ?_
      rcases hu k bs hb (by omega) with he | ⟨d, e, hg⟩
      · exact .inl he
      · rw [e]
        exact .inr ⟨hg, cursors_tail (s := { s with draws := d }) hb ho hc hk hk0 hk3 hlt⟩
    split
    · exact htail 2 _ rfl (by omega) (by omega) (by omega)
    · split
      · exact htail 1 _ rfl (by omega) (by omega) (by omega)
      · refine .goTo hp (.inr ⟨.rfl' hr, ?_⟩)
        have he : s.inOff.toNat = s.len := by omega
        refine (cursorsOk_finish_enc rfl (by exact ho)).2 ⟨he, hc.2.2.trans ?_⟩
        change _ = encodeLen s.len
        rw [he]

/-- A going command whose working state changed in fields no rule reads at its end still goes on. -/
theorem Going.of_same {s u t : State} (h : Going u t) (hd : u.dst = s.dst) (hr : u.req = s.req) (hc : u.cap = s.cap)
    (hm : u.mem = s.mem) (hs : SameSetup s u) (hrec : u.done = s.done ∧ u.err = s.err ∧ u.result = s.result ∧
      u.errInfo = s.errInfo ∧ u.cmd = s.cmd ∧ u.op = s.op ∧ u.sel = s.sel ∧ u.vsel = s.vsel) : Going s t where
  phase := h.phase
  done := h.done.trans hrec.1
  err := h.err.trans hrec.2.1
  result := h.result.trans hrec.2.2.1
  errInfo := h.errInfo.trans hrec.2.2.2.1
  cmd := h.cmd.trans hrec.2.2.2.2.1
  op := h.op.trans hrec.2.2.2.2.2.1
  sel := h.sel.trans hrec.2.2.2.2.2.2.1
  vsel := h.vsel.trans hrec.2.2.2.2.2.2.2
  wf := fun w => h.wf (by rw [hm]; exact w)
  outside := by
    have := h.outside
    rw [hd, hr, hc] at this
    exact (sameOutside_of_mem hm).trans this
  setup := hs.trans h.setup

/-- One step of the scalar decode loop. -/
theorem outcome_scalarDecStep {s : State} (hr : s.phase = .run) (ho : s.op = .dec) (hst : s.stage = .scalar)
    (hp : PastChecks s) (hc : CursorsOk s) : StepOutcome s (scalarDecStep s) := by
  obtain ⟨hcap, hfit, hlt⟩ := req_fits hp
  have hq : s.req = decodeLen s.len := by simp [State.req, ho]
  have hm := min_req_cap hp
  have hl4 : s.len % 4 = 0 := by
    simp only [PastChecks, ho] at hp
    exact hp.2.1
  rw [cursorsOk_scalar_dec hst ho] at hc
  have hrem : s.remaining = s.len - s.inOff.toNat := rfl
  have hroom : s.outOff.toNat + 3 ≤ s.req := by
    rw [hq, hc.2.2]
    unfold decodeLen
    omega
  unfold scalarDecStep
  split
  · rename_i h
    unfold decQuartet
    rcases decUnit_cases hr 4 [s.next 0, s.next 1, s.next 2, s.next 3]
      (quartetBytes (s.next 0) (s.next 1) (s.next 2) (s.next 3))
      (by rw [hm]; exact hroom) (by rw [hm]; exact hfit) with he | ⟨d, e, hg⟩
    · exact .inl he
    · rw [e]
      exact .going hp hg (cursors_quartet (s := { s with draws := d }) rfl hst ho hc h)
  · rename_i h
    refine .goTo hp ?_
    have hfin : ∀ (p : Fin 3) (cs bs : List Byte), bs.length = 3 - p.val →
        Ended s (decUnit 4 cs bs { s with pad := p }) ∨ Going s (decUnit 4 cs bs { s with pad := p }) ∧
          CursorsOk { decUnit 4 cs bs { s with pad := p } with stage := .finish } := by
      intro p cs bs hb
      rcases decUnit_cases (s := { s with pad := p }) hr 4 cs bs
        (by change s.outOff.toNat + _ ≤ min s.req s.cap; rw [hm]; omega)
        (by change s.dst + min s.req s.cap ≤ _; rw [hm]; exact hfit) with he | ⟨d, e, hg⟩
      · exact .inl (he.of_step rfl rfl rfl rfl rfl id (sameOutside_of_mem rfl) (by constructor <;> rfl))
      · rw [e]
        exact .inr ⟨hg.of_same rfl rfl rfl rfl (by constructor <;> rfl) ⟨rfl, rfl, rfl, rfl, rfl, rfl, rfl, rfl⟩,
          cursors_final (s := { s with pad := p, draws := d }) hb ho hc (by change s.remaining ≤ 4; omega) hl4⟩
    unfold decFinal
    simp only
    generalize s.padCount = p
    match p with
    | 0 => exact hfin 0 _ (quartetBytes _ _ _ _) rfl
    | 1 => exact hfin 1 _ (tail3Bytes _ _ _) rfl
    | 2 => exact hfin 2 _ (tail2Bytes _ _) rfl

/-- The scalar loop's first state, from a vector loop or from the checks. -/
theorem going_enterScalar {s : State} (hr : s.phase = .run) : Going s (enterScalar s) := by
  unfold enterScalar
  split <;> exact ⟨hr, rfl, rfl, rfl, rfl, rfl, rfl, rfl, rfl, id, sameOutside_of_mem rfl, by constructor <;> rfl⟩

/-- The scalar loop starts where the cursors stand. -/
theorem cursors_enterScalar_enc {s : State} (ho : s.op = .enc) (h : s.inOff.toNat % 3 = 0 ∧ s.inOff.toNat ≤ s.len ∧
    s.outOff.toNat = encodeLen s.inOff.toNat) : CursorsOk (enterScalar s) := by
  have e : enterScalar s = { s with stage := .scalar } := by simp only [enterScalar, ho]
  rw [e]
  exact (cursorsOk_scalar_enc rfl (by exact ho)).2 h

theorem cursors_enterScalar_dec {s : State} (ho : s.op = .dec) (h : s.inOff.toNat % 4 = 0 ∧ s.inOff.toNat < s.len ∧
    s.outOff.toNat = decodeLen s.inOff.toNat) : CursorsOk (enterScalar s) := by
  have e : enterScalar s = { s with stage := .scalar, qbase := BitVec.ofNat 32 s.quartet } := by
    simp only [enterScalar, ho]
  rw [e]
  exact (cursorsOk_scalar_dec rfl (by exact ho)).2 h

/-- The cursors after an encode block. -/
theorem cursors_encBlock {s : State} {bs : List Byte} (hb : bs.length = 32) (hst : s.stage = .vector) (ho : s.op = .enc)
    (hc : s.sel = true ∧ s.inOff.toNat % 24 = 0 ∧ s.inOff.toNat ≤ s.len ∧ s.outOff.toNat = encodeLen s.inOff.toNat)
    (h : 24 ≤ s.remaining) (hreq : encodeLen s.len < 2 ^ 32) : CursorsOk (emit 24 bs s) := by
  obtain ⟨hsel, h24, hle, hout⟩ := hc
  have hl := len_lt s
  have hrem : s.remaining = s.len - s.inOff.toNat := rfl
  have hroom : encodeLen s.inOff.toNat + 32 ≤ encodeLen s.len := by
    unfold encodeLen
    split <;> split <;> omega
  refine (cursorsOk_vector_enc (by rw [emit_stage, hst]) (by rw [emit_op, ho])).2 ⟨by rw [emit_sel, hsel], ?_⟩
  rw [emit_len, emit_inOff _ (by omega), emit_outOff _ (by omega), hb, hout]
  unfold encodeLen
  split <;> split <;> omega

/-- The cursors after a decode block. -/
theorem cursors_decBlock {s : State} {bs : List Byte} (hb : bs.length = 24) (hst : s.stage = .vector) (ho : s.op = .dec)
    (hc : s.sel = true ∧ s.inOff.toNat % 32 = 0 ∧ s.inOff.toNat < s.len ∧ s.outOff.toNat = decodeLen s.inOff.toNat)
    (h : 45 ≤ s.remaining) : CursorsOk (emit 32 bs s) := by
  obtain ⟨hsel, h32, hle, hout⟩ := hc
  have hl := len_lt s
  have hrem : s.remaining = s.len - s.inOff.toNat := rfl
  have hroom : s.outOff.toNat + 24 < 2 ^ 32 := by
    rw [hout]
    unfold decodeLen
    omega
  refine (cursorsOk_vector_dec (by rw [emit_stage, hst]) (by rw [emit_op, ho])).2 ⟨by rw [emit_sel, hsel], ?_⟩
  rw [emit_len, emit_inOff _ (by omega), emit_outOff _ (by omega), hb, hout]
  unfold decodeLen
  omega

/-- One step of the vector encode loop. -/
theorem outcome_vectorEncStep {s : State} (hr : s.phase = .run) (ho : s.op = .enc) (hst : s.stage = .vector)
    (hp : PastChecks s) (hc : CursorsOk s) : StepOutcome s (vectorEncStep s) := by
  obtain ⟨hcap, hfit, hlt⟩ := req_fits hp
  have hq : s.req = encodeLen s.len := by simp [State.req, ho]
  have hm := min_req_cap hp
  rw [cursorsOk_vector_enc hst ho] at hc
  have hrem : s.remaining = s.len - s.inOff.toNat := rfl
  unfold vectorEncStep
  split
  · rename_i h
    unfold Config.encVecMin at h
    have hroom : s.outOff.toNat + 32 ≤ s.req := by
      rw [hq, hc.2.2.2]
      unfold encodeLen
      split <;> split <;> omega
    unfold vencBlock
    simp only [Config.encBlkIn]
    generalize firstError s _ _ _ _ = err
    rcases meetError_cases err (fun s => emit 24 (encBlockChars (encWindow s))
      { s with vec := encVecRegs s.vec (encWindow s) }) s with ⟨a, -, e⟩ | ⟨d, e⟩ <;> rw [e]
    · exact .inl (ended_draws (ended_raiseUnknown a _))
    · simp only
      have hb := encBlockChars_length (encWindow { s with draws := d })
      generalize encBlockChars (encWindow { s with draws := d }) = bs at hb ⊢
      generalize encVecRegs s.vec (encWindow { s with draws := d }) = v
      exact .going hp (going_emit hr v d 24 (by rw [hm, hb]; exact hroom) (by rw [hm]; exact hfit))
        (cursors_encBlock (s := { s with vec := v, draws := d }) hb hst ho hc h (by rw [hq] at hlt; exact hlt))
  · exact .going hp (going_enterScalar hr) (cursors_enterScalar_enc ho ⟨by omega, hc.2.2.1, hc.2.2.2⟩)

/-- One step of the vector decode loop. -/
theorem outcome_vectorDecStep {s : State} (hr : s.phase = .run) (ho : s.op = .dec) (hst : s.stage = .vector)
    (hp : PastChecks s) (hc : CursorsOk s) : StepOutcome s (vectorDecStep s) := by
  obtain ⟨hcap, hfit, hlt⟩ := req_fits hp
  have hq : s.req = decodeLen s.len := by simp [State.req, ho]
  have hm := min_req_cap hp
  rw [cursorsOk_vector_dec hst ho] at hc
  have hrem : s.remaining = s.len - s.inOff.toNat := rfl
  have hscalar : ∀ u : State, u.op = s.op → u.inOff = s.inOff → u.outOff = s.outOff → u.len = s.len →
      CursorsOk (enterScalar u) := by
    intro u h1 h2 h3 h4
    refine cursors_enterScalar_dec (h1.trans ho) ?_
    rw [h2, h3, h4]
    exact ⟨by omega, hc.2.2.1, hc.2.2.2⟩
  unfold vectorDecStep
  split
  · rename_i h
    unfold Config.decVecMin at h
    have hroom : s.outOff.toNat + 24 ≤ s.req := by
      rw [hq, hc.2.2.2]
      unfold decodeLen
      omega
    generalize firstReadError s _ _ = err
    rcases meetError_cases err (fun s =>
      if (vdecValid s).blkOk then vdecBlock (vdecValid s) else enterScalar (vdecValid s)) s
      with ⟨a, -, e⟩ | ⟨d, e⟩ <;> rw [e]
    · exact .inl (ended_draws (ended_raiseUnknown a _))
    ·
      have hv : ∃ v b, vdecValid { s with draws := d } = { s with draws := d, vec := v, blkOk := b } := ⟨_, _, rfl⟩
      obtain ⟨v, b, hv⟩ := hv
      rw [hv]
      have hsame : ∀ t, Going { s with draws := d, vec := v, blkOk := b } t → Going s t := fun t h =>
        h.of_same rfl rfl rfl rfl (by constructor <;> rfl) ⟨rfl, rfl, rfl, rfl, rfl, rfl, rfl, rfl⟩
      split
      · unfold vdecBlock
        simp only [Config.decBlkIn]
        generalize firstWriteError _ _ _ = err'
        rcases meetError_cases err' (fun s => emit 32 (decBlockBytes (decWindow s))
          { s with vec := decVecRegs s.vec (decWindow s) }) { s with draws := d, vec := v, blkOk := b }
          with ⟨a, -, e⟩ | ⟨d', e⟩ <;> rw [e]
        · exact .inl ((ended_raiseUnknown a _).of_step rfl rfl rfl rfl rfl id (sameOutside_of_mem rfl)
            (by constructor <;> rfl))
        · simp only
          generalize decWindow _ = c
          have hb := decBlockBytes_length c
          generalize decBlockBytes c = bs at hb ⊢
          generalize decVecRegs v c = v'
          exact .going hp (hsame _ (going_emit (s := { s with draws := d, vec := v, blkOk := b }) hr v' d' 32
            (by rw [hb]; change s.outOff.toNat + 24 ≤ min s.req s.cap; rw [hm]; exact hroom)
            (by change s.dst + min s.req s.cap ≤ _; rw [hm]; exact hfit)))
            (cursors_decBlock (s := { s with vec := v', blkOk := b, draws := d' }) hb hst ho hc h)
      · exact .going hp (hsame _ (going_enterScalar (by exact hr))) (hscalar _ rfl rfl rfl rfl)
  · exact .going hp (going_enterScalar hr) (hscalar s rfl rfl rfl rfl)

/-- The tilers start with empty cursors. -/
theorem outcome_enterTiler {s : State} (hr : s.phase = .run) (hp : PastChecks s) (hi : s.inOff = 0)
    (ho : s.outOff = 0) : StepOutcome s (enterTiler s) := by
  have hi0 : s.inOff.toNat = 0 := by rw [hi]; rfl
  have ho0 : s.outOff.toNat = 0 := by rw [ho]; rfl
  have hg : Going s { s with tainted := s.tainted || sourceVolatile s } :=
    ⟨hr, rfl, rfl, rfl, rfl, rfl, rfl, rfl, rfl, id, sameOutside_of_mem rfl, by constructor <;> rfl⟩
  have hv : ∀ u : State, u.phase = .run → Going u { u with stage := .vector } := fun u hu =>
    ⟨hu, rfl, rfl, rfl, rfl, rfl, rfl, rfl, rfl, id, sameOutside_of_mem rfl, by constructor <;> rfl⟩
  unfold enterTiler
  simp only
  rcases op_of_pastChecks hp with hop | hop
  · split
    · rename_i hsel
      refine .going hp (hg.trans (hv _ hr)) ((cursorsOk_vector_enc rfl (by exact hop)).2 ⟨hsel, ?_⟩)
      change s.inOff.toNat % 24 = 0 ∧ s.inOff.toNat ≤ s.len ∧ s.outOff.toNat = encodeLen s.inOff.toNat
      rw [hi0, ho0]
      exact ⟨rfl, Nat.zero_le _, rfl⟩
    · refine .going hp (hg.trans (going_enterScalar hr)) (cursors_enterScalar_enc (by exact hop) ?_)
      change s.inOff.toNat % 3 = 0 ∧ s.inOff.toNat ≤ s.len ∧ s.outOff.toNat = encodeLen s.inOff.toNat
      rw [hi0, ho0]
      exact ⟨rfl, Nat.zero_le _, rfl⟩
  · have hpc := hp
    simp only [PastChecks, hop] at hpc
    split
    · rename_i hsel
      refine .going hp (hg.trans (hv _ hr)) ((cursorsOk_vector_dec rfl (by exact hop)).2 ⟨hsel, ?_⟩)
      change s.inOff.toNat % 32 = 0 ∧ s.inOff.toNat < s.len ∧ s.outOff.toNat = decodeLen s.inOff.toNat
      rw [hi0, ho0]
      exact ⟨rfl, hpc.1, rfl⟩
    · refine .going hp (hg.trans (going_enterScalar hr)) (cursors_enterScalar_dec (by exact hop) ?_)
      change s.inOff.toNat % 4 = 0 ∧ s.inOff.toNat < s.len ∧ s.outOff.toNat = decodeLen s.inOff.toNat
      rw [hi0, ho0]
      exact ⟨rfl, hpc.1, rfl⟩

/-- The step of the checks: the command ends, or its checks have passed and a tiler starts. -/
theorem outcome_checkStep {s : State} (hr : s.phase = .run) (hi : s.inOff = 0) (ho : s.outOff = 0) :
    StepOutcome s (checkStep s) := by
  unfold checkStep
  split
  · rename_i hop
    unfold checkEnc
    split
    · exact .inl (ended_raise _ s)
    · split
      · exact .inl (ended_raise _ s)
      · split
        · refine outcome_enterTiler hr ?_ hi ho
          simp only [PastChecks, hop]
          exact ⟨by omega, by omega, by assumption⟩
        · exact .inl (ended_raise _ s)
  · rename_i hop
    unfold checkDec
    split
    · exact .inl (ended_complete _ s)
    · split
      · exact .inl (ended_raise _ s)
      · split
        · exact .inl (ended_raise _ s)
        · split
          · refine outcome_enterTiler hr ?_ hi ho
            simp only [PastChecks, hop]
            exact ⟨by omega, by omega, by omega, by assumption⟩
          · exact .inl (ended_raise _ s)
  · unfold checkEnclen
    split
    · exact .inl (ended_raise _ s)
    · exact .inl (ended_complete _ s)
  · exact .inl (ended_complete _ s)
  · exact .inl (ended_raise _ s)

/-- Everything an engine step of a running command with its cursors in place can do: it stalls, it ends the command, or
the command goes on past its checks with its cursors in place. -/
theorem engineStep_cases {s : State} (hr : s.phase = .run) (hchk : s.stage ≠ .check → PastChecks s)
    (hc : CursorsOk s) : engineStep s = s ∨ StepOutcome s (engineStep s) := by
  unfold engineStep
  rw [hr]
  simp only
  split
  · exact .inl rfl
  · right
    cases hst : s.stage with
    | check =>
      simp only [CursorsOk, hst] at hc
      exact outcome_checkStep hr hc.1 hc.2
    | vector =>
      have hp := hchk (by rw [hst]; decide)
      simp only [vectorStep]
      cases hop : s.op with
      | enc => exact outcome_vectorEncStep hr hop hst hp hc
      | dec => exact outcome_vectorDecStep hr hop hst hp hc
      | enclen => simp [PastChecks, hop] at hp
      | declen => simp [PastChecks, hop] at hp
      | illegal => simp [PastChecks, hop] at hp
    | scalar =>
      have hp := hchk (by rw [hst]; decide)
      simp only [scalarStep]
      cases hop : s.op with
      | enc => exact outcome_scalarEncStep hr hop hst hp hc
      | dec => exact outcome_scalarDecStep hr hop hst hp hc
      | enclen => simp [PastChecks, hop] at hp
      | declen => simp [PastChecks, hop] at hp
      | illegal => simp [PastChecks, hop] at hp
    | finish => exact .inl (ended_settle s)

/-- Any number of engine steps of a running command with its cursors in place: it has ended, or it still goes on. -/
theorem runFor_cases {s : State} (k : Nat) (hr : s.phase = .run) (hchk : s.stage ≠ .check → PastChecks s)
    (hc : CursorsOk s) : Ended s (runFor k s) ∨
      (Going s (runFor k s) ∧ ((runFor k s).stage ≠ .check → PastChecks (runFor k s)) ∧ CursorsOk (runFor k s)) := by
  induction k generalizing s with
  | zero => exact .inr ⟨.rfl' hr, hchk, hc⟩
  | succ k ih =>
    unfold runFor
    rw [hr]
    simp only
    rcases engineStep_cases hr hchk hc with e | e | ⟨e, hp, hc'⟩
    · rw [e]
      exact ih hr hchk hc
    · have : runFor k (engineStep s) = engineStep s := by
        cases k with
        | zero => rfl
        | succ k => simp only [runFor, e.phase]
      rw [this]
      exact .inl e
    · rcases ih e.phase (fun _ => hp) hc' with g | ⟨g, hp', hc''⟩
      · exact .inl (e.ended g)
      · exact .inr ⟨e.trans g, hp', hc''⟩

end Sys2Proof.Safety
end

