-- ==== Sys2Proof/Laws/PerInstr.lean ====
section
/-! SUPPORT. One lemma per command about it as assembler text and as a word: the family `Assembler`. -/

namespace Sys2Proof.Laws.Assembler

/-- A command has an assembler form exactly when it is well formed (30 R110), and its word's reserved bits are 0. -/
def Statement (i : Instr) : Prop := i.mnemonic?.isSome = i.wellFormed ∧ encode i &&& 0xFFFFFEF0 = 0

theorem nop : Statement .nop := by
  unfold Statement
  decide
theorem enc (S : Bool) : Statement (.enc S) := by
  unfold Statement
  cases S <;> decide
theorem dec (S : Bool) : Statement (.dec S) := by
  unfold Statement
  cases S <;> decide
theorem enclen (S : Bool) : Statement (.enclen S) := by
  unfold Statement
  cases S <;> decide
theorem declen (S : Bool) : Statement (.declen S) := by
  unfold Statement
  cases S <;> decide
theorem ill5 (S : Bool) : Statement (.ill5 S) := by
  unfold Statement
  cases S <;> decide
theorem ill6 (S : Bool) : Statement (.ill6 S) := by
  unfold Statement
  cases S <;> decide
theorem ill7 (S : Bool) : Statement (.ill7 S) := by
  unfold Statement
  cases S <;> decide
theorem ill8 (S : Bool) : Statement (.ill8 S) := by
  unfold Statement
  cases S <;> decide
theorem ill9 (S : Bool) : Statement (.ill9 S) := by
  unfold Statement
  cases S <;> decide
theorem ill10 (S : Bool) : Statement (.ill10 S) := by
  unfold Statement
  cases S <;> decide
theorem ill11 (S : Bool) : Statement (.ill11 S) := by
  unfold Statement
  cases S <;> decide
theorem ill12 (S : Bool) : Statement (.ill12 S) := by
  unfold Statement
  cases S <;> decide
theorem ill13 (S : Bool) : Statement (.ill13 S) := by
  unfold Statement
  cases S <;> decide
theorem ill14 (S : Bool) : Statement (.ill14 S) := by
  unfold Statement
  cases S <;> decide
theorem ill15 (S : Bool) : Statement (.ill15 S) := by
  unfold Statement
  cases S <;> decide

/-- The family holds of every command. -/
theorem all (i : Instr) : Statement i := by
  cases i
  case nop => exact nop
  case enc S => exact enc S
  case dec S => exact dec S
  case enclen S => exact enclen S
  case declen S => exact declen S
  case ill5 S => exact ill5 S
  case ill6 S => exact ill6 S
  case ill7 S => exact ill7 S
  case ill8 S => exact ill8 S
  case ill9 S => exact ill9 S
  case ill10 S => exact ill10 S
  case ill11 S => exact ill11 S
  case ill12 S => exact ill12 S
  case ill13 S => exact ill13 S
  case ill14 S => exact ill14 S
  case ill15 S => exact ill15 S

end Sys2Proof.Laws.Assembler
end

