-- ==== Sys2Proof/Tests/Slice0.lean ====
section
/-! SUPPORT. Tests: expected values are the spec's own (95_test_vectors.md and the rules named), and for every obligation with
hypotheses a witness that meets them. -/

namespace Sys2Proof.Tests

open Sys2Proof.Machine Sys2Proof.Safety

/-! ### Helpers -/

/-- Bytes placed in memory from address `a` on. -/
def place (a : Nat) (bs : List Byte) : List Host.Cell := bs.zipIdx.map (fun p => (a + p.2, p.1)) |>.filter (·.2 != 0)

/-- An idle block with the source bytes at 0x1000, the destination at `dst`, a capacity, and the Vector Codec or not. -/
def mk (hv : Bool) (src : List Byte) (dst cap : Word) : State :=
  { State.reset with
    hasVector := hv
    regBase := 0x40000000
    srcAddr := 0x1000
    srcLen := BitVec.ofNat 32 src.length
    dstAddr := dst
    dstCap := cap
    mem := place 0x1000 src }

/-- The next state of an outcome. -/
def after (o : Host.Outcome State Fault Refusal) : Option State :=
  match o with
  | .next s => some s
  | .fault _ => none
  | .refused _ => none

/-- `STATUS`, `RESULT`, `ERR_INFO` after an outcome. -/
def shown (o : Host.Outcome State Fault Refusal) : Option (Word × Word × Word) :=
  (after o).map fun t => (t.status, t.result, t.errInfo)

def hello : List Byte := [0x68, 0x65, 0x6C, 0x6C, 0x6F, 0x0A]
def helloText : List Byte := [0x61, 0x47, 0x56, 0x73, 0x62, 0x47, 0x38, 0x4B]
/-- The bytes 00 .. n-1. -/
def ramp (n : Nat) : List Byte := (List.range n).map (BitVec.ofNat 8)
/-- "AAECAwQFBgcICQoLDA0ODxAREhMUFRYX", the first block of E48 (95 §2.9). -/
def block48 : List Byte :=
  [0x41, 0x41, 0x45, 0x43, 0x41, 0x77, 0x51, 0x46, 0x42, 0x67, 0x63, 0x49, 0x43, 0x51, 0x6F, 0x4C] ++
  [0x44, 0x41, 0x30, 0x4F, 0x44, 0x78, 0x41, 0x52, 0x45, 0x68, 0x4D, 0x55, 0x46, 0x52, 0x59, 0x58]
/-- E48 of 95 §2.11. -/
def e48 : List Byte :=
  block48 ++ [0x47, 0x42, 0x6B, 0x61, 0x47, 0x78, 0x77, 0x64, 0x48, 0x68, 0x38, 0x67, 0x49, 0x53, 0x49, 0x6A]

/-- An idle block that encodes "hello\n" with room for it. -/
def idleEnc : State := mk true hello 0x2000 8
/-- An idle block that decodes "aGVsbG8K" with room for it. -/
def idleDec : State := mk true helloText 0x2000 6
/-- A block that has accepted `ENC` and not run it yet. -/
def busyEnc : State := accepted (.enc false) .enc idleEnc
/-- `idleEnc` with the host's next move coming before the command ends. -/
def hurried : State := { idleEnc with inbox := [{ after := some 0, act := .regRead (.window 0x0C) .word }] }

/-! ### Decoding: words written out from 30 R100 (bit 8 `S`, bits 3..0 `OP`) and R110 -/

theorem test_decode_nop : decode 0b00000000000000000000000000000000 = .nop := by decide
theorem test_decode_enc : decode 0b00000000000000000000000000000001 = .enc false := by decide
theorem test_decode_enc_s : decode 0b00000000000000000000000100000001 = .enc true := by decide
theorem test_decode_dec : decode 0b00000000000000000000000000000010 = .dec false := by decide
theorem test_decode_dec_s : decode 0b00000000000000000000000100000010 = .dec true := by decide
theorem test_decode_enclen : decode 0b00000000000000000000000000000011 = .enclen false := by decide
theorem test_decode_declen : decode 0b00000000000000000000000000000100 = .declen false := by decide
theorem test_decode_ill5 : decode 0b00000000000000000000000000000101 = .ill5 false := by decide
theorem test_decode_ill6 : decode 0b00000000000000000000000000000110 = .ill6 false := by decide
theorem test_decode_ill7 : decode 0b00000000000000000000000000000111 = .ill7 false := by decide
theorem test_decode_ill8 : decode 0b00000000000000000000000000001000 = .ill8 false := by decide
theorem test_decode_ill9 : decode 0b00000000000000000000000000001001 = .ill9 false := by decide
theorem test_decode_ill10 : decode 0b00000000000000000000000000001010 = .ill10 false := by decide
theorem test_decode_ill11 : decode 0b00000000000000000000000000001011 = .ill11 false := by decide
theorem test_decode_ill12 : decode 0b00000000000000000000000000001100 = .ill12 false := by decide
theorem test_decode_ill13 : decode 0b00000000000000000000000000001101 = .ill13 false := by decide
theorem test_decode_ill14 : decode 0b00000000000000000000000000001110 = .ill14 false := by decide
theorem test_decode_ill15 : decode 0b00000000000000000000000000001111 = .ill15 false := by decide
/-- Reserved bits set: V-C24's word, and every reserved bit beside `OP` = 4 (30 R104). -/
theorem test_decode_reserved :
    decode 0b11111111111111111111111100000001 = .enc true ∧ decode 0b11111111111111111111111011110100 = .declen false := by
  decide
/-- Bytes that are no word are rejected by name (10 R34). -/
theorem test_decode_bytes :
    decodeBytes [0x03, 0x01, 0x00, 0x00] = .ok (.enclen true) ∧ decodeBytes [0x01] = .error (.notOneWord 1) := by
  decide
/-- The table's numbering: bit 0 is the least significant bit. -/
theorem test_decode_table : decodeTableWord 8 0x02 = some (.dec false) ∧ decodeTableWord 32 0x101 = some (.enc true) := by
  decide
/-- 30 R110: the assembler accepts these forms. -/
theorem test_encode : encode (.enc true) = 0x101 ∧ encode (.dec true) = 0x102 ∧ encode (.ill7 false) = 0x7 := by decide

/-- 30 R110: the assembler refuses `.s` where it has no meaning; one ill-formed term for each check. -/
theorem test_wellFormed_smoke :
    Instr.wellFormed (.enclen true) = false ∧ Instr.wellFormed (.declen true) = false ∧
    Instr.wellFormed (.ill5 true) = false ∧ Instr.wellFormed (.ill6 true) = false ∧
    Instr.wellFormed (.ill7 true) = false ∧ Instr.wellFormed (.ill8 true) = false ∧
    Instr.wellFormed (.ill9 true) = false ∧ Instr.wellFormed (.ill10 true) = false ∧
    Instr.wellFormed (.ill11 true) = false ∧ Instr.wellFormed (.ill12 true) = false ∧
    Instr.wellFormed (.ill13 true) = false ∧ Instr.wellFormed (.ill14 true) = false ∧
    Instr.wellFormed (.ill15 true) = false ∧ Instr.wellFormed (.enc true) = true := by
  decide

/-! ### Tables and datapath (95 §2.2, §2.7 to §2.9) -/

/-- V-T1. -/
theorem test_encLut :
    [encLut 0, encLut 25, encLut 26, encLut 51, encLut 52, encLut 61, encLut 62, encLut 63] =
      [0x41, 0x5A, 0x61, 0x7A, 0x30, 0x39, 0x2B, 0x2F] := by decide
/-- V-T2. -/
theorem test_decLut :
    [decLut 0x41, decLut 0x5A, decLut 0x61, decLut 0x7A, decLut 0x30, decLut 0x39, decLut 0x2B, decLut 0x2F] =
      [0, 25, 26, 51, 52, 61, 62, 63] := by decide
/-- V-T3. -/
theorem test_decLut_bad :
    [0x3D, 0x0A, 0x20, 0x40, 0x60, 0x7B, 0x80, 0xFF].all (fun c => decLut c == 0xFFFFFFFF) = true := by decide
/-- V-T6 to V-T9. -/
theorem test_derived_tables :
    encLut2 0x4D6 = 0x5754 ∧ decLut2 0x5457 = 0x4D6 ∧ decLut2 0x4675 = 0x16E ∧ decLut2 0x543D = 0xFFFFFFFF := by decide
/-- S12. -/
theorem test_split24 : (List.range 4).map (split24 0x4D616E) = [19, 22, 5, 46] := by decide
/-- 42 R173: the reshuffle as its two in-half masks. -/
theorem test_reshuffle_masks :
    encReshuffle (ramp 32) =
      [5, 4, 6, 5, 8, 7, 9, 8, 11, 10, 12, 11, 14, 13, 15, 14] ++
      ([1, 0, 2, 1, 4, 3, 5, 4, 7, 6, 8, 7, 10, 9, 11, 10].map (· + 16)) := by decide
/-- V-VE1: the sextets and indexes of the block 00 .. 17. -/
theorem test_sextets :
    encSextets (encReshuffle ([0, 0, 0, 0] ++ ramp 24 ++ [0, 0, 0, 0])) =
      [0, 0, 4, 2, 0, 48, 16, 5, 1, 32, 28, 8, 2, 16, 40, 11] ++
      [3, 0, 52, 14, 3, 49, 0, 17, 4, 33, 12, 20, 5, 17, 24, 23] := by decide
/-- V-VE1: the block's output. -/
theorem test_venc_block : encBlockChars ([0, 0, 0, 0] ++ ramp 24 ++ [0, 0, 0, 0]) = block48 := by decide
/-- 95 §2.8. -/
theorem test_charClass :
    [0x00, 0x20, 0x2A, 0x3A, 0x3D, 0x40, 0x5B, 0x60, 0x7B, 0x80, 0x2B, 0x2F, 0x39, 0x5A, 0x7A].map charClass =
      [0x01, 0x02, 0x02, 0x04, 0x04, 0x08, 0x10, 0x08, 0x10, 0x01, 0, 0, 0, 0, 0] := by decide
/-- V-VD1: `Q` as bytes, its first eight lanes. -/
theorem test_pack2 :
    (decPack2 (decPack1 (block48.map roll))).take 8 = [0x02, 0x01, 0x00, 0x00, 0x05, 0x04, 0x03, 0x00] := by decide
/-- V-VD1: the 24 bytes. -/
theorem test_vdec_block : decBlockBytes block48 = ramp 24 := by decide

/-! ### Commands, one step each -/

/-- V-C1 with `P_HAS_VECTOR` = 1. -/
theorem test_enc_hello : (after (exec (.enc false) idleEnc)).map (fun t => (t.status, t.destBytes 8)) = some (0x06, helloText) := by
  decide
/-- V-SE8 and P5: 26 bytes, one vector block and a 2-byte tail; the tail is "GBk=". -/
theorem test_enc_block_and_tail :
    (after (exec (.enc false) (mk true (ramp 26) 0x2000 36))).map (fun t => (t.result, (t.destBytes 36).drop 32)) =
      some (36, [0x47, 0x42, 0x6B, 0x3D]) := by decide +kernel
/-- V-C14: 7 bytes "helllo\n", the two bytes after them untouched. -/
theorem test_dec_padded :
    (after (exec (.dec true) (mk true [0x61, 0x47, 0x56, 0x73, 0x62, 0x47, 0x78, 0x76, 0x43, 0x67, 0x3D, 0x3D] 0x2000 9))).map
      (fun t => (t.status, t.result, t.destBytes 9)) =
      some (0x02, 7, [0x68, 0x65, 0x6C, 0x6C, 0x6C, 0x6F, 0x0A, 0, 0]) := by decide
/-- V-F1: the first block fails `VDEC_VALID`; quartet 3. -/
theorem test_dec_fallback : shown (exec (.dec false) (mk true (e48.set 13 0x20) 0x4000 36)) = some (0x26, 0, 3) := by
  decide +kernel
/-- V-L7. -/
theorem test_enclen_most :
    shown (exec (.enclen false) { mk true [] 0 0 with srcLen := 0xBFFFFFFD }) = some (0x02, 0xFFFFFFFC, 0) := by decide
/-- V-L8. -/
theorem test_enclen_overflow :
    shown (exec (.enclen false) { mk true [] 0 0 with srcLen := 0xBFFFFFFE }) = some (0x62, 0, 0) := by decide
/-- V-L14. -/
theorem test_declen_most :
    shown (exec (.declen false) { mk true [] 0 0 with srcLen := 0xFFFFFFFF }) = some (0x02, 0xBFFFFFFD, 0) := by decide
/-- V-C22: `IllegalCommand`, and `CMD` reads back the word. -/
theorem test_ill7 : (after (exec (.ill7 false) idleEnc)).map (fun t => (t.status, readReg .cmd t)) = some (0x52, 0x007) := by
  decide
/-- V-C25: `NOP` after V-C22. -/
theorem test_nop : shown (exec .nop { idleEnc with err := 5, done := true }) = some (0x52, 0, 0) := by decide
/-- V-C26. -/
theorem test_nop_busy : (after (exec .nop busyEnc)).map (·.ovr) = some true := by decide

/-! ### Checks and errors (95 §2.5, §2.6) -/

/-- V-C2, V-C4, V-C5. -/
theorem test_enc_checks :
    shown (exec (.enc false) (mk false hello 0x2000 7)) = some (0x32, 8, 0) ∧
    shown (exec (.enc false) { mk false [] 0x2000 0 with srcLen := 0xBFFFFFFE }) = some (0x62, 0, 0) ∧
    shown (exec (.enc false) (mk false (ramp 26) 0x1010 36)) = some (0x72, 0, 0) := by decide
/-- V-C7 and V-C8: the top of the address space. -/
theorem test_enc_top :
    shown (exec (.enc false) { mk false [] 0x2000 4 with srcAddr := 0xFFFFFFFE, srcLen := 2 }) = some (0x02, 4, 0) ∧
    shown (exec (.enc false) { mk false [] 0x2000 4 with srcAddr := 0xFFFFFFFF, srcLen := 2 }) = some (0x72, 0, 0) := by
  decide
/-- V-C10: only address 0x1003 fails. -/
theorem test_enc_bus_error :
    shown (exec (.enc false) { idleEnc with bus := { Bus.reset with rdErr := [0x1003] } }) = some (0x46, 0, 0x1003) := by
  decide
/-- V-C15, V-C16, V-C17. -/
theorem test_dec_checks :
    shown (exec (.dec false) { mk false helloText 0x1000 0 with srcLen := 5 }) = some (0x12, 0, 0) ∧
    shown (exec (.dec false) (mk false helloText 0x1000 5)) = some (0x32, 6, 0) ∧
    shown (exec (.dec false) (mk false [] 0 0)) = some (0x02, 0, 0) := by decide
/-- V-SD9, V-SD14: "A===" and "AAAA====". -/
theorem test_dec_invalid :
    shown (exec (.dec false) (mk false [0x41, 0x3D, 0x3D, 0x3D] 0x2000 3)) = some (0x22, 0, 0) ∧
    shown (exec (.dec false) (mk false [0x41, 0x41, 0x41, 0x41, 0x3D, 0x3D, 0x3D, 0x3D] 0x2000 6)) = some (0x22, 0, 1) := by
  decide

/-! ### Steps: the port, the schedule, reset -/

/-- A step of the machine whose next move is `act`. -/
def stepWith (act : HostAct) (s : State) : Option State := after (step { s with inbox := [{ after := some 0, act := act }] })

/-- P1: the write of 0x1 to `CMD` at `REG_BASE` + 0x08 runs `ENC`; `irq` with `DONE_IE`. -/
theorem test_step_command :
    (stepWith (.regWrite (.bus 0x40000008) .word 0x1) { idleEnc with doneIE := true }).map (fun t => (t.status, t.irq)) =
      some (0x06, true) := by decide
/-- From reset: a placed word runs as the next step. -/
theorem test_step_from_reset :
    (after (step (State.reset.withFetchWord 8 0x07))).map (fun t => (t.err, t.done)) = some (5, true) := by decide
/-- P5: an operand write while busy is lost and sets `OVR`. -/
theorem test_step_lost_write :
    (stepWith (.regWrite (.window 0x14) .word 0) busyEnc).map (fun t => (t.srcLen, t.ovr)) = some (6, true) := by decide
/-- 10 R36: `CAP`; 10 R35: `ID`; 10 R34: a byte access. -/
theorem test_step_reads :
    (stepWith (.regRead (.window 0x04) .word) idleEnc).map (·.resp) = some { data := 0x00201801, err := false } ∧
    (stepWith (.regRead (.window 0x00) .word) idleEnc).map (·.resp) = some { data := 0x42363401, err := false } ∧
    (stepWith (.regRead (.window 0x00) .byte) idleEnc).map (·.resp) = some { data := 0, err := true } := by decide
/-- P5 statement 14: `wr STATUS, 0xA`. -/
theorem test_step_acknowledge :
    (stepWith (.regWrite (.window 0x0C) .word 0xA) { idleEnc with done := true, ovr := true, vsel := true }).map (·.status) =
      some 0x04 := by decide
/-- 70 R261: reset while busy leaves no record. -/
theorem test_step_reset :
    (stepWith .rstAssert busyEnc).map (fun t => (t.status, t.srcLen, t.rst)) = some (0, 0, true) := by decide
/-- 70 R265: another agent writes the source of the running command. -/
theorem test_step_disturbed :
    (stepWith (.memWrite 0x1005 0) busyEnc).map (·.tainted) = some true ∧
    (stepWith (.memWrite 0x1006 0) busyEnc).map (·.tainted) = some false := by decide

/-! ### Witnesses: for every obligation with hypotheses, states and operands that meet them together -/

theorem witness_ReservedBitsIgnored :
    ∃ t, idleEnc.phase = .idle ∧ decode 0xFFFFFFF7 ≠ .nop ∧ exec (decode 0xFFFFFFF7) idleEnc = .next t :=
  ⟨_, by decide, by decide, rfl⟩

theorem witness_DecodeByOpcodeField :
    opField 0x110 = 0x0 ∧ opField 0xFF1 = 0x1 ∧ opField 0x102 = 0x2 ∧ opField 0x3 = 0x3 ∧ opField 0x4 = 0x4 ∧
    5 ≤ (opField 0x5).toNat ∧ 5 ≤ (opField 0xF).toNat := by decide

theorem witness_ResetAbortsCommand :
    busyEnc.phase = .run ∧ 7 < busyEnc.openLen ∧
    ({ busyEnc with inbox := [{ after := some 0, act := .rstAssert }] } : State).inbox =
      [{ after := some 0, act := .rstAssert }] := by decide

theorem witness_ResetHoldsBlock :
    (resetBlock idleEnc).rst = true ∧ (resetBlock idleEnc).phase = .idle ∧ (0xFC : Byte).toNat % 4 = 0 ∧
    dueNow none (resetBlock idleEnc) := by decide

theorem witness_StepRunsDecodedCommand :
    idleEnc.rst = false ∧ dueNow none idleEnc ∧ dueNow (some 0) busyEnc ∧ busyEnc.rst = false := by decide

theorem witness_PlacedWordRunsNext : decodeTableWord 8 0x0F = some (.ill15 false) := by decide

theorem witness_StepIsEngineStep :
    (idleEnc.phase = .idle ∧ idleEnc.inbox = []) ∧ (busyEnc.phase = .run ∧ busyEnc.hostWaits = true) ∧
    ({ busyEnc with inbox := [{ after := some 1, act := .rstAssert }] } : State).inbox =
      [{ after := some (0 + 1), act := .rstAssert }] := by decide

theorem witness_OperandWritesWhileIdle : idleEnc.phase = .idle ∧ idleEnc.rst = false := by decide

theorem witness_WritesWhileBusy :
    busyEnc.phase = .run ∧ busyEnc.rst = false ∧ (0x08 : Byte) ∈ [(0x08 : Byte), 0x10, 0x14, 0x18, 0x1C] ∧
    (0x1C : Byte) ∈ [(0x08 : Byte), 0x10, 0x14, 0x18, 0x1C] := by decide

theorem witness_AcknowledgeClearsDone :
    dueNow (some 0) busyEnc ∧ busyEnc.rst = false ∧ (0x2 : Word).getLsbD 1 = true := by decide

theorem witness_ReadsReturnRegisters :
    dueNow none idleEnc ∧ idleEnc.rst = false ∧ (0x28 : Byte).toNat % 4 = 0 ∧ 0x2C ≤ (0x2C : Byte).toNat := by decide

theorem witness_ReadOnlyWritesIgnored :
    dueNow none idleEnc ∧ (0x24 : Byte).toNat % 4 = 0 ∧ (0x24 : Byte) ∈ [(0x00 : Byte), 0x04, 0x20, 0x24] ∧
    (0x2C : Byte).toNat % 4 = 0 ∧ 0x2C ≤ (0x2C : Byte).toNat ∧ (0xFC : Byte).toNat % 4 = 0 := by decide

theorem witness_IllegalAccessRefused :
    dueNow none idleEnc ∧ AccessSize.half ≠ .word ∧ (0x0A : Byte).toNat % 4 ≠ 0 := by decide

theorem witness_AcceptanceRecord :
    (hurried.phase = .idle ∧ hurried.hostWaits = false ∧ opOf (decode 0x101) = some .enc) ∧
    opOf (decode 0x100) = none ∧ busyEnc.phase = .run := by decide

theorem witness_NopDoesNothing : opField 0x1F0 = 0 ∧ idleEnc.phase = .idle ∧ busyEnc.phase = .run := by decide

theorem witness_BusyCommandLost : busyEnc.phase = .run := by decide

theorem witness_PathChosenByCapability :
    ∃ t t', idleEnc.phase = .idle ∧ Instr.enc false ≠ .nop ∧ exec (.enc false) idleEnc = .next t ∧ t.vsel = true ∧
      exec (.enc true) idleEnc = .next t' ∧ t'.vsel = false :=
  ⟨_, _, by decide, by decide, rfl, by decide, rfl, by decide⟩

theorem witness_BusyOrDoneAfterCommand :
    ∃ t t', exec (.enc false) hurried = .next t ∧ t.busy = true ∧ exec (.enc false) idleEnc = .next t' ∧ t'.busy = false :=
  ⟨_, _, rfl, by decide, rfl, by decide⟩

theorem witness_EnclenResult :
    idleWaiting idleEnc ∧ idleEnc.len < 0xBFFFFFFE ∧ idleWaiting { idleEnc with srcLen := 0xBFFFFFFE } ∧
    0xBFFFFFFE ≤ State.len { idleEnc with srcLen := 0xBFFFFFFE } ∧
    State.len { idleEnc with srcLen := 0xBFFFFFFD } < 0xBFFFFFFE := by decide

theorem witness_DeclenResult : idleWaiting { idleEnc with srcLen := 0xFFFFFFFF } := by decide

theorem witness_IllegalCompletes : idleWaiting idleEnc := by decide

theorem witness_EncCheckErrors :
    (idleWaiting (mk true hello 0x2000 7) ∧ ¬ encReady (mk true hello 0x2000 7)) ∧
    ¬ encReady { mk true [] 0x2000 0 with srcLen := 0xBFFFFFFE } ∧ ¬ encReady (mk true (ramp 26) 0x1010 36) := by decide

theorem witness_DecCheckErrors :
    (idleWaiting (mk true [] 0 0) ∧ ¬ decReady (mk true [] 0 0)) ∧
    ¬ decReady { mk true helloText 0x2000 6 with srcLen := 7 } ∧ ¬ decReady (mk true helloText 0x2000 5) ∧
    ¬ decReady (mk true helloText 0x1007 6) := by decide

theorem witness_EncWritesEncoding : idleWaiting idleEnc ∧ encReady idleEnc ∧ quietBus (encodeLen idleEnc.len) idleEnc := by
  decide

/-- The longest source a destination right behind it allows (V-C9: adjacent, disjoint), a vector block in it. -/
theorem witness_EncWritesEncoding_adjacent :
    idleWaiting (mk true (ramp 26) 0x101A 36) ∧ encReady (mk true (ramp 26) 0x101A 36) ∧
    quietBus 36 (mk true (ramp 26) 0x101A 36) := by decide

theorem witness_DecWritesDecoding :
    idleWaiting idleDec ∧ decReady idleDec ∧ quietBus (decodeLen idleDec.len) idleDec ∧
    decodeRef idleDec.sourceBytes = .ok hello := by
  refine ⟨by decide, by decide, by decide, rfl⟩

theorem witness_DecReportsLeastQuartet :
    idleWaiting (mk true (e48.set 13 0x20) 0x4000 36) ∧ decReady (mk true (e48.set 13 0x20) 0x4000 36) ∧
    quietBus 36 (mk true (e48.set 13 0x20) 0x4000 36) ∧
    decodeRef (mk true (e48.set 13 0x20) 0x4000 36).sourceBytes = .error 3 := by
  refine ⟨by decide, by decide, by decide, rfl⟩

/-- `idleEnc` and `idleDec` on a platform where a read at 0x1003 or a write at 0x2001 fails. -/
def failing (s : State) : State := { s with bus := { Bus.reset with rdErr := [0x1003], wrErr := [0x2001] } }

theorem witness_EncBusErrorIsUnknown :
    idleWaiting (failing idleEnc) ∧ encReady (failing idleEnc) ∧ (failing idleEnc).bus.answers = true ∧
    (failing idleEnc).bus.volatile.any (fun a => inRegion 0x1000 6 a.toNat) = false ∧
    (failing idleEnc).bus.rdErr.any (fun a => inRegion 0x1000 6 a.toNat) = true ∧
    (failing idleEnc).bus.wrErr.any (fun a => inRegion 0x2000 8 a.toNat) = true := by decide

theorem witness_DecBusErrorOrInvalid :
    idleWaiting (failing idleDec) ∧ decReady (failing idleDec) ∧ (failing idleDec).bus.answers = true ∧
    (failing idleDec).bus.volatile.any (fun a => inRegion 0x1000 8 a.toNat) = false ∧
    (failing idleDec).bus.rdErr.any (fun a => inRegion 0x1000 8 a.toNat) = true ∧
    (failing idleDec).bus.wrErr.any (fun a => inRegion 0x2000 (6 - (failing idleDec).padCount.val) a.toNat) = true := by
  decide

/-- The only failing transfer is the write of the last byte: "aGVsbG8K" has no pad character, so `dst` + 5 is written. -/
theorem test_dec_write_error :
    shown (exec (.dec false) { idleDec with bus := { Bus.reset with wrErr := [0x2005] } }) =
      some (0x46, 0, 0x2005) := by decide +kernel

theorem witness_CommandFrame : ∃ t, idleEnc.phase = .idle ∧ exec (.enc false) idleEnc = .next t := ⟨_, by decide, rfl⟩

theorem witness_VectorScalarParity :
    idleWaiting idleEnc ∧ quietBus (encodeLen idleEnc.len) idleEnc ∧ idleWaiting idleDec ∧
    quietBus (decodeLen idleDec.len) idleDec := by decide

theorem witness_AlphabetTablesInverse : validChar 0x2F = true := by decide

theorem witness_PaddingBitsIgnored :
    validChar 0x45 = true ∧ validChar 0x46 = true ∧ (decLut 0x45).toNat / 4 = (decLut 0x46).toNat / 4 ∧
    validChar 0x51 = true ∧ validChar 0x52 = true ∧ (decLut 0x51).toNat / 16 = (decLut 0x52).toNat / 16 := by decide

theorem witness_EncBlockIsEightTriplets : (ramp 32).length = 32 := by decide

theorem witness_EncodingShape : (ramp 25).length % 3 = 1 ∧ (ramp 26).length % 3 = 2 := by decide

theorem witness_ChunksConcatenate : ∀ b ∈ [ramp 3, ramp 6], b.length % 3 = 0 := by decide

/-- "ab$dTWFu": quartet 0 is invalid; "abcdTWF$": quartet 1 is, in its last character. -/
theorem witness_ErrorNamesLeastQuartet :
    decodeRef [0x61, 0x62, 0x24, 0x64, 0x54, 0x57, 0x46, 0x75] = .error 0 ∧
    decodeRef [0x61, 0x62, 0x63, 0x64, 0x54, 0x57, 0x46, 0x24] = .error 1 := by
  constructor <;> rfl

/-- "ab=d": a pad character at `m - 2` with none after it. -/
theorem witness_PaddingOnlyAtTheEnd :
    ∃ (cs : List Byte) (i : Nat), cs.length % 4 = 0 ∧ i < cs.length ∧ cs.getD i 0 = padChar ∧
      i + (padOf (cs.getD (cs.length - 2) 0) (cs.getD (cs.length - 1) 0)).val < cs.length :=
  ⟨[0x61, 0x62, 0x3D, 0x64], 2, by decide⟩

theorem witness_DecBlockIsEightQuartets : block48.length = 32 ∧ ∀ b ∈ block48, validChar b = true := by decide

/-- The state right after acceptance meets the invariant. -/
theorem busyEnc_inv : Inv busyEnc where
  memory := by decide
  command := by decide
  code := by decide
  path := by decide
  running := by decide
  checked := fun _ h => absurd rfl h
  cursors := fun _ => ⟨rfl, rfl⟩
  inReset := fun h => absurd h (by decide)

theorem witness_EngineWritesOnlyDestination : Inv busyEnc ∧ busyEnc.phase = .run := ⟨busyEnc_inv, rfl⟩

/-- A running block at its last engine step. -/
def finishing : State := { busyEnc with stage := .finish, inOff := 6, outOff := 8 }

theorem witness_CompletionRecord :
    finishing.phase = .run ∧ finishing.tainted = false ∧ (engineStep finishing).phase = .idle := by decide

theorem witness_CommandCompletes :
    Inv busyEnc ∧ busyEnc.phase = .run ∧ busyEnc.hostWaits = true ∧ busyEnc.bus.answers = true :=
  ⟨busyEnc_inv, by decide, by decide, by decide⟩

theorem witness_SilentPortStalls :
    ∃ s : State, s.phase = .run ∧ s.needsBus = true ∧ s.bus.answers = false :=
  ⟨{ busyEnc with stage := .scalar, bus := { Bus.reset with answers := false } }, by decide⟩

theorem witness_BufferWriteDisturbs :
    busyEnc.phase = .run ∧ busyEnc.inSource 0x1005 = true ∧ busyEnc.inDest 0x2007 = true ∧
    busyEnc.inSource 0x1006 = false ∧ busyEnc.inDest 0x2008 = false := by decide

/-- Byte 0x1003 fails now and did not before, and byte 0x1004 the other way round: 20 R90 admits success and either error. -/
def changed : State :=
  { finishing with bus := { Bus.reset with rdErr := [0x1003] }, earlier := [{ Bus.reset with rdErr := [0x1004] }] }

theorem witness_LastStepAdmitsEveryOrder :
    finishing.phase = .run ∧ finishing.stage = .finish ∧ finishing.tainted = false ∧ failingAddrs finishing = [] ∧
    changed.phase = .run ∧ changed.stage = .finish ∧ changed.tainted = false ∧
    failingAddrs changed = [0x1003, 0x1004] ∧ mustFail changed = false ∧
    mustFail { changed with earlier := [{ Bus.reset with rdErr := [0x1003] }] } = true := by decide

/-- A source byte becomes volatile while the scalar loop runs (20 R91). -/
theorem witness_PlatformChangeWhileBusy :
    ({ busyEnc with stage := .scalar } : State).phase = .run ∧ ({ busyEnc with stage := .scalar } : State).stage ≠ .check ∧
    ({ Bus.reset with volatile := [0x1005] } : Bus).volatile.any busyEnc.inSource = true ∧ busyEnc.stage = .check ∧
    idleEnc.phase = .idle ∧ dueNow (some 0) busyEnc ∧ busyEnc.phase = .run := by decide

/-- Both cases of the last clause: the last source byte is volatile when processing starts, or the byte after it is. -/
theorem witness_PlatformChangeWhileBusy_start :
    PastChecks busyEnc ∧ busyEnc.tainted = false ∧
    ({ Bus.reset with volatile := [0x1005] } : Bus).volatile.any busyEnc.inSource = true ∧
    ({ Bus.reset with volatile := [0x1006] } : Bus).volatile.any busyEnc.inSource = false := by
  refine ⟨?_, by decide⟩
  change encReady busyEnc
  decide

/-- The last byte of the window, and the bytes just past it and just below it. -/
theorem witness_BusAccessIsWindowAccess :
    dueNow none idleEnc ∧ 256 ≤ (idleEnc.regBase + 0x100 - idleEnc.regBase).toNat ∧
    256 ≤ (idleEnc.regBase - 1 - idleEnc.regBase).toNat := by decide

/-- `Unknown` for a byte that failed only before the change, where transfers were combined only then: the address may be that
of the combined transfer (60 R235); where they are combined only after the change, it is the byte's own. -/
theorem test_combined_by_environment :
    mayBeCombined { finishing with earlier := [{ Bus.reset with rdErr := [0x1004], combined := true }] } 0x1004 = true ∧
    mayBeCombined { finishing with
      bus := { Bus.reset with combined := true }
      earlier := [{ Bus.reset with rdErr := [0x1004] }] } 0x1004 = false := by decide

theorem witness_DisturbedCommandEndsFree :
    ∃ s : State, s.phase = .run ∧ s.tainted = true ∧ (engineStep s).phase = .idle ∧ 0 < s.openLen :=
  ⟨{ finishing with tainted := true }, by decide⟩

theorem witness_DestinationReadWhileBusy :
    dueNow (some 0) busyEnc ∧ busyEnc.inDest 0x2007 = true ∧ busyEnc.inDest 0x2008 = false ∧ dueNow none idleEnc := by
  decide

theorem witness_StepKeepsInvariant : ∃ t, Inv busyEnc ∧ step busyEnc = .next t := ⟨_, busyEnc_inv, rfl⟩

end Sys2Proof.Tests
end

section
/-! The schedule of a step with no host move due (00 R11, 60 R250). -/

namespace Sys2Proof.Machine

/-- A turn that is no command is the step's next state. -/
theorem step_of_nextTurn_other {s t : State} (h : nextTurn s = .other t) : step s = .next t := by
  simp [step, h]

@[simp] theorem engineStep_idle {s : State} (h : s.phase = .idle) : engineStep s = s := by
  simp [engineStep, h]

theorem nextTurn_empty {s : State} (h : s.inbox = []) : nextTurn s = .other (engineStep s) := by
  simp [nextTurn, h]

/-- A host move that comes later is one engine step nearer after the step. -/
theorem nextTurn_later {s : State} {k : Nat} {act : HostAct} {rest : List HostMove} (hr : s.phase = .run)
    (h : s.inbox = { after := some (k + 1), act := act } :: rest) :
    nextTurn s = .other (engineStep { s with inbox := { after := some k, act := act } :: rest }) := by
  simp [nextTurn, h, busy_of_run hr]

/-- Settles O10: in each clause the schedule gives the turn to the engine, and an idle engine's step changes nothing. -/
theorem stepIsEngineStep : Obligations.StepIsEngineStep := by
  refine ⟨fun s hi hb => ?_, fun s hr hw => ?_, fun s k act rest hr hb => ?_⟩
  · have ht : nextTurn s = .other s := by rw [nextTurn_empty hb, engineStep_idle hi]
    exact step_of_nextTurn_other ht
  · exact step_of_nextTurn_other (nextTurn_waits hr hw)
  · exact step_of_nextTurn_other (nextTurn_later hr hb)

end Sys2Proof.Machine
end

section
/-! A command's word: the fields of an encoded word, and decoding, which sees only the bits of `CMDW` (30 R100, R104). -/

namespace Sys2Proof

@[simp] theorem opField_cmdWord : ∀ (op : BitVec 4) (S : Bool), opField (cmdWord op S) = op := by decide

@[simp] theorem sField_cmdWord : ∀ (op : BitVec 4) (S : Bool), sField (cmdWord op S) = S := by decide

theorem decode_encode (i : Instr) : decode (encode i) = i := by
  cases i <;> simp [decode, encode, Instr.op, Instr.forceScalar]

theorem decode_congr {v w : Word} (hop : opField v = opField w) (hS : sField v = sField w) : decode v = decode w := by
  simp only [decode, hop, hS]

/-- The bits that `CMD` keeps are those that decoding reads. -/
theorem decode_and_cmdMask (w : Word) : decode (w &&& 0x0000010F) = decode w := by
  have hmask : ∀ i < 4, (0x10F#32).getLsbD i = true := by decide
  refine decode_congr ?_ (by simp [sField])
  ext i hi
  simp [opField, hmask i hi]

end Sys2Proof
end

section
/-! What a step can be, and what a command word does while busy and while idle. -/

namespace Sys2Proof.Machine

/-- Everything a step can be: a command, a host's move, or an engine step, each with some moves still pending. -/
theorem step_cases {s t : State} (h : step s = .next t) :
    (∃ w inbox, s.rst = false ∧ exec (decode w) (answer 0 false { s with inbox := inbox }) = .next t) ∨
    (∃ act inbox, t = hostAct act { s with inbox := inbox }) ∨
    ∃ inbox, t = engineStep { s with inbox := inbox } := by
  rcases nextTurn_cases s with ⟨m, rest, -, hturn⟩ | ⟨inbox, hturn⟩
  · rcases moveTurn_cases m.act { s with inbox := rest } with ⟨w, hrst, hmove⟩ | hmove <;> rw [hmove] at hturn
    · simp only [step, hturn] at h
      exact .inl ⟨w, rest, hrst, h⟩
    · rw [step_of_nextTurn_other hturn, Host.Outcome.next.injEq] at h
      exact .inr (.inl ⟨m.act, rest, h.symm⟩)
  · rw [step_of_nextTurn_other hturn, Host.Outcome.next.injEq] at h
    exact .inr (.inr ⟨inbox, h.symm⟩)

theorem eq_nop_of_opOf {i : Instr} (h : Safety.opOf i = none) : i = .nop := by
  cases i with
  | nop => rfl
  | _ => simp [Safety.opOf] at h

/-- Every command written while busy, `NOP` too, is lost. -/
theorem exec_busy {s : State} (h : s.phase = .run) (i : Instr) : exec i s = .next (setOvr s) := by
  cases hi : Safety.opOf i with
  | none => simp [eq_nop_of_opOf hi, exec, execNop, busy_of_run h]
  | some op => simp [exec_eq_command hi, command, busy_of_run h]

theorem exec_nop_idle {s : State} (h : s.phase = .idle) : exec .nop s = .next s := by
  simp [exec, execNop, busy_of_idle h]

/-- A command written while idle is accepted, and some number of engine steps follow. -/
theorem command_idle {s : State} (h : s.phase = .idle) (i : Instr) (op : Op) :
    ∃ k, command i op s = runFor k (accept (encode i) op i.forceScalar s) := by
  simp only [command, busy_of_idle h, Bool.false_eq_true, if_false]
  split
  · exact ⟨_, rfl⟩
  · exact ⟨0, rfl⟩

theorem vector_of_selectPath {op : Op} {S hv : Bool} (h : selectPath op S hv = true) :
    hv = true ∧ (op = .enc ∨ op = .dec) := by
  simp only [selectPath, Bool.and_eq_true, Bool.or_eq_true, beq_iff_eq] at h
  obtain ⟨⟨hop, hhv⟩, -⟩ := h
  exact ⟨hhv, hop⟩

/-- Another agent's write beside an idle engine changes only the byte. -/
theorem otherWrite_idle {s : State} (h : s.phase = .idle) (a : Word) (v : Byte) :
    otherWrite a v s = { s with mem := Mem.set s.mem a.toNat v } := by
  simp [otherWrite, busy_of_idle h]

end Sys2Proof.Machine
end

section
/-! Every step keeps the invariant: the updates that keep it, then each kind of step. -/

namespace Sys2Proof.Safety

open Sys2Proof.Machine

/-! ### Updates that keep the invariant -/

/-- The invariant says nothing about what lies outside the block, but that memory is canonical. -/
theorem Inv.environment {s : State} (h : Inv s) {mem : List Host.Cell} (hm : Mem.wf mem) (bus : Bus)
    (inbox : List HostMove) (resp : Resp) (draws : Nat) :
    Inv { s with mem := mem, bus := bus, inbox := inbox, resp := resp, draws := draws } where
  memory := hm
  command := h.command
  code := h.code
  path := h.path
  running := h.running
  checked := h.checked
  cursors := h.cursors
  inReset := fun hr => congrArg
    (fun u : State => { u with mem := mem, bus := bus, inbox := inbox, resp := resp, draws := draws }) (h.inReset hr)

/-- Out of reset it says nothing about the flags a host may write and the marks of a disturbed command either, but that
`DONE` is 0 while a command runs. -/
theorem Inv.flags {s : State} (h : Inv s) (hr : s.rst = false) {mem : List Host.Cell} (hm : Mem.wf mem) {done : Bool}
    (hd : s.done = false → done = false) (ovr doneIE : Bool) (bus : Bus) (earlier : List Bus) (tainted : Bool) :
    Inv { s with mem := mem, done := done, ovr := ovr, doneIE := doneIE, bus := bus, earlier := earlier,
                 tainted := tainted } where
  memory := hm
  command := h.command
  code := h.code
  path := h.path
  running := fun hp => by
    obtain ⟨hdone, hrest⟩ := h.running hp
    exact ⟨hd hdone, hrest⟩
  checked := h.checked
  cursors := h.cursors
  inReset := fun hr' => absurd (hr.symm.trans hr') Bool.false_ne_true

/-- An idle block out of reset meets it with any operands. -/
theorem Inv.of_idle {s t : State} (h : Inv s) (hi : t.phase = .idle) (hr : t.rst = false) (hm : Mem.wf t.mem)
    (hcmd : t.cmd = s.cmd) (hcode : t.err.toNat < 8) (hvsel : t.vsel = s.vsel) (hv : t.hasVector = s.hasVector) :
    Inv t where
  memory := hm
  command := by rw [hcmd]; exact h.command
  code := hcode
  path := by rw [hvsel, hv]; exact h.path
  running := by simp [hi]
  checked := by simp [hi]
  cursors := by simp [hi]
  inReset := by simp [hr]

/-- The reset state meets it, whatever memory holds. -/
theorem inv_resetBlock {s : State} (hm : Mem.wf s.mem) : Inv (resetBlock s) where
  memory := hm
  command := ⟨(by decide : (0 : Word) &&& 0x0000010F = 0), .inl rfl⟩
  code := (by decide : (0 : BitVec 4).toNat < 8)
  path := fun h => absurd h Bool.false_ne_true
  running := fun h => by cases h
  checked := fun h => by cases h
  cursors := fun h => by cases h
  inReset := fun _ => rfl

theorem Inv.rst_of_run {s : State} (h : Inv s) (hp : s.phase = .run) : s.rst = false := by
  obtain ⟨-, -, -, -, -, hrst, -⟩ := h.running hp
  exact hrst

theorem Inv.setOvr {s : State} (h : Inv s) (hr : s.rst = false) : Inv (setOvr s) :=
  h.flags hr h.memory id true s.doneIE s.bus s.earlier s.tainted

theorem Inv.answer {s : State} (h : Inv s) (data : Word) (err : Bool) : Inv (answer data err s) :=
  h.environment h.memory s.bus s.inbox _ s.draws

theorem Inv.inbox {s : State} (h : Inv s) (inbox : List HostMove) : Inv { s with inbox := inbox } :=
  h.environment h.memory s.bus inbox s.resp s.draws

/-! ### Engine steps and commands -/

theorem Inv.ended {s t : State} (h : Inv s) (hp : s.phase = .run) (e : Ended s t) : Inv t :=
  h.of_idle e.phase (e.setup.rst.trans (h.rst_of_run hp)) (e.wf h.memory) e.cmd e.code e.vsel e.setup.hasVector

theorem Inv.going {s t : State} (h : Inv s) (hp : s.phase = .run) (g : Going s t) (hc : PastChecks t)
    (hcur : CursorsOk t) : Inv t where
  memory := g.wf h.memory
  command := by rw [g.cmd]; exact h.command
  code := by rw [g.err]; exact h.code
  path := by rw [g.vsel, g.setup.hasVector]; exact h.path
  running := fun _ => by
    rw [g.done, g.err, g.result, g.errInfo, g.vsel, g.sel, g.setup.rst, g.op]
    exact h.running hp
  checked := fun _ _ => hc
  cursors := fun _ => hcur
  inReset := by simp [g.setup.rst, h.rst_of_run hp]

/-- An engine step keeps the invariant. -/
theorem Inv.engineStep {s : State} (h : Inv s) : Inv (engineStep s) := by
  cases hp : s.phase with
  | idle => rwa [engineStep_idle hp]
  | run =>
    rcases engineStep_cases hp (h.checked hp) (h.cursors hp) with e | e | ⟨g, hc, hcur⟩
    · rwa [e]
    · exact h.ended hp e
    · exact h.going hp g hc hcur

theorem Inv.runFor {s : State} (h : Inv s) (k : Nat) : Inv (runFor k s) := by
  induction k generalizing s with
  | zero => exact h
  | succ k ih =>
    unfold Machine.runFor
    split
    · exact h
    · exact ih h.engineStep

/-- Acceptance keeps the invariant: the record is empty, the checks are still to come and the cursors are 0. -/
theorem Inv.accept {s : State} (h : Inv s) (hr : s.rst = false) {i : Instr} {op : Op} (hi : opOf i = some op) :
    Inv (accept (encode i) op i.forceScalar s) where
  memory := h.memory
  command := by
    rw [accept_cmd, BitVec.and_assoc, BitVec.and_self, decode_and_cmdMask, decode_encode]
    exact ⟨rfl, .inr fun hn => by simp [hn, opOf] at hi⟩
  code := (by decide : (0 : BitVec 4).toNat < 8)
  path := fun hv => (vector_of_selectPath hv).1
  running := fun _ => ⟨rfl, rfl, rfl, rfl, rfl, hr, fun hv => (vector_of_selectPath hv).2⟩
  checked := fun _ hst => absurd rfl hst
  cursors := fun _ => ⟨rfl, rfl⟩
  inReset := by simp [hr]

/-- A command word keeps the invariant out of reset. -/
theorem Inv.exec {s t : State} (h : Inv s) (hr : s.rst = false) {i : Instr} (he : exec i s = .next t) : Inv t := by
  cases hp : s.phase with
  | run =>
    rw [exec_busy hp, Host.Outcome.next.injEq] at he
    exact he ▸ h.setOvr hr
  | idle =>
    cases hi : opOf i with
    | none =>
      rw [eq_nop_of_opOf hi, exec_nop_idle hp, Host.Outcome.next.injEq] at he
      exact he ▸ h
    | some op =>
      obtain ⟨k, hk⟩ := command_idle hp i op
      rw [exec_eq_command hi, Host.Outcome.next.injEq, hk] at he
      exact he ▸ (h.accept hr hi).runFor k

/-! ### The host's moves -/

/-- An operand write keeps the invariant: while busy it is lost, while idle any operands do. -/
theorem Inv.operandWrite {s : State} (h : Inv s) (hr : s.rst = false) (srcAddr srcLen dstAddr dstCap : Word) :
    Inv (if s.busy then Machine.setOvr s
      else { s with srcAddr := srcAddr, srcLen := srcLen, dstAddr := dstAddr, dstCap := dstCap }) := by
  cases hp : s.phase with
  | idle =>
    rw [busy_of_idle hp, if_neg Bool.false_ne_true]
    exact h.of_idle rfl hr h.memory rfl h.code rfl rfl
  | run =>
    rw [busy_of_run hp, if_pos rfl]
    exact h.setOvr hr

theorem Inv.writeReg {s : State} (h : Inv s) (hr : s.rst = false) (r : Reg) (v : Word) : Inv (writeReg r v s) := by
  cases r with
  | status => exact h.flags hr h.memory (fun hd => by simp [doneNext, hd]) _ s.doneIE s.bus s.earlier s.tainted
  | irqEn => exact h.flags hr h.memory id s.ovr _ s.bus s.earlier s.tainted
  | srcAddr => exact h.operandWrite hr v s.srcLen s.dstAddr s.dstCap
  | srcLen => exact h.operandWrite hr s.srcAddr v s.dstAddr s.dstCap
  | dstAddr => exact h.operandWrite hr s.srcAddr s.srcLen v s.dstCap
  | dstCap => exact h.operandWrite hr s.srcAddr s.srcLen s.dstAddr v
  | id => exact h
  | cap => exact h
  | cmd => exact h
  | result => exact h
  | errInfo => exact h

theorem Inv.writeOffset {s : State} (h : Inv s) (hr : s.rst = false) (off : Nat) (v : Word) :
    Inv (writeOffset off v s) := by
  unfold Machine.writeOffset
  split
  · exact h.writeReg hr _ v
  · exact h

theorem Inv.portWrite {s : State} (h : Inv s) (a : PortAddr) (size : AccessSize) (v : Word) :
    Inv (portWrite a size v s) := by
  unfold Machine.portWrite
  split
  · exact h
  · split
    · refine Inv.answer ?_ 0 false
      split
      · exact h
      · rename_i hr
        exact h.writeOffset (by simpa using hr) _ v
    · exact h.answer 0 true

theorem Inv.portRead {s : State} (h : Inv s) (a : PortAddr) (size : AccessSize) : Inv (portRead a size s) := by
  unfold Machine.portRead
  split
  · exact h
  · split
    · exact h.answer _ false
    · exact h.answer 0 true

theorem Inv.otherWrite {s : State} (h : Inv s) (a : Word) (v : Byte) : Inv (otherWrite a v s) := by
  have hm : Mem.wf (Mem.set s.mem a.toNat v) := wf_set h.memory a.isLt v
  cases hp : s.phase with
  | idle =>
    rw [otherWrite_idle hp]
    exact h.environment hm s.bus s.inbox s.resp s.draws
  | run => exact h.flags (h.rst_of_run hp) hm id s.ovr s.doneIE s.bus s.earlier _

theorem Inv.otherRead {s : State} (h : Inv s) (a : Word) : Inv (otherRead a s) := by
  unfold Machine.otherRead
  split
  · exact (h.environment h.memory s.bus s.inbox s.resp _).answer _ false
  · exact h.answer _ false

theorem Inv.assertReset {s : State} (h : Inv s) : Inv (assertReset s) := by
  unfold Machine.assertReset
  refine inv_resetBlock ?_
  split
  · exact wf_storeBytes h.memory s 0 _
  · exact h.memory

theorem Inv.deassertReset {s : State} (h : Inv s) : Inv (deassertReset s) where
  memory := h.memory
  command := h.command
  code := h.code
  path := h.path
  running := fun hp => by
    have hrun := h.running hp
    rw [h.rst_of_run hp] at hrun
    exact hrun
  checked := h.checked
  cursors := h.cursors
  inReset := fun hr => absurd hr Bool.false_ne_true

theorem Inv.changePlatform {s : State} (h : Inv s) (b : Bus) : Inv (changePlatform b s) := by
  unfold Machine.changePlatform
  split
  · rename_i hb
    obtain ⟨hbusy, -⟩ := Bool.and_eq_true_iff.1 hb
    exact h.flags (h.rst_of_run (phase_of_busy hbusy)) h.memory id s.ovr s.doneIE b _ _
  · exact h.environment h.memory b s.inbox s.resp s.draws

/-- Every move of the outside world keeps the invariant. -/
theorem Inv.hostAct {s : State} (h : Inv s) (act : HostAct) : Inv (hostAct act s) := by
  cases act with
  | regWrite a size v => exact h.portWrite a size v
  | regRead a size => exact h.portRead a size
  | memWrite a v => exact h.otherWrite a v
  | memRead a => exact h.otherRead a
  | rstAssert => exact h.assertReset
  | rstDeassert => exact h.deassertReset
  | platform b => exact h.changePlatform b

/-- Settles O59, by the three kinds of step: a command, a host's move, an engine step. -/
theorem stepKeepsInvariant : Obligations.StepKeepsInvariant := by
  intro s t h hs
  rcases step_cases hs with ⟨w, inbox, hr, he⟩ | ⟨act, inbox, rfl⟩ | ⟨inbox, rfl⟩
  · exact ((h.inbox inbox).answer 0 false).exec hr he
  · exact (h.inbox inbox).hostAct act
  · exact (h.inbox inbox).engineStep

/-- Settles O60: the machine right after reset is the block in its reset state, over an empty memory, with the reset input
deasserted. -/
theorem resetMeetsInvariant : Obligations.ResetMeetsInvariant :=
  (inv_resetBlock wf_reset).deassertReset

end Sys2Proof.Safety
end

section
/-! The register port (10 R33, R34): where an access lands, what it answers, and the step that makes it. -/

namespace Sys2Proof.Machine

open Sys2Proof.Safety (dueNow)

/-! ### Where an access lands -/

/-- A bus address inside the window stands at its offset (10 R33). -/
theorem windowOffset_bus (s : State) (off : Byte) :
    windowOffset s (.bus (s.regBase + off.setWidth 32)) = some off.toNat := by
  have hoff : (s.regBase + off.setWidth 32 - s.regBase).toNat = off.toNat := by
    rw [add_sub_cancel_left, BitVec.toNat_setWidth_of_le (by omega)]
  simp only [windowOffset, hoff]
  exact if_pos off.isLt

theorem windowOffset_outside {s : State} {a : Word} (h : 256 ≤ (a - s.regBase).toNat) :
    windowOffset s (.bus a) = none :=
  if_neg (Nat.not_lt.2 h)

theorem legalAccess_word {off : Nat} (h : off % 4 = 0) : legalAccess off .word = true := by
  simp [legalAccess, h]

theorem legalAccess_false {off : Nat} {size : AccessSize} (h : size ≠ .word ∨ off % 4 ≠ 0) :
    legalAccess off size = false := by
  rcases h with h | h <;> simp [legalAccess, h]

/-- A register stands at an aligned offset (10 R33). -/
theorem aligned_of_regAt {off : Nat} {r : Reg} (h : regAt off = some r) : off % 4 = 0 := by
  unfold regAt at h
  split at h <;> first | rfl | cases h

theorem regAt_regOffset (r : Reg) : regAt (regOffset r) = some r := by
  cases r <;> rfl

/-! ### What an access answers -/

theorem portRead_legal {s : State} {a : PortAddr} {size : AccessSize} {off : Nat} (hw : windowOffset s a = some off)
    (hl : legalAccess off size = true) :
    portRead a size s = answer (if s.rst then 0 else readOffset off s) false s := by
  simp [portRead, hw, hl]

theorem portWrite_legal {s : State} {a : PortAddr} {size : AccessSize} {off : Nat} (hw : windowOffset s a = some off)
    (hl : legalAccess off size = true) (v : Word) :
    portWrite a size v s = answer 0 false (if s.rst then s else writeOffset off v s) := by
  simp [portWrite, hw, hl]

theorem portRead_illegal {s : State} {a : PortAddr} {size : AccessSize} {off : Nat} (hw : windowOffset s a = some off)
    (hl : legalAccess off size = false) : portRead a size s = answer 0 true s := by
  simp [portRead, hw, hl]

theorem portWrite_illegal {s : State} {a : PortAddr} {size : AccessSize} {off : Nat} (hw : windowOffset s a = some off)
    (hl : legalAccess off size = false) (v : Word) : portWrite a size v s = answer 0 true s := by
  simp [portWrite, hw, hl]

theorem portRead_outside {s : State} {a : PortAddr} (hw : windowOffset s a = none) (size : AccessSize) :
    portRead a size s = s := by
  simp [portRead, hw]

theorem portWrite_outside {s : State} {a : PortAddr} (hw : windowOffset s a = none) (size : AccessSize) (v : Word) :
    portWrite a size v s = s := by
  simp [portWrite, hw]

theorem commandWord_outside {s : State} {a : PortAddr} (hw : windowOffset s a = none) (size : AccessSize) (v : Word) :
    commandWord a size v s = none := by
  simp [commandWord, hw]

theorem commandWord_illegal {s : State} {a : PortAddr} {size : AccessSize} {off : Nat}
    (hw : windowOffset s a = some off) (hl : legalAccess off size = false) (v : Word) :
    commandWord a size v s = none := by
  simp [commandWord, hw, hl]

theorem commandWord_other {s : State} {a : PortAddr} {off : Nat} (hw : windowOffset s a = some off)
    (hat : regAt off ≠ some .cmd) (size : AccessSize) (v : Word) : commandWord a size v s = none := by
  simp [commandWord, hw, hat]

theorem commandWord_cmd {s : State} {a : PortAddr} (hw : windowOffset s a = some 0x08) (hr : s.rst = false) (v : Word) :
    commandWord a .word v s = some v := by
  simp [commandWord, hw, hr, legalAccess, regAt]

/-! ### The step that makes an access -/

section
variable {s : State} {after : Option Nat} {rest : List HostMove} {a : PortAddr} {size : AccessSize} {v : Word}

/-- A due read is one step. -/
theorem step_regRead (hd : dueNow after s) (hin : s.inbox = { after := after, act := .regRead a size } :: rest) :
    step s = .next (portRead a size { s with inbox := rest }) :=
  step_of_nextTurn_other (nextTurn_due hd hin)

/-- A due write that carries no command word is one step. -/
theorem step_regWrite (hd : dueNow after s) (hin : s.inbox = { after := after, act := .regWrite a size v } :: rest)
    (hc : commandWord a size v { s with inbox := rest } = none) :
    step s = .next (portWrite a size v { s with inbox := rest }) := by
  refine step_of_nextTurn_other ((nextTurn_due hd hin).trans ?_)
  simp [moveTurn, hc]

/-- A due write of a command word runs the command decoded from it. -/
theorem step_commandWord {w : Word} (hd : dueNow after s)
    (hin : s.inbox = { after := after, act := .regWrite a size v } :: rest)
    (hc : commandWord a size v { s with inbox := rest } = some w) :
    step s = exec (decode w) (answer 0 false { s with inbox := rest }) := by
  have hturn := nextTurn_due hd hin
  simp only [moveTurn, hc] at hturn
  simp [step, hturn]

end

/-- A due write to a register other than `CMD` answers the port and acts on that register. -/
theorem step_writeReg {s : State} {after : Option Nat} {rest : List HostMove} {off : Byte} {v : Word} {r : Reg}
    (hd : dueNow after s) (hin : s.inbox = { after := after, act := .regWrite (.window off) .word v } :: rest)
    (hr : s.rst = false) (hat : regAt off.toNat = some r) (hne : r ≠ .cmd) :
    step s = .next (answer 0 false (writeReg r v { s with inbox := rest })) := by
  rw [step_regWrite hd hin (commandWord_other rfl (by simp [hat, hne]) _ _),
    portWrite_legal rfl (legalAccess_word (aligned_of_regAt hat))]
  simp [hr, writeOffset, hat]

/-- Where two accesses land at one offset, they are one move. -/
theorem moveTurn_regWrite_congr {s : State} {a b : PortAddr} (h : windowOffset s a = windowOffset s b)
    (size : AccessSize) (v : Word) : moveTurn (.regWrite a size v) s = moveTurn (.regWrite b size v) s := by
  simp [moveTurn, commandWord, portWrite, h]

theorem moveTurn_regRead_congr {s : State} {a b : PortAddr} (h : windowOffset s a = windowOffset s b)
    (size : AccessSize) : moveTurn (.regRead a size) s = moveTurn (.regRead b size) s := by
  simp [moveTurn, hostAct, portRead, h]

/-- Two due moves that are one move step alike. -/
theorem step_congr_due {s : State} {after : Option Nat} {act act' : HostAct} {rest : List HostMove}
    (hd : dueNow after s) (hin : s.inbox = { after := after, act := act } :: rest)
    (h : moveTurn act { s with inbox := rest } = moveTurn act' { s with inbox := rest }) :
    step s = step { s with inbox := { after := after, act := act' } :: rest } := by
  have hturn : nextTurn s = nextTurn { s with inbox := { after := after, act := act' } :: rest } := by
    rw [nextTurn_due hd hin, h]
    exact (nextTurn_due (s := { s with inbox := { after := after, act := act' } :: rest }) hd rfl).symm
  simp [step, hturn]

/-! ### Writes to the registers -/

/-- While busy an operand register's write is lost (10 R50). -/
theorem writeReg_operand_busy {s : State} (h : s.phase = .run) {r : Reg}
    (hr : r ∈ [Reg.srcAddr, .srcLen, .dstAddr, .dstCap]) (v : Word) : writeReg r v s = setOvr s := by
  simp only [List.mem_cons, List.not_mem_nil, or_false] at hr
  rcases hr with rfl | rfl | rfl | rfl <;> simp [writeReg, busy_of_run h]

theorem writeReg_srcAddr_idle {s : State} (h : s.phase = .idle) (v : Word) :
    writeReg .srcAddr v s = { s with srcAddr := v } := by
  simp [writeReg, busy_of_idle h]

theorem writeReg_srcLen_idle {s : State} (h : s.phase = .idle) (v : Word) :
    writeReg .srcLen v s = { s with srcLen := v } := by
  simp [writeReg, busy_of_idle h]

theorem writeReg_dstAddr_idle {s : State} (h : s.phase = .idle) (v : Word) :
    writeReg .dstAddr v s = { s with dstAddr := v } := by
  simp [writeReg, busy_of_idle h]

theorem writeReg_dstCap_idle {s : State} (h : s.phase = .idle) (v : Word) :
    writeReg .dstCap v s = { s with dstCap := v } := by
  simp [writeReg, busy_of_idle h]

/-- A read-only register or a reserved offset ignores a write (10 R33, R34), and holds no command. -/
theorem writeOffset_readOnly {off : Byte} (h : off ∈ [(0x00 : Byte), 0x04, 0x20, 0x24] ∨ 0x2C ≤ off.toNat) :
    regAt off.toNat ≠ some .cmd ∧ ∀ (v : Word) (s : State), writeOffset off.toNat v s = s := by
  rcases h with h | h
  · simp only [List.mem_cons, List.not_mem_nil, or_false] at h
    rcases h with rfl | rfl | rfl | rfl <;> exact ⟨by decide, fun _ _ => rfl⟩
  · simp [writeOffset, regAt_none h]

end Sys2Proof.Machine
end

section
/-! The statements about the register port. -/

namespace Sys2Proof.Machine

open Sys2Proof.Safety (dueNow sameSetup_engineStep)

/-- While busy the write to an operand register is one step that only answers the port and sets `OVR`. -/
theorem step_operandWrite_busy {s : State} {rest : List HostMove} {off : Byte} {v : Word} {r : Reg}
    (hp : s.phase = .run) (hin : s.inbox = { after := some 0, act := .regWrite (.window off) .word v } :: rest)
    (hrst : s.rst = false) (hat : regAt off.toNat = some r) (hr : r ∈ [Reg.srcAddr, .srcLen, .dstAddr, .dstCap]) :
    step s = .next (answer 0 false (setOvr { s with inbox := rest })) := by
  rw [step_writeReg (.inr rfl) hin hrst hat (by rintro rfl; simp at hr), writeReg_operand_busy (by exact hp) hr]

/-- Settles O13: `CMD` by the command lost while busy, the operand registers by their lost writes, `STATUS` and `IRQ_EN` by
their own effect, and the engine by its frame. -/
theorem writesWhileBusy : Obligations.WritesWhileBusy := by
  refine ⟨fun s rest off v hp hrst hoff hin => ?_, fun s rest v hp hrst hin => ?_, fun s rest v hp hrst hin => ?_,
    fun s => ?_⟩
  · simp only [List.mem_cons, List.not_mem_nil, or_false] at hoff
    rcases hoff with rfl | rfl | rfl | rfl | rfl
    · rw [step_commandWord (.inr rfl) hin (commandWord_cmd rfl (by exact hrst) v), exec_busy (by exact hp)]
      rfl
    · exact step_operandWrite_busy (r := .srcAddr) hp hin hrst rfl (by decide)
    · exact step_operandWrite_busy (r := .srcLen) hp hin hrst rfl (by decide)
    · exact step_operandWrite_busy (r := .dstAddr) hp hin hrst rfl (by decide)
    · exact step_operandWrite_busy (r := .dstCap) hp hin hrst rfl (by decide)
  · exact step_writeReg (r := .status) (.inr rfl) hin hrst rfl (by decide)
  · exact step_writeReg (r := .irqEn) (.inr rfl) hin hrst rfl (by decide)
  · have h := sameSetup_engineStep s
    exact ⟨h.srcAddr, h.srcLen, h.dstAddr, h.dstCap⟩

/-- Settles O12: each write acts on its own register, and an operand write while idle stores the value. -/
theorem operandWritesWhileIdle : Obligations.OperandWritesWhileIdle := by
  intro s after rest v hi hrst
  refine ⟨fun hin => ?_, fun hin => ?_, fun hin => ?_, fun hin => ?_, fun hin => ?_⟩
  · rw [step_writeReg (r := .srcAddr) (.inl hi) hin hrst rfl (by decide), writeReg_srcAddr_idle (by exact hi)]
    rfl
  · rw [step_writeReg (r := .srcLen) (.inl hi) hin hrst rfl (by decide), writeReg_srcLen_idle (by exact hi)]
    rfl
  · rw [step_writeReg (r := .dstAddr) (.inl hi) hin hrst rfl (by decide), writeReg_dstAddr_idle (by exact hi)]
    rfl
  · rw [step_writeReg (r := .dstCap) (.inl hi) hin hrst rfl (by decide), writeReg_dstCap_idle (by exact hi)]
    rfl
  · exact step_writeReg (r := .irqEn) (.inl hi) hin hrst rfl (by decide)

/-- Settles O15: a legal read answers the offset's value; every register is found at its offset, none from 0x2C on. -/
theorem readsReturnRegisters : Obligations.ReadsReturnRegisters := by
  refine ⟨fun s after rest off hd hrst hal hin => ?_, fun s r => ?_, fun s off hoff => ?_⟩
  · rw [step_regRead hd hin, portRead_legal rfl (legalAccess_word hal)]
    simp only [hrst, Bool.false_eq_true, if_false]
    rfl
  · simp [readOffset, regAt_regOffset]
  · simp [readOffset, regAt_none hoff]

/-- Settles O17: the port takes the write as legal, and no register acts on it, in reset or not. -/
theorem readOnlyWritesIgnored : Obligations.ReadOnlyWritesIgnored := by
  intro s after rest off v hd hal hoff hin
  obtain ⟨hcmd, hwrite⟩ := writeOffset_readOnly hoff
  rw [step_regWrite hd hin (commandWord_other rfl hcmd _ _), portWrite_legal rfl (legalAccess_word hal), hwrite, ite_self]
  rfl

/-- Settles O18: such an access is illegal, so it carries no command and only answers the error. -/
theorem illegalAccessRefused : Obligations.IllegalAccessRefused := by
  intro s after rest off size v hd hill
  have hl : legalAccess off.toNat size = false := legalAccess_false hill
  refine ⟨fun hin => ?_, fun hin => ?_⟩
  · rw [step_regWrite hd hin (commandWord_illegal rfl hl v), portWrite_illegal rfl hl]
    rfl
  · rw [step_regRead hd hin, portRead_illegal rfl hl]
    rfl

/-- Settles O19: the bus address lands at the window offset, so it is the same move; one outside the window does nothing. -/
theorem busAccessIsWindowAccess : Obligations.BusAccessIsWindowAccess := by
  refine ⟨fun s after rest off size v hd => ⟨fun hin => ?_, fun hin => ?_⟩,
    fun s after rest a size v hd hout => ⟨fun hin => ?_, fun hin => ?_⟩⟩
  · exact step_congr_due hd hin (moveTurn_regWrite_congr (windowOffset_bus { s with inbox := rest } off) size v)
  · exact step_congr_due hd hin (moveTurn_regRead_congr (windowOffset_bus { s with inbox := rest } off) size)
  · have hw : windowOffset { s with inbox := rest } (.bus a) = none := windowOffset_outside hout
    rw [step_regWrite hd hin (commandWord_outside hw size v), portWrite_outside hw]
  · have hw : windowOffset { s with inbox := rest } (.bus a) = none := windowOffset_outside hout
    rw [step_regRead hd hin, portRead_outside hw]

/-- Settles O22: every instruction written while busy is lost. -/
theorem busyCommandLost : Obligations.BusyCommandLost := fun i _ hp => exec_busy hp i

/-! ### What the registers show -/

theorem readReg_cap (s : State) : readReg .cap s = if s.hasVector then 0x00201801 else 0x00201800 := by
  simp only [readReg]
  cases s.hasVector <;> rfl

theorem readReg_irqEn (s : State) : readReg .irqEn s = if s.doneIE then 1 else 0 := by
  simp only [readReg, State.irqEn]
  cases s.doneIE <;> rfl

/-- `STATUS`, bit by bit: `ERR` is its field [7:4], and no bit above it is set (10 R38 to R42). -/
theorem getLsbD_status (s : State) (i : Nat) : s.status.getLsbD i =
    match i with
    | 0 => s.busy
    | 1 => s.done
    | 2 => s.vsel
    | 3 => s.ovr
    | k + 4 => s.err.getLsbD k := by
  unfold State.status
  rw [BitVec.getLsbD_append, BitVec.getLsbD_append, BitVec.getLsbD_append, BitVec.getLsbD_append,
    BitVec.getLsbD_append]
  rcases i with _ | _ | _ | _ | k
  case succ.succ.succ.succ => simpa using BitVec.lt_of_getLsbD
  all_goals simp

theorem status_err (s : State) : s.status.extractLsb' 4 4 = s.err := by
  ext i hi
  rw [BitVec.getElem_extractLsb', Nat.add_comm, getLsbD_status]
  exact BitVec.getLsbD_eq_getElem hi

theorem status_lt (s : State) : s.status.toNat < 256 := by
  refine Nat.lt_pow_two_of_testBit (n := 8) _ fun i hi => ?_
  obtain ⟨k, rfl⟩ : ∃ k, i = k + 4 := ⟨i - 4, by omega⟩
  rw [BitVec.testBit_toNat, getLsbD_status]
  exact BitVec.getLsbD_of_ge _ _ (by omega)

/-- Settles O16: `CAP`, `STATUS` and `IRQ_EN` by their bits, every other register by its field, and the map by `regAt`. -/
theorem registerLayout : Obligations.RegisterLayout := by
  intro s
  have hbusy : (readReg .status s).getLsbD 0 = true ↔ s.phase = .run :=
    (Bool.eq_iff_iff.1 (getLsbD_status s 0)).trans beq_iff_eq
  have hirq : s.irq = true ↔ s.done = true ∧ s.doneIE = true := Bool.and_eq_true_iff
  exact ⟨rfl, readReg_cap s, rfl, rfl, rfl, rfl, rfl, rfl, rfl, hbusy, getLsbD_status s 1, getLsbD_status s 2,
    getLsbD_status s 3, status_err s, status_lt s, readReg_irqEn s, hirq, rfl, rfl, rfl, rfl, rfl, rfl, rfl, rfl, rfl,
    rfl, rfl⟩

/-- Settles O5: each register by its reset value; `CAP` reads one of its two words, whichever the capability is. -/
theorem resetState : Obligations.ResetState := by
  refine ⟨rfl, ?_, fun r hid hcap => ?_, rfl, rfl, rfl⟩
  · rw [readReg_cap]
    cases State.reset.hasVector
    · exact .inl rfl
    · exact .inr rfl
  · cases r with
    | id => exact absurd rfl hid
    | cap => exact absurd rfl hcap
    | _ => rfl

end Sys2Proof.Machine
end

section
/-! The engine's steps that need no port: where one leads from the checks and from the end of the input. -/

namespace Sys2Proof.Machine

open Sys2Proof.Safety (PastChecks op_of_pastChecks)

/-- Checking needs no transfer, so a silent port does not stall it. -/
theorem engineStep_check {s : State} (hr : s.phase = .run) (hst : s.stage = .check) : engineStep s = checkStep s := by
  simp [engineStep, State.needsBus, hr, hst]

/-- Nor does a silent port stall the end of the input. -/
theorem engineStep_finish {s : State} (hr : s.phase = .run) (hst : s.stage = .finish) : engineStep s = settle s := by
  simp [engineStep, State.needsBus, hr, hst]

theorem checkEnc_ready {s : State} (h : Safety.encReady s) : checkEnc s = enterTiler s := by
  obtain ⟨hlen, hcap, hranges⟩ := h
  rw [checkEnc, if_neg (Nat.not_lt.2 hlen), if_neg (Nat.not_lt.2 hcap), if_pos hranges]

theorem checkDec_ready {s : State} (h : Safety.decReady s) : checkDec s = enterTiler s := by
  obtain ⟨hpos, hmod, hcap, hranges⟩ := h
  rw [checkDec, if_neg (Nat.ne_of_gt hpos), if_neg (not_not_intro hmod), if_neg (Nat.not_lt.2 hcap), if_pos hranges]

/-- Where the checks pass, their step starts a tiler (43 R204, R205). -/
theorem checkStep_of_pastChecks {s : State} (h : PastChecks s) : checkStep s = enterTiler s := by
  rcases op_of_pastChecks h with hop | hop
  · have hready : Safety.encReady s := by simpa only [PastChecks, hop] using h
    simpa only [checkStep, hop] using checkEnc_ready hready
  · have hready : Safety.decReady s := by simpa only [PastChecks, hop] using h
    simpa only [checkStep, hop] using checkDec_ready hready

/-! ### The start of processing -/

@[simp] theorem enterScalar_phase (s : State) : (enterScalar s).phase = s.phase := by
  unfold enterScalar
  split <;> rfl

@[simp] theorem enterScalar_stage (s : State) : (enterScalar s).stage = .scalar := by
  unfold enterScalar
  split <;> rfl

@[simp] theorem enterScalar_tainted (s : State) : (enterScalar s).tainted = s.tainted := by
  unfold enterScalar
  split <;> rfl

@[simp] theorem enterTiler_phase (s : State) : (enterTiler s).phase = s.phase := by
  simp only [enterTiler]
  split
  · rfl
  · exact enterScalar_phase _

theorem enterTiler_stage (s : State) : (enterTiler s).stage = if s.sel then .vector else .scalar := by
  cases hsel : s.sel <;> simp [enterTiler, hsel]

@[simp] theorem enterTiler_tainted (s : State) : (enterTiler s).tainted = (s.tainted || sourceVolatile s) := by
  simp only [enterTiler]
  split
  · rfl
  · exact enterScalar_tainted _

/-! ### A change of the environment -/

/-- Past its checks a command remembers the environment before the change, and a source byte may have become volatile. -/
theorem changePlatform_pastChecks {s : State} (hr : s.phase = .run) (hst : s.stage ≠ .check) (b : Bus) :
    changePlatform b s = { s with
      bus := b
      earlier := if s.bus.answers then s.bus :: s.earlier else s.earlier
      tainted := s.tainted || b.volatile.any s.inSource } := by
  simp [changePlatform, busy_of_run hr, hst]

theorem changePlatform_noTransfers {s : State} (h : s.phase = .idle ∨ s.stage = .check) (b : Bus) :
    changePlatform b s = { s with bus := b } := by
  rcases h with h | h
  · simp [changePlatform, busy_of_idle h]
  · simp [changePlatform, h]

theorem step_platform {s : State} {after : Option Nat} {rest : List HostMove} {b : Bus} (hd : Safety.dueNow after s)
    (hin : s.inbox = { after := after, act := .platform b } :: rest) :
    step s = .next (changePlatform b { s with inbox := rest }) :=
  step_of_nextTurn_other (nextTurn_due hd hin)

/-- Settles O56: the change is the due move's own effect, and the step of passed checks is the start of a tiler. -/
theorem platformChangeWhileBusy : Obligations.PlatformChangeWhileBusy := by
  refine ⟨fun s after rest b hd hin => ⟨fun hr hst => ?_, fun h => ?_⟩, fun s hr hst hp => ?_⟩
  · rw [step_platform hd hin, changePlatform_pastChecks (by exact hr) (by exact hst)]
    rfl
  · rw [step_platform hd hin, changePlatform_noTransfers (by exact h)]
  · rw [engineStep_check hr hst, checkStep_of_pastChecks hp]
    have hstage : (enterTiler s).stage ≠ .check := by
      rw [enterTiler_stage]
      split <;> decide
    refine ⟨(enterTiler_phase s).trans hr, hstage, ?_⟩
    rw [enterTiler_tainted, Bool.or_eq_true]
    rfl

end Sys2Proof.Machine
end

section
/-! What an engine step of a running command leaves alone in memory, and the record its last step leaves (60 R239, R240). -/

namespace Sys2Proof.Safety

open Sys2Proof.Machine

/-- Settles O50: the step stalls, or it ends the command or goes on, and each of these keeps to the destination. -/
theorem engineWritesOnlyDestination : Obligations.EngineWritesOnlyDestination := by
  intro s h hr
  rcases engineStep_cases hr (h.checked hr) (h.cursors hr) with hstall | hended | ⟨hgoing, -, -⟩
  · rw [hstall]
    exact .rfl' _ _ s
  · exact hended.outside
  · exact hgoing.outside

/-! ### The record of an undisturbed command -/

theorem completed_endCommand {s : State} (ht : s.tainted = false) (code : BitVec 4) (result info : Word) :
    Completed (endCommand code result info s) code result info := by
  rw [endCommand, if_neg (ht ▸ Bool.false_ne_true)]
  exact ⟨rfl, rfl, rfl, rfl, rfl⟩

theorem completed_complete {s : State} (ht : s.tainted = false) (v : Word) : Completed (complete v s) 0 v 0 :=
  completed_endCommand ht 0 v 0

theorem completed_raise {s : State} (ht : s.tainted = false) (e : CmdError) :
    Completed (raise e s) e.code e.resultWord e.infoWord := by
  refine completed_endCommand ?_ _ _ _
  split <;> exact ht

/-- Which transfers may have failed does not depend on the free values drawn. -/
theorem failingAddrs_draws (s : State) (d : Nat) : failingAddrs { s with draws := d } = failingAddrs s := rfl

theorem admittedErrors_ne_nil {s : State} (h : failingAddrs s ≠ []) : admittedErrors s ≠ [] := by
  simp [admittedErrors, h]

/-- Where some transfer may have failed, the record is that of an admitted error, whichever error came up. -/
theorem completed_raiseAdmitted {s : State} (ht : s.tainted = false) (h : failingAddrs s ≠ []) (e : CmdError) :
    ∃ e' ∈ admittedErrors s, Completed (raiseAdmitted e s) e'.code e'.resultWord e'.infoWord :=
  ⟨pick e (admittedErrors s) (s.draws + 1), pick_mem (admittedErrors_ne_nil h) e _,
    completed_raise (s := { s with draws := s.draws + 2 }) ht _⟩

/-- The command ended with one of its admitted errors, at some count of the free values drawn. -/
def EndsAdmitted (s t : State) : Prop :=
  ∃ d, ∃ e ∈ admittedErrors { s with draws := d }, Completed t e.code e.resultWord e.infoWord

/-- The record at the end of the input: success, or an admitted error; never success where a transfer always failed, and
never an error where none may have failed. -/
theorem completed_settle {s : State} (ht : s.tainted = false) :
    (mustFail s = false ∧ Completed (settle s) 0 s.outOff 0) ∨
    (failingAddrs s ≠ [] ∧ EndsAdmitted s (settle s)) := by
  rcases settle_cases s with ⟨d, hmust, he⟩ | ⟨a, ha, he⟩ <;> rw [he]
  · exact .inl ⟨hmust, completed_complete (by exact ht) _⟩
  · have hne : failingAddrs s ≠ [] := List.ne_nil_of_mem ha
    have hne' : failingAddrs { s with draws := s.draws + 1 } ≠ [] := by rwa [failingAddrs_draws]
    exact .inr ⟨hne, s.draws + 1, completed_raiseAdmitted (by exact ht) hne' (.unknown (reportedAddr _ a))⟩

/-- Settles O52: the last step settles the command, and each premise rules out the outcome it excludes. -/
theorem lastStepAdmitsEveryOrder : Obligations.LastStepAdmitsEveryOrder := by
  intro s hr hst ht
  rw [engineStep_finish hr hst]
  rcases completed_settle ht with ⟨hmust, hsuccess⟩ | ⟨hne, herror⟩
  · exact ⟨fun _ => hsuccess, fun hm => absurd (hmust.symm.trans hm) Bool.false_ne_true, .inl hsuccess⟩
  · exact ⟨fun hnone => absurd hnone hne, fun _ => herror, .inr herror⟩

end Sys2Proof.Safety
end

section
/-! Decoding and encoding agree (30 R100, R104, R107; 20 R85): a word's two fields, its byte lanes, and the round trip. -/

namespace Sys2Proof

/-- Decoding reads a word only through its two fields (30 R107), so 32 words stand for all. -/
theorem decode_eq_decode_cmdWord (w : Word) : decode w = decode (cmdWord (opField w) (sField w)) :=
  decode_congr (opField_cmdWord _ _).symm (sField_cmdWord _ _).symm

theorem decode_of_opField {w : Word} {op : BitVec 4} (h : opField w = op) :
    decode w = decode (cmdWord op (w.getLsbD 8)) :=
  h ▸ decode_eq_decode_cmdWord w

@[simp] theorem op_decode (w : Word) : (decode w).op = opField w := by
  have h : ∀ (op : BitVec 4) (S : Bool), (decode (cmdWord op S)).op = op := by decide
  rw [decode_eq_decode_cmdWord, h]

theorem forceScalar_decode {w : Word} (hw : opField w ≠ 0) : (decode w).forceScalar = sField w := by
  have h : ∀ (op : BitVec 4) (S : Bool), op ≠ 0 → (decode (cmdWord op S)).forceScalar = S := by decide
  rw [decode_eq_decode_cmdWord, h _ _ hw]

/-- `NOP` is the one command of opcode 0, whatever `S` is. -/
theorem decode_eq_nop_iff (w : Word) : decode w = .nop ↔ opField w = 0 := by
  have h : ∀ (op : BitVec 4) (S : Bool), decode (cmdWord op S) = .nop ↔ op = 0 := by decide
  rw [decode_eq_decode_cmdWord, h]

/-- The word of a word's fields is that word with its reserved bits clear (30 R104): bit by bit, the mask keeps the bits
below 4 and bit 8, where the fields stand. -/
theorem cmdWord_fields (w : Word) : cmdWord (opField w) (sField w) = w &&& 0x0000010F := by
  have hmask : ∀ i < 32, (0x10F : Word).getLsbD i = (decide (i < 4) || decide (i = 8)) := by decide
  refine BitVec.eq_of_getLsbD_eq fun i hi => ?_
  rw [BitVec.getLsbD_and, hmask i hi]
  grind [cmdWord, opField, sField]

/-- Encoding undoes decoding up to the bits that `CMD` does not keep. -/
theorem encode_decode {w : Word} (hw : opField w ≠ 0) : encode (decode w) = w &&& 0x0000010F := by
  rw [encode, op_decode, forceScalar_decode hw, cmdWord_fields]

/-- Taking a word apart into its lanes and putting it together again is the identity (20 R85). -/
theorem wordOfLanes_extractLsb' (w : Word) :
    wordOfLanes (w.extractLsb' 0 8) (w.extractLsb' 8 8) (w.extractLsb' 16 8) (w.extractLsb' 24 8) = w := by
  refine BitVec.eq_of_getLsbD_eq fun i hi => ?_
  grind [wordOfLanes]

@[simp] theorem decodeBytes_lanesOfWord (w : Word) : decodeBytes (lanesOfWord w) = .ok (decode w) := by
  rw [lanesOfWord, decodeBytes, wordOfLanes_extractLsb']

/-- Settles O4: a command's word has the command's fields, a word's byte lanes are the word, and the word of a decoded
command has the fields of the word decoded. -/
theorem encodeDecodeRoundTrip : Obligations.EncodeDecodeRoundTrip := by
  refine ⟨decode_encode, fun i => ?_, decodeBytes_lanesOfWord, fun w => ?_⟩
  · rw [encodeBytes, decodeBytes_lanesOfWord, decode_encode]
  · split
    · next h => rw [(decode_eq_nop_iff w).2 h]; rfl
    · next h => exact encode_decode h

/-- Settles O3: a word decodes as the word of its two fields, which for the first opcodes is a command's own word; the
reserved opcodes all start the illegal command. -/
theorem decodeByOpcodeField : Obligations.DecodeByOpcodeField := by
  intro w
  have hreserved : ∀ (op : BitVec 4) (S : Bool), 5 ≤ op.toNat →
      Safety.opOf (decode (cmdWord op S)) = some .illegal := by decide
  refine ⟨(decode_eq_nop_iff w).2, fun h => (decode_of_opField h).trans (decode_encode (.enc _)),
    fun h => (decode_of_opField h).trans (decode_encode (.dec _)),
    fun h => (decode_of_opField h).trans (decode_encode (.enclen _)),
    fun h => (decode_of_opField h).trans (decode_encode (.declen _)), fun h => ?_⟩
  rw [decode_eq_decode_cmdWord]
  exact hreserved _ _ h

/-- Settles O1: the first eleven words are those their commands assemble to; the last differs from its command's word in
reserved bits alone. -/
theorem commandWordsDecode : Obligations.CommandWordsDecode :=
  ⟨decode_encode .nop, decode_encode (.enc false), decode_encode (.enc true), decode_encode (.dec false),
    decode_encode (.dec true), decode_encode (.enclen false), decode_encode (.enclen true),
    decode_encode (.declen false), decode_encode (.ill5 false), decode_encode (.ill7 false),
    decode_encode (.ill15 false), (decode_and_cmdMask 0xFFFFFF01).symm.trans (decode_encode (.enc true))⟩

end Sys2Proof
end

section
/-! A command from acceptance on (43 R201): what it leaves of the setup, of memory and of `CMD`, whatever its outcome. -/

namespace Sys2Proof.Safety

open Sys2Proof.Machine

/-- An accepted command has ended or goes on, since its cursors start in place. -/
theorem exec_idle_cases {i : Instr} {op : Op} {s t : State} (hp : s.phase = .idle) (hi : opOf i = some op)
    (he : exec i s = .next t) :
    Ended (accept (encode i) op i.forceScalar s) t ∨ Going (accept (encode i) op i.forceScalar s) t := by
  obtain ⟨k, hk⟩ := command_idle hp i op
  rw [exec_eq_command hi, Host.Outcome.next.injEq, hk] at he
  have hcur : CursorsOk (accept (encode i) op i.forceScalar s) := ⟨rfl, rfl⟩
  rw [← he]
  exact (runFor_cases k rfl (absurd rfl) hcur).imp_right fun ⟨g, _⟩ => g

/-- `CMD` keeps the accepted command's word, its reserved bits clear, whatever the outcome (43 R201). -/
theorem exec_idle_cmd {i : Instr} {op : Op} {s t : State} (hp : s.phase = .idle) (hi : opOf i = some op)
    (he : exec i s = .next t) : t.cmd = encode i &&& 0x0000010F := by
  rcases exec_idle_cases hp hi he with e | g
  · exact e.cmd
  · exact g.cmd

/-- The region a command may write is that of the operation it starts. -/
theorem req_accept {i : Instr} {op : Op} (hi : opOf i = some op) (w : Word) (S : Bool) (s : State) :
    (accept w op S s).req = writeLen i s := by
  cases op <;> simp [State.req, State.len, writeLen, hi]

/-- Settles O2: decoding and `CMD` see the same bits of the word, those of `CMDW`. -/
theorem reservedBitsIgnored : Obligations.ReservedBitsIgnored := by
  refine ⟨fun w => (decode_and_cmdMask w).symm, fun w s t hp hne he => ?_⟩
  obtain ⟨op, hi⟩ : ∃ op, opOf (decode w) = some op :=
    Option.ne_none_iff_exists'.1 fun hnone => hne (eq_nop_of_opOf hnone)
  have hw : opField w ≠ 0 := mt (decode_eq_nop_iff w).2 hne
  rw [readReg, exec_idle_cmd hp hi he, encode_decode hw, BitVec.and_assoc, BitVec.and_self]

/-- Settles O35: acceptance leaves the setup and memory alone, and so do the engine steps after it but in the destination. -/
theorem commandFrame : Obligations.CommandFrame := by
  intro i s t hp he
  cases hi : opOf i with
  | none =>
    rw [eq_nop_of_opOf hi, exec_nop_idle hp, Host.Outcome.next.injEq] at he
    rw [← he]
    exact ⟨.rfl' s, .rfl' _ _ s⟩
  | some op =>
    have hacc := sameSetup_accept (encode i) op i.forceScalar s
    rw [← req_accept hi (encode i) i.forceScalar s]
    rcases exec_idle_cases hp hi he with e | g
    · exact ⟨hacc.trans e.setup, e.outside⟩
    · exact ⟨hacc.trans g.setup, g.outside⟩

end Sys2Proof.Safety
end

section
/-! A placed command word (30 R107, 43 R201): the next step's move, and the word its byte lanes give. -/

namespace Sys2Proof.Machine

theorem decodeTableWord_eq (nbits w : Nat) :
    decodeTableWord nbits w = some (decode (BitVec.ofNat 32 (w % 2 ^ nbits))) := by
  simp [decodeTableWord, Except.toOption]

/-- Settles O9: the placed write is due at once and lands at `CMD`, so the step runs the command decoded from its word. -/
theorem placedWordRunsNext : Obligations.PlacedWordRunsNext := by
  intro s nbits w i h
  obtain rfl : decode (BitVec.ofNat 32 (w % 2 ^ nbits)) = i := by
    rwa [decodeTableWord_eq, Option.some.injEq] at h
  exact step_commandWord (.inr rfl) rfl (commandWord_cmd rfl rfl _)

end Sys2Proof.Machine
end

section
/-! The alphabet tables (40 R120 to R129): what an entry of the decode table can be, and that the tables undo each other. -/

namespace Sys2Proof.Machine

@[simp] theorem or_badChar (w : Word) : w ||| Config.badChar = Config.badChar := BitVec.or_allOnes

@[simp] theorem badChar_or (w : Word) : Config.badChar ||| w = Config.badChar := BitVec.allOnes_or

theorem toNat_or_lt {v w : Word} {n : Nat} (hv : v.toNat < 2 ^ n) (hw : w.toNat < 2 ^ n) :
    (v ||| w).toNat < 2 ^ n := by
  rw [BitVec.toNat_or]
  exact Nat.or_lt_two_pow hv hw

/-- `BADCHAR` is above every word of fewer than 32 bits. -/
theorem lt_badChar_of_toNat_lt {w : Word} {n : Nat} (h : w.toNat < 2 ^ n) (hn : n < 32) : w < Config.badChar := by
  have hpow : 2 ^ n ≤ 2 ^ 31 := Nat.pow_le_pow_right (by decide) (by omega)
  exact BitVec.lt_def.2 ((h.trans_le hpow).trans (by decide))

/-- What `DEC_LUT` holds (40 R121), and what the OR of such words gives: six bits, or all 32 bits of `BADCHAR`. -/
def IsEntry (w : Word) : Prop := w.toNat < 2 ^ 6 ∨ w = Config.badChar

theorem IsEntry.lt_badChar_iff {w : Word} (hw : IsEntry w) : w < Config.badChar ↔ w.toNat < 2 ^ 6 :=
  ⟨fun h => hw.resolve_right (BitVec.ne_of_lt h), fun h => lt_badChar_of_toNat_lt h (by decide)⟩

theorem IsEntry.or {v w : Word} (hv : IsEntry v) (hw : IsEntry w) : IsEntry (v ||| w) := by
  rcases hv with hv | rfl
  · rcases hw with hw | rfl
    · exact .inl (toNat_or_lt hv hw)
    · exact .inr (or_badChar v)
  · exact .inr (badChar_or w)

/-- The idea of 40 R124: six bits ORed with six bits stay six bits, and one `BADCHAR` sets all the bits of the OR. -/
theorem IsEntry.or_lt_badChar_iff {v w : Word} (hv : IsEntry v) (hw : IsEntry w) :
    v ||| w < Config.badChar ↔ v < Config.badChar ∧ w < Config.badChar := by
  rw [(hv.or hw).lt_badChar_iff, hv.lt_badChar_iff, hw.lt_badChar_iff]
  refine ⟨fun h => ?_, fun ⟨h, h'⟩ => toNat_or_lt h h'⟩
  rw [BitVec.toNat_or] at h
  exact ⟨Nat.left_le_or.trans_lt h, Nat.right_le_or.trans_lt h⟩

theorem isEntry_decLut (c : Byte) : IsEntry (decLut c) := by
  simp only [IsEntry, decLut]
  split_ifs <;> simp <;> omega

theorem validChar_iff_decLut_lt (c : Byte) : validChar c = true ↔ decLut c < Config.badChar := decide_eq_true_iff

theorem decLut_toNat_lt {c : Byte} (h : validChar c = true) : (decLut c).toNat < 2 ^ 6 :=
  (isEntry_decLut c).lt_badChar_iff.1 ((validChar_iff_decLut_lt c).1 h)

theorem decLut_encLut : ∀ v : Sextet, decLut (encLut v) = v.setWidth 32 := by decide

theorem encLut_decLut : ∀ c : Byte, validChar c = true → encLut ((decLut c).setWidth 6) = c := by decide

theorem length_filter_decLut :
    ((List.range 256).filter fun n => decide (decLut (BitVec.ofNat 8 n) < Config.badChar)).length = 64 := by decide

/-- Settles O37: the tables are fixed data, looked up entry by entry; a valid entry is below 64 by what entries can be. -/
theorem alphabetTablesInverse : Obligations.AlphabetTablesInverse :=
  ⟨fun c h => ⟨encLut_decLut c h, decLut_toNat_lt h⟩, decLut_encLut, length_filter_decLut⟩

end Sys2Proof.Machine
end

section
/-! The OR and threshold test of a group (40 R123, R124). -/

namespace Sys2Proof.Machine

theorem groupAcc_cons (c : Byte) (cs : List Byte) : groupAcc (c :: cs) = decLut c ||| groupAcc cs := by
  simp only [groupAcc, ← List.foldl_map (f := decLut) (g := (· ||| ·))]
  rw [List.map_cons, List.foldl_cons, BitVec.or_comm, List.foldl_assoc]

theorem isEntry_groupAcc (cs : List Byte) : IsEntry (groupAcc cs) := by
  induction cs with
  | nil => exact .inl (by decide)
  | cons c cs ih => exact groupAcc_cons c cs ▸ (isEntry_decLut c).or ih

theorem groupValid_iff_groupAcc_lt (cs : List Byte) : groupValid cs = true ↔ groupAcc cs < Config.badChar :=
  decide_eq_true_iff

@[simp] theorem groupValid_nil : groupValid [] = true := by decide

theorem groupValid_cons (c : Byte) (cs : List Byte) :
    groupValid (c :: cs) = true ↔ validChar c = true ∧ groupValid cs = true := by
  rw [groupValid_iff_groupAcc_lt, groupAcc_cons, (isEntry_decLut c).or_lt_badChar_iff (isEntry_groupAcc cs),
    validChar_iff_decLut_lt, groupValid_iff_groupAcc_lt]

/-- Settles O38, by induction on the group: each character's entry takes part in the OR. -/
theorem thresholdTestExact : Obligations.ThresholdTestExact := by
  intro cs
  induction cs with
  | nil => simp
  | cons c cs ih => rw [groupValid_cons, ih, List.forall_mem_cons]

theorem groupValid_quartet (c0 c1 c2 c3 : Byte) : groupValid [c0, c1, c2, c3] = true ↔
    (validChar c0 = true ∧ validChar c1 = true) ∧ validChar c2 = true ∧ validChar c3 = true := by
  simp [groupValid_cons, and_assoc]

end Sys2Proof.Machine
end

section
/-! The sextets of a group (41 R142) and the derived two-character tables (40 R126 to R128). -/

namespace Sys2Proof.Machine

/-- `SPLIT24` takes the six bits at its place (41 R142). -/
theorem split24_eq_extractLsb' (x : Group) (k : Nat) : split24 x k = x.extractLsb' (18 - 6 * k) 6 :=
  BitVec.setWidth_ushiftRight_eq_extractLsb

theorem toNat_shiftLeft_lt {v : Word} {n : Nat} (hv : v.toNat < 2 ^ n) (k : Nat) : (v <<< k).toNat < 2 ^ (n + k) := by
  rw [BitVec.toNat_shiftLeft]
  exact (Nat.mod_le _ _).trans_lt (Nat.shiftLeft_lt hv)

/-- `JOIN24` loses nothing of four sextets: their bits lie below bit 24 (41 R142). -/
theorem setWidth_join24 {v0 v1 v2 v3 : Word} (h0 : v0.toNat < 2 ^ 6) (h1 : v1.toNat < 2 ^ 6) (h2 : v2.toNat < 2 ^ 6)
    (h3 : v3.toNat < 2 ^ 6) :
    (join24 v0 v1 v2 v3).setWidth 32 = v0 <<< 18 ||| v1 <<< 12 ||| v2 <<< 6 ||| v3 := by
  have h0' := toNat_shiftLeft_lt h0 18
  have h1' := toNat_shiftLeft_lt h1 12
  have h2' := toNat_shiftLeft_lt h2 6
  refine BitVec.setWidth_setWidth_eq_self (BitVec.lt_def.2 ?_)
  exact toNat_or_lt (n := 24) (toNat_or_lt (toNat_or_lt h0' (by omega)) (by omega)) (by omega)

theorem extractLsb'_extractLsb' {w : Nat} (x : BitVec w) {i j n m : Nat} (h : i + m ≤ n) :
    (x.extractLsb' j n).extractLsb' i m = x.extractLsb' (j + i) m := by
  ext k hk
  simp [show i + k < n by omega, Nat.add_assoc]

/-- An entry of `ENC_LUT2` is the characters of the key's two sextets (40 R126), here of a key taken out of a group. -/
theorem encLut2_extractLsb' (x : Group) (j : Nat) :
    encLut2 (x.extractLsb' j 12) = encLut (x.extractLsb' j 6) ++ encLut (x.extractLsb' (j + 6) 6) := by
  rw [encLut2, extractLsb'_extractLsb' x (by decide), extractLsb'_extractLsb' x (by decide)]
  rfl

theorem decLut2_append (c0 c1 : Byte) : decLut2 (c0 ++ c1) =
    if validChar c0 = true ∧ validChar c1 = true then (decLut c0 <<< 6) ||| decLut c1 else Config.badChar := by
  simp only [decLut2, validChar_iff_decLut_lt]
  rw [BitVec.extractLsb'_append_eq_left, BitVec.extractLsb'_append_eq_right]

/-- The threshold test on `DEC_LUT2` is exact too: the entry of two valid characters has 12 bits. -/
theorem decLut2_append_lt_iff (c0 c1 : Byte) :
    decLut2 (c0 ++ c1) < Config.badChar ↔ validChar c0 = true ∧ validChar c1 = true := by
  rw [decLut2_append]
  split_ifs with hvalid
  · have h0 := toNat_shiftLeft_lt (decLut_toNat_lt hvalid.1) 6
    have h1 := decLut_toNat_lt hvalid.2
    exact iff_of_true (lt_badChar_of_toNat_lt (n := 12) (toNat_or_lt h0 (by omega)) (by decide)) hvalid
  · exact iff_of_false (BitVec.lt_irrefl _) hvalid

/-- Settles O39: a group's keys hold its sextets, a quartet is valid where its two keys are, and the value of a valid one is
the OR of its four sextets at their places, taken one by one or in pairs. -/
theorem derivedTablesAgree : Obligations.DerivedTablesAgree := by
  refine ⟨fun x => ?_, fun c0 c1 c2 c3 => ⟨?_, fun h => ?_⟩⟩
  · simp only [encLut2_extractLsb', split24_eq_extractLsb', and_self]
  · rw [groupValid_quartet, decLut2_append_lt_iff, decLut2_append_lt_iff]
  · obtain ⟨⟨h0, h1⟩, h2, h3⟩ := (groupValid_quartet c0 c1 c2 c3).1 h
    rw [decLut2_append, decLut2_append, if_pos ⟨h0, h1⟩, if_pos ⟨h2, h3⟩, setWidth_join24 (decLut_toNat_lt h0)
      (decLut_toNat_lt h1) (decLut_toNat_lt h2) (decLut_toNat_lt h3), BitVec.shiftLeft_or_distrib,
      ← BitVec.shiftLeft_add, BitVec.or_assoc _ (decLut c2 <<< 6)]

end Sys2Proof.Machine
end

section
/-! Cutting a group and putting it together (41 R142): its four sextets, and its three bytes. -/

namespace Sys2Proof.Machine

theorem toNat_split24 (x : Group) (k : Nat) : (split24 x k).toNat = x.toNat / 2 ^ (18 - 6 * k) % 64 := by
  rw [split24, BitVec.toNat_setWidth, BitVec.toNat_ushiftRight, Nat.shiftRight_eq_div_pow]

/-- Sextet `j`, put back at its place in a 32-bit word, has the group's bits there and no others. -/
theorem getLsbD_split24_shiftLeft (x : Group) {j : Nat} (hj : j < 4) (k : Nat) :
    ((split24 x j).setWidth 32 <<< (18 - 6 * j)).getLsbD k =
      (decide (18 - 6 * j ≤ k ∧ k < 24 - 6 * j) && x.getLsbD k) := by
  rw [split24_eq_extractLsb', BitVec.getLsbD_shiftLeft, BitVec.getLsbD_setWidth, BitVec.getLsbD_extractLsb']
  by_cases hk : 18 - 6 * j ≤ k
  · rw [Nat.add_sub_cancel' hk]
    grind
  · simp [hk]

theorem join24_split24 (x : Group) : join24 ((split24 x 0).setWidth 32) ((split24 x 1).setWidth 32)
    ((split24 x 2).setWidth 32) ((split24 x 3).setWidth 32) = x := by
  ext k hk
  have h0 := getLsbD_split24_shiftLeft x (j := 0) (by decide) k
  have h1 := getLsbD_split24_shiftLeft x (j := 1) (by decide) k
  have h2 := getLsbD_split24_shiftLeft x (j := 2) (by decide) k
  have h3 := getLsbD_split24_shiftLeft x (j := 3) (by decide) k
  simp only [Nat.reduceMul, Nat.reduceSub, BitVec.shiftLeft_zero] at h0 h1 h2 h3
  have hplace : ((18 ≤ k ∧ k < 24 ∨ 12 ≤ k ∧ k < 18) ∨ 6 ≤ k ∧ k < 12) ∨ 0 ≤ k ∧ k < 6 := by omega
  simp only [join24, BitVec.getElem_setWidth, BitVec.getLsbD_or, h0, h1, h2, h3, ← Bool.and_or_distrib_right,
    ← Bool.decide_or, hplace, decide_true, Bool.true_and, BitVec.getLsbD_eq_getElem hk]

theorem toNat_append_eq_add {m n : Nat} (x : BitVec m) (y : BitVec n) : (x ++ y).toNat = x.toNat * 2 ^ n + y.toNat := by
  rw [BitVec.toNat_append, ← Nat.shiftLeft_add_eq_or_of_lt y.isLt, Nat.shiftLeft_eq]

theorem toNat_triplet (b0 b1 b2 : Byte) :
    (triplet b0 b1 b2).toNat = b0.toNat * 2 ^ 16 + b1.toNat * 2 ^ 8 + b2.toNat := by
  rw [triplet, toNat_append_eq_add, toNat_append_eq_add]
  ring

theorem groupBytes_triplet (b0 b1 b2 : Byte) : groupBytes (triplet b0 b1 b2) = [b0, b1, b2] := by
  have hb0 : (triplet b0 b1 b2).extractLsb' 16 8 = b0 :=
    (BitVec.extractLsb'_append_eq_of_le (xhi := b0 ++ b1) (w := 8) (by decide)).trans BitVec.extractLsb'_append_eq_left
  have hb1 : (triplet b0 b1 b2).extractLsb' 8 8 = b1 :=
    (BitVec.extractLsb'_append_eq_of_le (xhi := b0 ++ b1) (w := 8) (by decide)).trans BitVec.extractLsb'_append_eq_right
  have hb2 : (triplet b0 b1 b2).extractLsb' 0 8 = b2 := BitVec.extractLsb'_append_eq_right
  rw [groupBytes, hb0, hb1, hb2]

/-- Settles O40: a triplet's and a group's fields are put side by side and taken out again. -/
theorem splitJoinInverse : Obligations.SplitJoinInverse :=
  ⟨fun x k _ => toNat_split24 x k, join24_split24, toNat_triplet, groupBytes_triplet⟩

end Sys2Proof.Machine
end

section
/-! The final quartet: its pad count (41 R148), its decoding (41 R150 to R152), and the bits its padding leaves unused
(41 R153). -/

namespace Sys2Proof.Machine

theorem ne_padChar_of_validChar {c : Byte} (h : validChar c = true) : c ≠ padChar := by
  rintro rfl
  exact absurd h (by decide)

theorem padOf_of_ne {c3 : Byte} (c2 : Byte) (h : c3 ≠ padChar) : padOf c2 c3 = 0 := by simp [padOf, h]

theorem padOf_padChar_of_ne {c2 : Byte} (h : c2 ≠ padChar) : padOf c2 padChar = 1 := by simp [padOf, h]

theorem decodeFinal_of_ne_padChar {c3 : Byte} (q : Nat) (c0 c1 c2 : Byte) (h : c3 ≠ padChar) :
    decodeFinal q c0 c1 c2 c3 =
      if groupValid [c0, c1, c2, c3] then .ok (quartetBytes c0 c1 c2 c3) else .error q := by
  rw [decodeFinal, padOf_of_ne c2 h]

theorem decodeFinal_onePad {c2 : Byte} (q : Nat) (c0 c1 : Byte) (h : c2 ≠ padChar) : decodeFinal q c0 c1 c2 padChar =
    if groupValid [c0, c1, c2] then .ok (tail3Bytes c0 c1 c2) else .error q := by
  rw [decodeFinal, padOf_padChar_of_ne h]

theorem decodeFinal_twoPads (q : Nat) (c0 c1 : Byte) : decodeFinal q c0 c1 padChar padChar =
    if groupValid [c0, c1] then .ok (tail2Bytes c0 c1) else .error q := rfl

theorem ushiftRight_congr {v v' : Word} {d : Nat} (h : v.toNat / 2 ^ d = v'.toNat / 2 ^ d) : v >>> d = v' >>> d := by
  apply BitVec.eq_of_toNat_eq
  rwa [BitVec.toNat_ushiftRight, BitVec.toNat_ushiftRight, Nat.shiftRight_eq_div_pow, Nat.shiftRight_eq_div_pow]

/-- The bits from `j` on of a word shifted to place `i` do not see its low `d` bits, if these lie below `j`. -/
theorem extractLsb'_shiftLeft_congr {v v' : Word} {d i j : Nat} (h : v >>> d = v' >>> d) (hj : i + d ≤ j) (n : Nat) :
    (v <<< i).extractLsb' j n = (v' <<< i).extractLsb' j n := by
  ext k hk
  have hbit := congrArg (·.getLsbD (j + k - i - d)) h
  simp only [BitVec.getLsbD_ushiftRight, show d + (j + k - i - d) = j + k - i by omega] at hbit
  simp only [BitVec.getElem_extractLsb', BitVec.getLsbD_shiftLeft, hbit]

theorem extractLsb'_join24 (v0 v1 v2 v3 : Word) {j n : Nat} (h : j + n ≤ 24) :
    (join24 v0 v1 v2 v3).extractLsb' j n = (v0 <<< 18).extractLsb' j n ||| (v1 <<< 12).extractLsb' j n |||
      (v2 <<< 6).extractLsb' j n ||| v3.extractLsb' j n := by
  rw [join24, BitVec.extractLsb'_setWidth_of_le h, BitVec.extractLsb'_or, BitVec.extractLsb'_or, BitVec.extractLsb'_or]

/-- The two bytes of a quartet with one pad character lie above the low 2 bits of its third sextet. -/
theorem tail3Bytes_congr {c2 c2' : Byte} (c0 c1 : Byte) (h : decLut c2 >>> 2 = decLut c2' >>> 2) :
    tail3Bytes c0 c1 c2 = tail3Bytes c0 c1 c2' := by
  simp (disch := decide) only [tail3Bytes, groupBytes, List.take_succ_cons, List.take_zero, extractLsb'_join24,
    extractLsb'_shiftLeft_congr h]

/-- The byte of a quartet with two pad characters lies above the low 4 bits of its second sextet. -/
theorem tail2Bytes_congr {c1 c1' : Byte} (c0 : Byte) (h : decLut c1 >>> 4 = decLut c1' >>> 4) :
    tail2Bytes c0 c1 = tail2Bytes c0 c1' := by
  simp (disch := decide) only [tail2Bytes, groupBytes, List.take_succ_cons, List.take_zero, extractLsb'_join24,
    extractLsb'_shiftLeft_congr h]

/-- Settles O41: the bytes do not see the unused bits, and both characters pass the test of their group. -/
theorem paddingBitsIgnored : Obligations.PaddingBitsIgnored := by
  refine ⟨fun q c0 c1 c2 c2' hc2 hc2' h => ?_, fun q c0 c1 c1' hc1 hc1' h => ?_⟩
  · have hvalid : groupValid [c0, c1, c2] = groupValid [c0, c1, c2'] := by
      rw [Bool.eq_iff_iff]
      simp [groupValid_cons, hc2, hc2']
    rw [decodeFinal_onePad q c0 c1 (ne_padChar_of_validChar hc2),
      decodeFinal_onePad q c0 c1 (ne_padChar_of_validChar hc2'), hvalid,
      tail3Bytes_congr c0 c1 (ushiftRight_congr (d := 2) h)]
  · have hvalid : groupValid [c0, c1] = groupValid [c0, c1'] := by
      rw [Bool.eq_iff_iff]
      simp [groupValid_cons, hc1, hc1']
    rw [decodeFinal_twoPads, decodeFinal_twoPads, hvalid, tail2Bytes_congr c0 (ushiftRight_congr (d := 4) h)]

end Sys2Proof.Machine
end

section
/-! Decoding an encoding, quartet by quartet (41 R158). -/

namespace Sys2Proof.Machine

@[simp] theorem validChar_encLut (v : Sextet) : validChar (encLut v) = true := by
  rw [validChar_iff_decLut_lt, decLut_encLut]
  exact lt_badChar_of_toNat_lt (n := 6) ((BitVec.toNat_setWidth_of_le (by decide)).trans_lt v.isLt) (by decide)

theorem decodeFrom_nil (q : Nat) : decodeFrom q [] = .ok [] := rfl

theorem decodeFrom_final (q : Nat) (c0 c1 c2 c3 : Byte) :
    decodeFrom q [c0, c1, c2, c3] = decodeFinal q c0 c1 c2 c3 := rfl

/-- A valid quartet decodes to its bytes, whether it is the final one or not: it holds no pad character. -/
theorem decodeFrom_of_groupValid {c0 c1 c2 c3 : Byte} (q : Nat) (rest : List Byte)
    (h : groupValid [c0, c1, c2, c3] = true) : decodeFrom q (c0 :: c1 :: c2 :: c3 :: rest) =
      (decodeFrom (q + 1) rest).map (quartetBytes c0 c1 c2 c3 ++ ·) := by
  cases rest with
  | nil =>
    have hc3 : validChar c3 = true := ((groupValid_quartet c0 c1 c2 c3).1 h).2.2
    rw [decodeFrom_final, decodeFinal_of_ne_padChar q c0 c1 c2 (ne_padChar_of_validChar hc3), if_pos h, decodeFrom_nil,
      Except.map, List.append_nil]
  | cons c rest =>
    rw [decodeFrom, if_neg (by simp), if_pos h]
    cases decodeFrom (q + 1) (c :: rest) <;> rfl

/-- A quartet that is not the final one and holds an invalid character ends the decoding. -/
theorem decodeFrom_of_not_groupValid {c0 c1 c2 c3 : Byte} (q : Nat) {rest : List Byte} (hrest : rest ≠ [])
    (h : groupValid [c0, c1, c2, c3] = false) : decodeFrom q (c0 :: c1 :: c2 :: c3 :: rest) = .error q := by
  rw [decodeFrom, if_neg (by simpa using hrest), if_neg (by simp [h])]

theorem quartetBytes_encLut_split24 (x : Group) :
    quartetBytes (encLut (split24 x 0)) (encLut (split24 x 1)) (encLut (split24 x 2)) (encLut (split24 x 3)) =
      groupBytes x := by
  simp only [quartetBytes, decLut_encLut, join24_split24]

theorem tail3Bytes_encLut_split24 {x : Group} (h : split24 x 3 = 0) :
    tail3Bytes (encLut (split24 x 0)) (encLut (split24 x 1)) (encLut (split24 x 2)) = (groupBytes x).take 2 := by
  simpa [tail3Bytes, decLut_encLut, h] using congrArg (fun y => (groupBytes y).take 2) (join24_split24 x)

theorem tail2Bytes_encLut_split24 {x : Group} (h : split24 x 2 = 0) (h' : split24 x 3 = 0) :
    tail2Bytes (encLut (split24 x 0)) (encLut (split24 x 1)) = (groupBytes x).take 1 := by
  simpa [tail2Bytes, decLut_encLut, h, h'] using congrArg (fun y => (groupBytes y).take 1) (join24_split24 x)

theorem split24_triplet_three (b0 b1 : Byte) : split24 (triplet b0 b1 0) 3 = 0 := by
  rw [← BitVec.toNat_inj, toNat_split24, toNat_triplet]
  simp only [BitVec.ofNat_eq_ofNat, BitVec.toNat_ofNat, Nat.zero_mod]
  omega

theorem split24_triplet_two (b0 : Byte) : split24 (triplet b0 0 0) 2 = 0 := by
  rw [← BitVec.toNat_inj, toNat_split24, toNat_triplet]
  simp only [BitVec.ofNat_eq_ofNat, BitVec.toNat_ofNat, Nat.zero_mod]
  omega

theorem decodeFrom_tripletChars (q : Nat) (b0 b1 b2 : Byte) (rest : List Byte) :
    decodeFrom q (tripletChars b0 b1 b2 ++ rest) = (decodeFrom (q + 1) rest).map ([b0, b1, b2] ++ ·) := by
  rw [← groupBytes_triplet, ← quartetBytes_encLut_split24]
  exact decodeFrom_of_groupValid q rest (by simp [groupValid_cons])

theorem decodeFrom_tail2Chars (q : Nat) (b0 b1 : Byte) : decodeFrom q (tail2Chars b0 b1) = .ok [b0, b1] := by
  rw [tail2Chars, decodeFrom_final, decodeFinal_onePad _ _ _ (ne_padChar_of_validChar (validChar_encLut _)),
    if_pos (by simp [groupValid_cons]), tail3Bytes_encLut_split24 (split24_triplet_three b0 b1), groupBytes_triplet]
  rfl

theorem decodeFrom_tail1Chars (q : Nat) (b0 : Byte) : decodeFrom q (tail1Chars b0) = .ok [b0] := by
  rw [tail1Chars, decodeFrom_final, decodeFinal_twoPads, if_pos (by simp [groupValid_cons]),
    tail2Bytes_encLut_split24 (split24_triplet_two b0) (split24_triplet_three b0 0), groupBytes_triplet]
  rfl

theorem decodeFrom_encodeRef (b : List Byte) (q : Nat) : decodeFrom q (encodeRef b) = .ok b := by
  induction b using encodeRef.induct generalizing q with
  | case1 b0 b1 b2 rest ih => rw [encodeRef, decodeFrom_tripletChars, ih]; rfl
  | case2 b0 b1 => exact decodeFrom_tail2Chars q b0 b1
  | case3 b0 => exact decodeFrom_tail1Chars q b0
  | case4 => rfl

/-- Settles O42: each triplet and each tail decodes to its bytes. -/
theorem decodeOfEncode : Obligations.DecodeOfEncode := fun b => decodeFrom_encodeRef b 0

end Sys2Proof.Machine
end

section
/-! The shape of an encoding (41 R140, R144, R145): valid characters, and pad characters after them. -/

namespace Sys2Proof.Machine

open Sys2Proof.Safety (encodeLen_add_three tripletChars_length)

theorem encodeRef_length (b : List Byte) : (encodeRef b).length = encodeLen b.length := by
  induction b using encodeRef.induct with
  | case1 b0 b1 b2 rest ih =>
    rw [encodeRef, List.length_append, ih]
    simp only [List.length_cons, encodeLen_add_three, tripletChars_length]
    omega
  | case2 b0 b1 => simp [encodeRef, tail2Chars, encodeLen]
  | case3 b0 => simp [encodeRef, tail1Chars, encodeLen]
  | case4 => rfl

/-- An encoding is valid characters followed by its pad characters. -/
theorem encodeRef_eq_append_pads (b : List Byte) : ∃ body : List Byte, (∀ c ∈ body, validChar c = true) ∧
    encodeRef b = body ++ List.replicate ((3 - b.length % 3) % 3) padChar := by
  induction b using encodeRef.induct with
  | case1 b0 b1 b2 rest ih =>
    obtain ⟨body, hvalid, hbody⟩ := ih
    have hlen : (b0 :: b1 :: b2 :: rest).length % 3 = rest.length % 3 := Nat.add_mod_right rest.length 3
    refine ⟨tripletChars b0 b1 b2 ++ body, ?_, ?_⟩
    · simpa [tripletChars] using hvalid
    · rw [encodeRef, hbody, hlen, List.append_assoc]
  | case2 b0 b1 => exact ⟨(tail2Chars b0 b1).take 3, by simp [tail2Chars], rfl⟩
  | case3 b0 => exact ⟨(tail1Chars b0).take 2, by simp [tail1Chars], rfl⟩
  | case4 => exact ⟨[], by simp, rfl⟩

theorem count_padChar_of_valid {cs : List Byte} (h : ∀ c ∈ cs, validChar c = true) : cs.count padChar = 0 :=
  List.count_eq_zero.2 fun hpad => ne_padChar_of_validChar (h _ hpad) rfl

/-- Settles O43: everything follows from the length and from the pads at the end, after valid characters only. -/
theorem encodingShape : Obligations.EncodingShape := by
  intro b
  obtain ⟨body, hvalid, hbody⟩ := encodeRef_eq_append_pads b
  have hdrop : (encodeRef b).drop (encodeLen b.length - (3 - b.length % 3) % 3) =
      List.replicate ((3 - b.length % 3) % 3) padChar := by
    rw [← encodeRef_length, hbody, List.length_append, List.length_replicate, Nat.add_sub_cancel, List.drop_left]
  refine ⟨encodeRef_length b, fun c hc => ?_, ?_, fun h => ?_, fun h => ?_⟩
  · rw [hbody, List.mem_append] at hc
    exact hc.imp (hvalid c) List.eq_of_mem_replicate
  · rw [hbody, List.count_append, count_padChar_of_valid hvalid, List.count_replicate_self, Nat.zero_add]
  · rwa [h] at hdrop
  · rwa [h] at hdrop

end Sys2Proof.Machine
end

section
/-! Where decoding fails (41 R148, R155, R156): at the quartet of the first invalid character among those tested. -/

namespace Sys2Proof.Machine

/-- The pad count of a decode input (41 R148). -/
def inputPad (cs : List Byte) : Fin 3 := padOf (cs.getD (cs.length - 2) 0) (cs.getD (cs.length - 1) 0)

/-- The characters that decoding tests: all but the final pad characters (41 R150 to R152). -/
def testedChars (cs : List Byte) : List Byte := cs.take (cs.length - (inputPad cs).val)

/-- The index of the first invalid character, if there is one. -/
def firstInvalid (cs : List Byte) : Option Nat := cs.findIdx? fun c => !validChar c

theorem firstInvalid_eq_none_iff (cs : List Byte) : firstInvalid cs = none ↔ groupValid cs = true := by
  rw [firstInvalid, List.findIdx?_eq_none_iff, thresholdTestExact]
  simp

theorem firstInvalid_lt_length {cs : List Byte} {i : Nat} (h : firstInvalid cs = some i) : i < cs.length :=
  (List.findIdx?_eq_some_iff_getElem.1 h).1

theorem firstInvalid_append_of_some {cs : List Byte} {i : Nat} (h : firstInvalid cs = some i) (cs' : List Byte) :
    firstInvalid (cs ++ cs') = some i := by
  rw [firstInvalid] at h ⊢
  rw [List.findIdx?_append, h, Option.some_or]

theorem firstInvalid_append_of_groupValid {cs : List Byte} (h : groupValid cs = true) (cs' : List Byte) :
    firstInvalid (cs ++ cs') = (firstInvalid cs').map (· + cs.length) := by
  have hnone := (firstInvalid_eq_none_iff cs).2 h
  rw [firstInvalid] at hnone
  rw [firstInvalid, List.findIdx?_append, hnone, Option.none_or, firstInvalid]

theorem inputPad_append {cs' : List Byte} (h : 2 ≤ cs'.length) (cs : List Byte) :
    inputPad (cs ++ cs') = inputPad cs' := by
  rw [inputPad, List.length_append, List.getD_append_right _ _ _ _ (by omega),
    List.getD_append_right _ _ _ _ (by omega), inputPad]
  congr 2 <;> omega

theorem testedChars_append {cs' : List Byte} (h : 2 ≤ cs'.length) (cs : List Byte) :
    testedChars (cs ++ cs') = cs ++ testedChars cs' := by
  have hpad := (inputPad cs').isLt
  rw [testedChars, inputPad_append h, List.length_append, Nat.add_sub_assoc (by omega), List.take_length_add_append,
    testedChars]

theorem getD_mem_testedChars {cs : List Byte} {i : Nat} (h : i + (inputPad cs).val < cs.length) :
    cs.getD i 0 ∈ testedChars cs := by
  rw [testedChars, List.mem_take_iff_getElem, List.getD_eq_getElem _ _ (by omega)]
  exact ⟨i, by omega, rfl⟩

theorem firstInvalid_testedChars_spec {cs : List Byte} {i : Nat} (h : firstInvalid (testedChars cs) = some i) :
    i + (inputPad cs).val < cs.length ∧ validChar (cs.getD i 0) = false ∧ ∀ j < i, validChar (cs.getD j 0) = true := by
  obtain ⟨hi, hbad, hbefore⟩ := List.findIdx?_eq_some_iff_getElem.1 h
  simp only [testedChars, List.length_take, List.getElem_take, Bool.not_eq_true', Bool.not_eq_false] at hi hbad hbefore
  refine ⟨by omega, ?_, fun j hj => ?_⟩
  · rwa [List.getD_eq_getElem]
  · rw [List.getD_eq_getElem _ _ (by omega)]
    exact hbefore j hj

theorem exists_firstInvalid_of_length_le {cs : List Byte} (h : groupValid cs = false) (hlen : cs.length ≤ 4) :
    ∃ i < 4, firstInvalid cs = some i := by
  cases hfirst : firstInvalid cs with
  | none => simp [(firstInvalid_eq_none_iff cs).1 hfirst] at h
  | some i => exact ⟨i, (firstInvalid_lt_length hfirst).trans_le hlen, rfl⟩

/-- The final quartet's outcome rests on the test of its own characters without the pads. -/
theorem decodeFinal_eq_ite (q : Nat) (c0 c1 c2 c3 : Byte) : ∃ bs, decodeFinal q c0 c1 c2 c3 =
    if groupValid (testedChars [c0, c1, c2, c3]) then .ok bs else .error q := by
  have htested : testedChars [c0, c1, c2, c3] = [c0, c1, c2, c3].take (4 - (padOf c2 c3).val) := rfl
  by_cases h3 : c3 = padChar
  · subst h3
    by_cases h2 : c2 = padChar
    · subst h2
      exact ⟨_, decodeFinal_twoPads q c0 c1⟩
    · rw [htested, padOf_padChar_of_ne h2]
      exact ⟨_, decodeFinal_onePad q c0 c1 h2⟩
  · rw [htested, padOf_of_ne c2 h3]
    exact ⟨_, decodeFinal_of_ne_padChar q c0 c1 c2 h3⟩

theorem map_eq_error_iff {α β ε : Type} (f : α → β) (x : Except ε α) (e : ε) :
    x.map f = .error e ↔ x = .error e := by
  cases x <;> simp [Except.map]

/-- Decoding fails exactly where a tested character is invalid, at the quartet of the first one: by induction on the
quartets, where a valid one leaves the first invalid character to the rest and an invalid one holds it. -/
theorem decodeFrom_eq_error_iff (q : Nat) (cs : List Byte) (e : Nat) (h : cs.length % 4 = 0) :
    decodeFrom q cs = .error e ↔ (firstInvalid (testedChars cs)).map (q + · / 4) = some e := by
  match cs, h with
  | [], _ => simp [decodeFrom_nil, testedChars, firstInvalid]
  | [c0, c1, c2, c3], _ =>
    obtain ⟨bs, hbs⟩ := decodeFinal_eq_ite q c0 c1 c2 c3
    rw [decodeFrom_final, hbs]
    cases hvalid : groupValid (testedChars [c0, c1, c2, c3]) with
    | true => simp [(firstInvalid_eq_none_iff _).2 hvalid]
    | false =>
      obtain ⟨i, hi, hfirst⟩ := exists_firstInvalid_of_length_le hvalid (by simp [testedChars])
      simp [hfirst, Nat.div_eq_of_lt hi]
  | c0 :: c1 :: c2 :: c3 :: c4 :: rest, h =>
    have hrest : (c4 :: rest).length % 4 = 0 := (Nat.add_mod_right (rest.length + 1) 4).symm.trans h
    have hlength : 2 ≤ (c4 :: rest).length := by
      rw [List.length_cons] at hrest ⊢
      omega
    have htested : testedChars (c0 :: c1 :: c2 :: c3 :: c4 :: rest) = [c0, c1, c2, c3] ++ testedChars (c4 :: rest) :=
      testedChars_append hlength [c0, c1, c2, c3]
    rw [htested]
    cases hvalid : groupValid [c0, c1, c2, c3] with
    | true =>
      have hquot : ((q + · / 4) ∘ (· + 4) : Nat → Nat) = (q + 1 + · / 4) := by
        funext i
        rw [Function.comp_apply, Nat.add_div_right i (by decide)]
        omega
      rw [decodeFrom_of_groupValid q _ hvalid, map_eq_error_iff, decodeFrom_eq_error_iff _ _ e hrest,
        firstInvalid_append_of_groupValid hvalid, Option.map_map]
      exact hquot ▸ Iff.rfl
    | false =>
      obtain ⟨i, hi, hfirst⟩ := exists_firstInvalid_of_length_le hvalid le_rfl
      rw [decodeFrom_of_not_groupValid q (List.cons_ne_nil _ _) hvalid, firstInvalid_append_of_some hfirst]
      simp [Nat.div_eq_of_lt hi]

/-- Settles O45: the error names the quartet of the first invalid character among those tested. -/
theorem errorNamesLeastQuartet : Obligations.ErrorNamesLeastQuartet := by
  intro cs q hlen herr
  obtain ⟨i, hfirst, hq⟩ := Option.map_eq_some_iff.1 ((decodeFrom_eq_error_iff 0 cs q hlen).1 herr)
  obtain ⟨hi, hbad, hbefore⟩ := firstInvalid_testedChars_spec hfirst
  have hsplit : 4 * q + i % 4 = i := by omega
  refine ⟨by omega, fun j hj => hbefore j (by omega), i % 4, by omega, by rwa [hsplit], fun hlast => ?_⟩
  rw [inputPad] at hi
  omega

/-- Settles O46: the pad character is tested and invalid, so the first invalid character is this one or an earlier one. -/
theorem paddingOnlyAtTheEnd : Obligations.PaddingOnlyAtTheEnd := by
  intro cs i hlen _ hpad hi
  have hbad : ¬ validChar (cs.getD i 0) = true := by
    rw [hpad]
    decide
  cases hfirst : firstInvalid (testedChars cs) with
  | none =>
    have hvalid := (thresholdTestExact _).1 ((firstInvalid_eq_none_iff _).1 hfirst)
    exact absurd (hvalid _ (getD_mem_testedChars hi)) hbad
  | some j =>
    obtain ⟨-, -, hbefore⟩ := firstInvalid_testedChars_spec hfirst
    have hji : j ≤ i := Nat.le_of_not_lt fun h => hbad (hbefore i h)
    refine ⟨0 + j / 4, by omega, (decodeFrom_eq_error_iff 0 cs _ hlen).2 ?_⟩
    rw [hfirst, Option.map_some]

end Sys2Proof.Machine
end

section
/-! The lanes of a working register: one in a list made chunk by chunk, and the bytes of a wider lane (10 R54). -/

namespace Sys2Proof.Machine

/-- Byte `r` of chunk `e`, where every chunk has `k` bytes. -/
theorem laneB_flatMap_range {f : Nat → List Byte} {k : Nat} (hf : ∀ e, (f e).length = k) {n e r : Nat} (he : e < n)
    (hr : r < k) : laneB ((List.range n).flatMap f) (k * e + r) = laneB (f e) r := by
  induction n generalizing f e with
  | zero => exact absurd he (Nat.not_lt_zero e)
  | succ n ih =>
    rw [List.range_succ_eq_map, List.flatMap_cons, List.flatMap_map, laneB]
    cases e with
    | zero => rw [Nat.mul_zero, Nat.zero_add, List.getD_append _ _ _ _ (hr.trans_eq (hf 0).symm), laneB]
    | succ e =>
      have hskip : k * (e + 1) + r - k = k * e + r := by rw [Nat.mul_succ]; omega
      rw [List.getD_append_right _ _ _ _ (by rw [hf, Nat.mul_succ]; omega), hf, hskip]
      exact ih (f := fun a => f a.succ) (fun a => hf a.succ) (Nat.lt_of_succ_lt_succ he)

theorem laneW_flatMap_range {f : Nat → List Byte} (hf : ∀ e, (f e).length = 4) {n e : Nat} (he : e < n) :
    laneW ((List.range n).flatMap f) e = laneW (f e) 0 := by
  have hlane : ∀ r < 4, laneB ((List.range n).flatMap f) (4 * e + r) = laneB (f e) r := fun r =>
    laneB_flatMap_range hf he
  rw [laneW, hlane 3 (by decide), hlane 2 (by decide), hlane 1 (by decide), ← Nat.add_zero (4 * e),
    hlane 0 (by decide), laneW]

theorem laneH_flatMap_range {f : Nat → List Byte} (hf : ∀ j, (f j).length = 2) {n j : Nat} (hj : j < n) :
    laneH ((List.range n).flatMap f) j = laneH (f j) 0 := by
  have hlane : ∀ r < 2, laneB ((List.range n).flatMap f) (2 * j + r) = laneB (f j) r := fun r =>
    laneB_flatMap_range hf hj
  rw [laneH, hlane 1 (by decide), ← Nat.add_zero (2 * j), hlane 0 (by decide), laneH]

theorem laneH_bytesOfH (h : BitVec 16) : laneH (bytesOfH h) 0 = h := by
  ext k hk
  grind [laneH, laneB, bytesOfH]

theorem bytesOfW_laneW (v : List Byte) (e : Nat) :
    bytesOfW (laneW v e) = [laneB v (4 * e), laneB v (4 * e + 1), laneB v (4 * e + 2), laneB v (4 * e + 3)] := by
  simp only [bytesOfW, laneW, List.cons.injEq, and_true]
  refine ⟨?_, ?_, ?_, ?_⟩ <;> ext k hk <;> grind

/-- A statement for each of the first `n` indices makes equal lists of chunks. -/
theorem flatMap_range_congr {α : Type} {n : Nat} {f g : Nat → List α} (h : ∀ e < n, f e = g e) :
    (List.range n).flatMap f = (List.range n).flatMap g := by
  rw [List.flatMap_def, List.flatMap_def, List.map_congr_left fun e he => h e (List.mem_range.1 he)]

theorem flatMap_range_succ {α : Type} (f : Nat → List α) (n : Nat) :
    (List.range (n + 1)).flatMap f = f 0 ++ (List.range n).flatMap fun e => f (e + 1) := by
  rw [List.range_succ_eq_map, List.flatMap_cons, List.flatMap_map]

end Sys2Proof.Machine
end

section
/-! The classification of a block's characters (42 R178, R179). -/

namespace Sys2Proof.Machine

theorem charClass_eq_zero_iff : ∀ c : Byte, charClass c = 0 ↔ validChar c = true := by decide

theorem foldl_or_charClass_eq_zero_iff (c : List Byte) (acc : Byte) :
    c.foldl (fun acc b => acc ||| charClass b) acc = 0 ↔ acc = 0 ∧ ∀ b ∈ c, validChar b = true := by
  induction c generalizing acc with
  | nil => simp
  | cons b c ih =>
    have hor : acc ||| charClass b = 0 ↔ acc = 0 ∧ charClass b = 0 := BitVec.or_eq_zero_iff
    rw [List.foldl_cons, ih, hor, charClass_eq_zero_iff, List.forall_mem_cons, and_assoc]

/-- Settles O48: the OR over the lanes is 0 where the classification of each is, by induction on the lanes. -/
theorem blockValidityExact : Obligations.BlockValidityExact := by
  intro c
  rw [blockValid, beq_iff_eq, foldl_or_charClass_eq_zero_iff]
  exact and_iff_right rfl

end Sys2Proof.Machine
end

section
/-! The encode datapath (42 R173 to R176): one 32-bit lane makes the four characters of its triplet. -/

namespace Sys2Proof.Machine

theorem toNat_mulHigh (a b : BitVec 16) : (mulHigh a b).toNat = a.toNat * b.toNat / 2 ^ 16 := by
  have hprod : a.toNat * b.toNat < 2 ^ 16 * 2 ^ 16 := Nat.mul_lt_mul'' a.isLt b.isLt
  simp only [mulHigh, BitVec.toNat_setWidth, BitVec.toNat_ushiftRight, BitVec.toNat_mul, Nat.shiftRight_eq_div_pow]
  rw [Nat.mod_eq_of_lt (a := a.toNat) (by omega), Nat.mod_eq_of_lt (a := b.toNat) (by omega),
    Nat.mod_eq_of_lt (a := a.toNat * b.toNat) (by omega), Nat.mod_eq_of_lt (by omega)]

/-- The multiplies of 42 R174 are shifts: the high half of a product with a power of two is a right shift. -/
theorem mulHigh_twoPow (a : BitVec 16) {k : Nat} (hk : k < 16) :
    mulHigh a (BitVec.twoPow 16 k) = a >>> (16 - k) := by
  have hpow : 2 ^ 16 = 2 ^ (16 - k) * 2 ^ k := by rw [← pow_add, Nat.sub_add_cancel hk.le]
  apply BitVec.eq_of_toNat_eq
  rw [toNat_mulHigh, BitVec.toNat_twoPow_of_lt hk, BitVec.toNat_ushiftRight, Nat.shiftRight_eq_div_pow, hpow,
    Nat.mul_div_mul_right _ _ (Nat.two_pow_pos k)]

/-- The extraction of 42 R174 takes the six bits at four places of the lane: each mask keeps two of them, and each shift
brings one to the foot of its byte. -/
theorem bytesOfW_laneSextets (x : Word) : bytesOfW (laneSextets x) =
    [(x.extractLsb' 10 6).setWidth 8, (x.extractLsb' 4 6).setWidth 8, (x.extractLsb' 22 6).setWidth 8,
      (x.extractLsb' 16 6).setWidth 8] := by
  have hmask0 : ∀ i < 32, (0x0FC0FC00 : Word).getLsbD i =
      (decide (10 ≤ i ∧ i < 16) || decide (22 ≤ i ∧ i < 28)) := by decide
  have hmask2 : ∀ i < 32, (0x003F03F0 : Word).getLsbD i =
      (decide (4 ≤ i ∧ i < 10) || decide (16 ≤ i ∧ i < 22)) := by decide
  have hhigh (a : BitVec 16) : mulHigh a 0x0400 = a >>> 6 := mulHigh_twoPow (k := 10) a (by decide)
  have hhigh' (a : BitVec 16) : mulHigh a 0x0040 = a >>> 10 := mulHigh_twoPow (k := 6) a (by decide)
  have hlow (a : BitVec 16) : a * 0x0100#16 = a <<< 8 := BitVec.mul_twoPow_eq_shiftLeft a 8
  have hlow' (a : BitVec 16) : a * 0x0010#16 = a <<< 4 := BitVec.mul_twoPow_eq_shiftLeft a 4
  simp only [bytesOfW, laneSextets, hhigh, hhigh', hlow, hlow', List.cons.injEq, and_true]
  refine ⟨?_, ?_, ?_, ?_⟩ <;> ext k hk <;> grind

/-- In the lane `[b1, b0, b2, b1]` of the reshuffle those places hold the triplet's sextets (42 R173, 41 R142). -/
theorem bytesOfW_laneSextets_reshuffled (b0 b1 b2 : Byte) : bytesOfW (laneSextets (b1 ++ b2 ++ b0 ++ b1)) =
    [(split24 (triplet b0 b1 b2) 0).setWidth 8, (split24 (triplet b0 b1 b2) 1).setWidth 8,
      (split24 (triplet b0 b1 b2) 2).setWidth 8, (split24 (triplet b0 b1 b2) 3).setWidth 8] := by
  simp only [bytesOfW_laneSextets, split24_eq_extractLsb', triplet, List.cons.injEq, and_true]
  refine ⟨?_, ?_, ?_, ?_⟩ <;> ext k hk <;> grind

theorem translate_setWidth : ∀ v : Sextet, translate (v.setWidth 8) = encLut v := by decide

theorem laneW_encReshuffle (w : List Byte) {e : Nat} (he : e < 8) : laneW (encReshuffle w) e =
    laneB w (4 + 3 * e + 1) ++ laneB w (4 + 3 * e + 2) ++ laneB w (4 + 3 * e) ++ laneB w (4 + 3 * e + 1) :=
  laneW_flatMap_range (fun _ => rfl) he

theorem encBlockChars_eq_flatMap (w : List Byte) : encBlockChars w = (List.range 8).flatMap fun e =>
    tripletChars (laneB w (4 + 3 * e)) (laneB w (4 + 3 * e + 1)) (laneB w (4 + 3 * e + 2)) := by
  have hlanes : encBlockChars w = (List.range 8).flatMap fun e =>
      (bytesOfW (laneSextets (laneW (encReshuffle w) e))).map translate := List.map_flatMap
  rw [hlanes]
  refine flatMap_range_congr fun e he => ?_
  rw [laneW_encReshuffle w he, bytesOfW_laneSextets_reshuffled]
  simp only [List.map_cons, List.map_nil, translate_setWidth, tripletChars]

/-- An encoding of whole triplets, triplet by triplet. -/
theorem encodeRef_eq_flatMap (n : Nat) (b : List Byte) (h : b.length = 3 * n) : encodeRef b =
    (List.range n).flatMap fun e => tripletChars (laneB b (3 * e)) (laneB b (3 * e + 1)) (laneB b (3 * e + 2)) := by
  induction n generalizing b with
  | zero => rw [List.eq_nil_of_length_eq_zero h]; rfl
  | succ n ih =>
    match b, h with
    | b0 :: b1 :: b2 :: rest, h =>
      rw [encodeRef, ih rest (by simpa [Nat.mul_succ] using h), flatMap_range_succ]
      rfl

/-- Settles O47: both sides are the characters of the eight triplets, lane 4 on of the window. -/
theorem encBlockIsEightTriplets : Obligations.EncBlockIsEightTriplets := by
  intro w h
  have hlane : ∀ i < 24, laneB ((w.drop 4).take 24) i = laneB w (4 + i) := by
    intro i hi
    simp [laneB, List.getD_eq_getElem?_getD, hi]
  rw [encBlockChars_eq_flatMap, encodeRef_eq_flatMap 8 _ (by simp [h])]
  refine flatMap_range_congr fun e he => ?_
  rw [hlane _ (by omega), hlane _ (by omega), hlane _ (by omega), Nat.add_assoc, Nat.add_assoc]

end Sys2Proof.Machine
end

section
/-! The decode datapath (42 R180 to R184): two stages join the sextets of a quartet, and a shuffle takes out its bytes. -/

namespace Sys2Proof.Machine

theorem roll_eq_decLut : ∀ c : Byte, validChar c = true → roll c = (decLut c).setWidth 8 := by decide

/-- `JOIN24` of four sextets is the number with these base-64 digits (41 R142). -/
theorem toNat_join24 {v0 v1 v2 v3 : Word} (h0 : v0.toNat < 2 ^ 6) (h1 : v1.toNat < 2 ^ 6) (h2 : v2.toNat < 2 ^ 6)
    (h3 : v3.toNat < 2 ^ 6) : (join24 v0 v1 v2 v3).toNat =
      v0.toNat * 2 ^ 18 + v1.toNat * 2 ^ 12 + v2.toNat * 2 ^ 6 + v3.toNat := by
  obtain ⟨x, hx⟩ : ∃ x : Group,
      x.toNat = v0.toNat * 2 ^ 18 + v1.toNat * 2 ^ 12 + v2.toNat * 2 ^ 6 + v3.toNat :=
    ⟨BitVec.ofNat 24 _, (BitVec.toNat_ofNat _ _).trans (Nat.mod_eq_of_lt (by omega))⟩
  have hsextet (v : Word) (k : Nat) (h : x.toNat / 2 ^ (18 - 6 * k) % 64 = v.toNat) :
      (split24 x k).setWidth 32 = v := by
    apply BitVec.eq_of_toNat_eq
    rw [BitVec.toNat_setWidth_of_le (by decide), toNat_split24, h]
  rw [← hx, ← hsextet v0 0 (by omega), ← hsextet v1 1 (by omega), ← hsextet v2 2 (by omega),
    ← hsextet v3 3 (by omega), join24_split24]

theorem toNat_packPair {a b : Byte} (ha : a.toNat < 2 ^ 6) (hb : b.toNat < 2 ^ 6) :
    (packPair a b).toNat = a.toNat * 2 ^ 6 + b.toNat := by
  simp [packPair]
  omega

/-- The two packing stages (42 R181, R182) join four sextets. -/
theorem setWidth_packWord {d0 d1 d2 d3 : Byte} (h0 : d0.toNat < 2 ^ 6) (h1 : d1.toNat < 2 ^ 6) (h2 : d2.toNat < 2 ^ 6)
    (h3 : d3.toNat < 2 ^ 6) : (packWord (packPair d0 d1) (packPair d2 d3)).setWidth 24 =
      join24 (d0.setWidth 32) (d1.setWidth 32) (d2.setWidth 32) (d3.setWidth 32) := by
  have hwide (d : Byte) : (d.setWidth 32).toNat = d.toNat := BitVec.toNat_setWidth_of_le (by decide)
  apply BitVec.eq_of_toNat_eq
  rw [toNat_join24 (by rwa [hwide]) (by rwa [hwide]) (by rwa [hwide]) (by rwa [hwide])]
  have hab := toNat_packPair h0 h1
  have hcd := toNat_packPair h2 h3
  simp [packWord, hwide]
  omega

theorem decPack3_eq_flatMap (q : List Byte) : decPack3 q =
    (List.range 8).flatMap fun e => [laneB q (4 * e + 2), laneB q (4 * e + 1), laneB q (4 * e)] := by
  simp only [decPack3, bytesOfW_laneW]
  rfl

/-- The shuffle of 42 R183 takes the three low bytes of a lane, the highest first. -/
theorem groupBytes_setWidth (x : Word) :
    groupBytes (x.setWidth 24) = [laneB (bytesOfW x) 2, laneB (bytesOfW x) 1, laneB (bytesOfW x) 0] := by
  simp (disch := decide) only [groupBytes, BitVec.extractLsb'_setWidth_of_le]
  rfl

theorem laneH_decPack1 (d : List Byte) {j : Nat} (hj : j < 16) :
    laneH (decPack1 d) j = packPair (laneB d (2 * j)) (laneB d (2 * j + 1)) := by
  rw [decPack1, laneH_flatMap_range (fun _ => rfl) hj, laneH_bytesOfH]

theorem laneB_decPack2 (p : List Byte) {e r : Nat} (he : e < 8) (hr : r < 4) : laneB (decPack2 p) (4 * e + r) =
    laneB (bytesOfW (packWord (laneH p (2 * e)) (laneH p (2 * e + 1)))) r := by
  have hlen (w : Word) : (bytesOfW w).length = 4 := rfl
  rw [decPack2, laneB_flatMap_range (fun _ => hlen _) he hr]

/-- Each 32-bit lane of the second stage holds a quartet, and its bytes are stored highest first. -/
theorem decPack3_decPack2_decPack1 (d : List Byte) : decPack3 (decPack2 (decPack1 d)) =
    (List.range 8).flatMap fun e => groupBytes ((packWord (packPair (laneB d (4 * e)) (laneB d (4 * e + 1)))
      (packPair (laneB d (4 * e + 2)) (laneB d (4 * e + 3)))).setWidth 24) := by
  rw [decPack3_eq_flatMap]
  refine flatMap_range_congr fun e he => ?_
  have hfoot (p : List Byte) := laneB_decPack2 p he (r := 0) (by decide)
  rw [Nat.add_zero] at hfoot
  rw [laneB_decPack2 _ he (by decide), laneB_decPack2 _ he (by decide), hfoot, laneH_decPack1 _ (by omega),
    laneH_decPack1 _ (by omega), groupBytes_setWidth, show 2 * (2 * e) = 4 * e by omega,
    show 2 * (2 * e + 1) = 4 * e + 2 by omega]

/-- Settles O49: lane by lane of `Q`, which joins the sextets of a quartet. -/
theorem decBlockIsEightQuartets : Obligations.DecBlockIsEightQuartets := by
  intro c hlen hvalid
  have hlane : ∀ i < 32, laneB (c.map roll) i = (decLut (c.getD i 0)).setWidth 8 := by
    intro i hi
    rw [laneB, List.getD_eq_getElem _ _ (by simpa [hlen]), List.getD_eq_getElem _ _ (by omega), List.getElem_map,
      roll_eq_decLut _ (hvalid _ (List.getElem_mem _))]
  have hlt : ∀ i < 32, (decLut (c.getD i 0)).toNat < 2 ^ 6 := by
    intro i hi
    rw [List.getD_eq_getElem _ _ (by omega)]
    exact decLut_toNat_lt (hvalid _ (List.getElem_mem _))
  have hback : ∀ i < 32, (laneB (c.map roll) i).setWidth 32 = decLut (c.getD i 0) := by
    intro i hi
    rw [hlane i hi, BitVec.setWidth_setWidth_eq_self (BitVec.lt_def.2 ((hlt i hi).trans (by decide)))]
  have hsix : ∀ i < 32, (laneB (c.map roll) i).toNat < 2 ^ 6 := by
    intro i hi
    rw [hlane i hi, BitVec.toNat_setWidth]
    exact (Nat.mod_le _ _).trans_lt (hlt i hi)
  rw [decBlockBytes, decDatapath, decPack3_decPack2_decPack1]
  refine flatMap_range_congr fun e he => ?_
  rw [setWidth_packWord (hsix _ (by omega)) (hsix _ (by omega)) (hsix _ (by omega)) (hsix _ (by omega)),
    hback _ (by omega), hback _ (by omega), hback _ (by omega), hback _ (by omega), quartetBytes]

end Sys2Proof.Machine
end

section
/-! What is left of a codec's work after some whole triplets or some valid quartets (41 R146, R154). -/

namespace Sys2Proof.Machine

/-- Whole triplets are encoded apart from what follows them. -/
theorem encodeRef_append {b : List Byte} (h : b.length % 3 = 0) (rest : List Byte) :
    encodeRef (b ++ rest) = encodeRef b ++ encodeRef rest := by
  induction b using encodeRef.induct with
  | case1 b0 b1 b2 b ih =>
    have hb : b.length % 3 = 0 := (Nat.add_mod_right b.length 3).symm.trans h
    rw [encodeRef, List.append_assoc, ← ih hb]
    rfl
  | case2 b0 b1 => simp at h
  | case3 b0 => simp at h
  | case4 => rfl

/-- Valid quartets are decoded apart from what follows them. -/
theorem decodeFrom_append (n q : Nat) {c : List Byte} (hlen : c.length = 4 * n)
    (hvalid : ∀ b ∈ c, validChar b = true) (rest : List Byte) : decodeFrom q (c ++ rest) =
      (decodeFrom (q + n) rest).map (((List.range n).flatMap fun e => quartetBytes (c.getD (4 * e) 0)
        (c.getD (4 * e + 1) 0) (c.getD (4 * e + 2) 0) (c.getD (4 * e + 3) 0)) ++ ·) := by
  induction n generalizing q c with
  | zero =>
    rw [List.eq_nil_of_length_eq_zero hlen]
    cases h : decodeFrom q rest <;> simp [h, Except.map]
  | succ n ih =>
    match c, hlen with
    | c0 :: c1 :: c2 :: c3 :: c, hlen =>
      have hgroup : groupValid [c0, c1, c2, c3] = true := (thresholdTestExact _).2 fun b hb =>
        hvalid b (List.mem_append_left c hb)
      have hrest := ih (q + 1) (c := c) (by simpa [Nat.mul_succ] using hlen) fun b hb =>
        hvalid b (List.mem_append_right [c0, c1, c2, c3] hb)
      rw [flatMap_range_succ, show q + (n + 1) = q + 1 + n by omega]
      refine (decodeFrom_of_groupValid q (c ++ rest) hgroup).trans ?_
      rw [hrest]
      cases decodeFrom (q + 1 + n) rest with
      | error e => rfl
      | ok bs => exact congrArg Except.ok (List.append_assoc _ _ _).symm

end Sys2Proof.Machine
end

section
/-! A command's source and its stored output: what the codec reads from the cursor on, and what storing leaves (20 R84). -/

namespace Sys2Proof.Safety

open Sys2Proof.Machine

theorem storeBytes_congr {u v : State} (h : v.dstAddr = u.dstAddr) (j : Nat) (bs : List Byte) (m : List Host.Cell) :
    storeBytes v j bs m = storeBytes u j bs m := by
  induction bs generalizing j m with
  | nil => rfl
  | cons b bs ih => rw [storeBytes, ih, State.dstAt, h]; rfl

theorem storeBytes_append (u : State) (j : Nat) (bs cs : List Byte) (m : List Host.Cell) :
    storeBytes u j (bs ++ cs) m = storeBytes u (j + bs.length) cs (storeBytes u j bs m) := by
  induction bs generalizing j m with
  | nil => rfl
  | cons b bs ih =>
    rw [List.cons_append, storeBytes, ih, List.length_cons, Nat.add_assoc, Nat.add_comm 1]
    rfl

theorem sourceBytes_drop (u : State) {i k : Nat} (h : i + k ≤ u.len) : u.sourceBytes.drop i =
    (List.range k).map (fun d => u.input (i + d)) ++ u.sourceBytes.drop (i + k) := by
  rw [← List.take_append_drop k (u.sourceBytes.drop i), List.drop_drop]
  congr 1
  apply List.ext_getElem
  · simp [State.sourceBytes]
    omega
  · simp [State.sourceBytes]

/-- Past its checks a command's regions are within the address space and apart (43 R209). -/
theorem rangesOk_of_pastChecks {u : State} (h : PastChecks u) : rangesOk u.src u.len u.dst u.req = true := by
  rcases op_of_pastChecks h with hop | hop
  · have hready : encReady u := by simpa only [PastChecks, hop] using h
    obtain ⟨-, -, hranges⟩ := hready
    simpa only [State.req, hop] using hranges
  · have hready : decReady u := by simpa only [PastChecks, hop] using h
    obtain ⟨-, -, -, hranges⟩ := hready
    simpa only [State.req, hop] using hranges

theorem src_fits {u : State} (h : PastChecks u) : u.src + u.len ≤ Config.addrSpace := by
  have hranges := rangesOk_of_pastChecks h
  have hsrc : u.src < 2 ^ 32 := u.srcAddr.isLt
  simp only [rangesOk, fits, Bool.and_eq_true, Bool.or_eq_true, beq_iff_eq, decide_eq_true_eq] at hranges
  obtain ⟨⟨hfits, -⟩, -⟩ := hranges
  unfold Config.addrSpace at hfits ⊢
  omega

/-- A source byte lies outside what the command stores. -/
theorem src_outside_dst {u : State} (h : PastChecks u) {i j k : Nat} (hi : i < u.len) (hk : j + k ≤ u.req) :
    u.src + i < u.dst + j ∨ u.dst + j + k ≤ u.src + i ∨ k = 0 := by
  have hranges := rangesOk_of_pastChecks h
  simp only [rangesOk, disjoint, Bool.and_eq_true, Bool.or_eq_true, beq_iff_eq, decide_eq_true_eq] at hranges
  obtain ⟨-, hdisjoint⟩ := hranges
  omega

theorem input_storeBytes {u v : State} (h : PastChecks u) (hsrc : v.srcAddr = u.srcAddr) {j : Nat} {bs : List Byte}
    (hmem : v.mem = storeBytes u j bs u.mem) (hbs : j + bs.length ≤ u.req) {i : Nat} (hi : i < u.len) :
    v.input i = u.input i := by
  obtain ⟨-, hdst, -⟩ := req_fits h
  have hat : (u.srcAt i).toNat = u.src + i := toNat_srcAt u (by have := src_fits h; omega)
  rw [State.input, State.input, State.srcAt, hsrc, hmem]
  change Mem.get _ (u.srcAt i).toNat = _
  rw [hat]
  rcases src_outside_dst h hi hbs with hbelow | habove | hnone
  · exact get_storeBytes_outside u _ (by omega) (.inl hbelow)
  · exact get_storeBytes_outside u _ (by omega) (.inr habove)
  · rw [List.eq_nil_of_length_eq_zero hnone, storeBytes]

end Sys2Proof.Safety
end

section
/-! A platform that answers every transfer: no unit operation and no end of a command meets an error response (20 R82,
R83). -/

namespace Sys2Proof.Safety

open Sys2Proof.Machine

/-- Where no address of a list lies in a region, none lies in the start of the region. -/
theorem filter_inRegion_eq_nil {as : List Word} {base k l : Nat}
    (h : as.any (fun a => inRegion base k a.toNat) = false) (hl : l ≤ k) :
    as.filter (fun a => inRegion base l a.toNat) = [] := by
  rw [List.filter_eq_nil_iff]
  intro a ha
  have hout := inRegion_false.1 (Bool.eq_false_iff.2 (List.any_eq_false.1 h a ha))
  exact Bool.eq_false_iff.1 (inRegion_false.2 (by omega))

theorem inRegion_offset {base k i : Nat} (h : i < k) : inRegion base k (base + i) = true := by
  simp [inRegion, h]

theorem firstReadError_quiet {u : State} (hp : PastChecks u) (hq : quietBus u.req u) {i k : Nat} (h : i + k ≤ u.len) :
    firstReadError u i k = none := by
  obtain ⟨-, hread, -⟩ := hq
  have hsrc := src_fits hp
  rw [firstReadError, List.find?_eq_none]
  intro a ha hbad
  obtain ⟨d, hd, rfl⟩ := List.mem_map.1 ha
  have hin := List.any_eq_false.1 hread _ (List.contains_iff_mem.1 hbad)
  have hd' := List.mem_range.1 hd
  rw [toNat_srcAt u (by omega)] at hin
  exact hin (inRegion_offset (by omega))

theorem firstWriteError_quiet {u : State} (hp : PastChecks u) (hq : quietBus u.req u) {j k : Nat}
    (h : j + k ≤ u.req) : firstWriteError u j k = none := by
  obtain ⟨-, -, hwrite, -⟩ := hq
  obtain ⟨-, hdst, -⟩ := req_fits hp
  rw [firstWriteError, List.find?_eq_none]
  intro a ha hbad
  obtain ⟨d, hd, rfl⟩ := List.mem_map.1 ha
  have hin := List.any_eq_false.1 hwrite _ (List.contains_iff_mem.1 hbad)
  have hd' := List.mem_range.1 hd
  rw [toNat_dstAt u (by omega)] at hin
  exact hin (inRegion_offset (by omega))

theorem firstError_quiet {u : State} (hp : PastChecks u) (hq : quietBus u.req u) {i k j l : Nat} (hk : i + k ≤ u.len)
    (hl : j + l ≤ u.req) : firstError u i k j l = none := by
  rw [firstError, firstReadError_quiet hp hq hk, firstWriteError_quiet hp hq hl, Option.none_or]

theorem srcRegionLen_le (u : State) : u.srcRegionLen ≤ u.len := by
  unfold State.srcRegionLen
  split <;> omega

theorem writtenLen_le (u : State) : u.writtenLen ≤ u.req := by
  cases hop : u.op with
  | enc => simp only [State.writtenLen, State.req, hop, le_refl]
  | dec => simp only [State.writtenLen, State.req, hop, Nat.sub_le]
  | enclen => simp only [State.writtenLen, hop, Nat.zero_le]
  | declen => simp only [State.writtenLen, hop, Nat.zero_le]
  | illegal => simp only [State.writtenLen, hop, Nat.zero_le]

theorem failingAddrs_quiet {u : State} (hq : quietBus u.req u) (he : u.earlier = []) : failingAddrs u = [] := by
  obtain ⟨hanswers, hread, hwrite, -⟩ := hq
  have hbuses : u.buses = [u.bus] := by simp [State.buses, he, hanswers]
  have hreads : failingReads u = [] := by
    rw [failingReads, hbuses, List.flatMap_singleton]
    exact filter_inRegion_eq_nil hread (srcRegionLen_le u)
  have hwrites : failingWrites u = [] := by
    rw [failingWrites, hbuses, List.flatMap_singleton]
    exact filter_inRegion_eq_nil hwrite (writtenLen_le u)
  rw [failingAddrs, hreads, hwrites, List.append_nil]

end Sys2Proof.Safety
end

section
/-! The run of an undisturbed command whose checks pass: each engine step stores the next part of the codec's result or ends
the command (41 R146, R154; 42 R177, R186, R187). -/

namespace Sys2Proof.Safety

open Sys2Proof.Machine

/-! ### What is left to do, and what the end shows -/

/-- The codec's result on a source from offset `i` on: the bytes still to store, or the least invalid quartet. -/
def resultFrom (op : Op) (i : Nat) (src : List Byte) : Except Nat (List Byte) :=
  match op with
  | .enc => .ok (encodeRef (src.drop i))
  | .dec => decodeFrom (i / 4) (src.drop i)
  | .enclen => .ok []
  | .declen => .ok []
  | .illegal => .ok []

/-- The result that a running command has still to give. -/
def pendingResult (u : State) : Except Nat (List Byte) := resultFrom u.op u.inOff.toNat u.sourceBytes

/-- The command of `u` has ended in `t` with the result `r`: its bytes stored from the cursor on and counted, or its invalid
quartet reported. -/
def Finishes (r : Except Nat (List Byte)) (u t : State) : Prop :=
  match r with
  | .ok bs => Completed t 0 (u.outOff + BitVec.ofNat 32 bs.length) 0 ∧
      t.mem = storeBytes u u.outOff.toNat bs u.mem
  | .error q => Completed t 2 0 (BitVec.ofNat 32 q)

theorem Finishes.phase {r : Except Nat (List Byte)} {u t : State} (h : Finishes r u t) : t.phase = .idle := by
  cases r with
  | ok bs => exact h.1.phase
  | error q => exact Completed.phase h

theorem finishes_raise_invalidCharacter {u : State} (ht : u.tainted = false) (q : Nat) (u' : State) :
    Finishes (.error q) u' (raise (.invalidCharacter (BitVec.ofNat 32 q)) u) :=
  completed_raise ht _

/-- A running command whose checks pass or have passed, undisturbed, on a platform that answers its transfers. -/
structure Running (u : State) : Prop where
  phase : u.phase = .run
  checks : PastChecks u
  cursors : CursorsOk u
  quiet : quietBus u.req u
  earlier : u.earlier = []
  tainted : u.tainted = false

/-- How far a stage is from the end, in changes of stage. -/
def stageRank : Stage → Nat
  | .check => 3
  | .vector => 2
  | .scalar => 1
  | .finish => 0

/-- A bound on the engine steps before the last one: each consumes input or changes the stage. -/
def stepsLeft (u : State) : Nat := u.remaining + stageRank u.stage

/-- The running command has come nearer to its end, and will end with what was pending. -/
structure Advances (u v : State) : Prop where
  running : Running v
  nearer : stepsLeft v < stepsLeft u
  finishes : ∀ t, Finishes (pendingResult v) v t → Finishes (pendingResult u) u t

/-! ### Stored output -/

/-- `v` is `u` with `bs` stored at the cursor and the cursors past them and past `k` input bytes; its working state and its
stage are free. -/
structure Emitted (k : Nat) (bs : List Byte) (u v : State) : Prop where
  op : v.op = u.op
  srcAddr : v.srcAddr = u.srcAddr
  srcLen : v.srcLen = u.srcLen
  dstAddr : v.dstAddr = u.dstAddr
  phase : v.phase = u.phase
  bus : v.bus = u.bus
  earlier : v.earlier = u.earlier
  tainted : v.tainted = u.tainted
  inOff : v.inOff = u.inOff + BitVec.ofNat 32 k
  outOff : v.outOff = u.outOff + BitVec.ofNat 32 bs.length
  mem : v.mem = storeBytes u u.outOff.toNat bs u.mem

theorem emitted_emit (k : Nat) (bs : List Byte) (u : State) (vec : VecRegs) (blkOk : Bool) (pad : Fin 3) :
    Emitted k bs u (emit k bs { u with vec := vec, blkOk := blkOk, pad := pad }) where
  op := rfl
  srcAddr := rfl
  srcLen := rfl
  dstAddr := rfl
  phase := rfl
  bus := rfl
  earlier := rfl
  tainted := rfl
  inOff := rfl
  outOff := rfl
  mem := storeBytes_congr (u := u) (v := { u with vec := vec, blkOk := blkOk, pad := pad }) rfl _ bs u.mem

theorem emitted_nothing (u : State) (vec : VecRegs) (blkOk : Bool) :
    Emitted 0 [] u { u with vec := vec, blkOk := blkOk } :=
  ⟨rfl, rfl, rfl, rfl, rfl, rfl, rfl, rfl, (BitVec.add_zero _).symm, (BitVec.add_zero _).symm, rfl⟩

theorem Emitted.goTo {k : Nat} {bs : List Byte} {u v : State} (e : Emitted k bs u v) (g : Stage) :
    Emitted k bs u (goTo g v) := by
  unfold Machine.goTo
  split
  · exact ⟨e.op, e.srcAddr, e.srcLen, e.dstAddr, e.phase, e.bus, e.earlier, e.tainted, e.inOff, e.outOff, e.mem⟩
  · exact e

theorem Emitted.enterScalar {k : Nat} {bs : List Byte} {u v : State} (e : Emitted k bs u v) :
    Emitted k bs u (enterScalar v) := by
  unfold Machine.enterScalar
  split <;> exact ⟨e.op, e.srcAddr, e.srcLen, e.dstAddr, e.phase, e.bus, e.earlier, e.tainted, e.inOff, e.outOff, e.mem⟩

theorem goTo_stage {g : Stage} {u : State} (h : u.phase = .run) : (goTo g u).stage = g := by
  rw [goTo, if_pos (busy_of_run h)]

/-- An end after stored output is an end with that output first. -/
theorem Emitted.finishes {k : Nat} {bs : List Byte} {u v t : State} (e : Emitted k bs u v)
    (hout : v.outOff.toNat = u.outOff.toNat + bs.length) {r : Except Nat (List Byte)} (h : Finishes r v t) :
    Finishes (r.map (bs ++ ·)) u t := by
  cases r with
  | error q => exact h
  | ok cs =>
    obtain ⟨hrecord, hmem⟩ := h
    refine ⟨?_, ?_⟩
    · rwa [List.length_append, BitVec.ofNat_add, ← BitVec.add_assoc, ← e.outOff]
    · rw [hmem, e.mem, hout, storeBytes_congr e.dstAddr, ← storeBytes_append]

theorem Emitted.len {k : Nat} {bs : List Byte} {u v : State} (e : Emitted k bs u v) : v.len = u.len := by
  rw [State.len, e.srcLen, State.len]

theorem Emitted.req {k : Nat} {bs : List Byte} {u v : State} (e : Emitted k bs u v) : v.req = u.req := by
  rw [State.req, e.op, e.len, State.req]

theorem Emitted.sourceBytes {k : Nat} {bs : List Byte} {u v : State} (e : Emitted k bs u v) (hp : PastChecks u)
    (hbs : u.outOff.toNat + bs.length ≤ u.req) : v.sourceBytes = u.sourceBytes := by
  rw [State.sourceBytes, e.len, State.sourceBytes]
  exact List.map_congr_left fun i hi => input_storeBytes hp e.srcAddr e.mem hbs (List.mem_range.1 hi)

/-- The step that stores `bs`, the next part of the result, for the next `k` input bytes. -/
theorem Running.advances {u v : State} (h : Running u) (hstep : engineStep u = v) {k : Nat} {bs : List Byte}
    (e : Emitted k bs u v) (hk : u.inOff.toNat + k ≤ u.len) (hbs : u.outOff.toNat + bs.length ≤ u.req) {g : Stage}
    (hstage : v.stage = g) (hrank : stageRank g < stageRank u.stage + k)
    (hresult : pendingResult u = (resultFrom u.op (u.inOff.toNat + k) u.sourceBytes).map (bs ++ ·)) :
    Advances u v := by
  have hlen := len_lt u
  obtain ⟨-, -, hreq⟩ := req_fits h.checks
  have hrun : v.phase = .run := e.phase.trans h.phase
  have hin : v.inOff.toNat = u.inOff.toNat + k := e.inOff ▸ toNat_add_ofNat (by omega)
  have hout : v.outOff.toNat = u.outOff.toNat + bs.length := e.outOff ▸ toNat_add_ofNat (by omega)
  have hkept : PastChecks v ∧ CursorsOk v := by
    rcases engineStep_cases h.phase (fun _ => h.checks) h.cursors with hsame | hended | ⟨-, hgoing⟩
    · rw [← hstep, hsame]
      exact ⟨h.checks, h.cursors⟩
    · rw [hstep] at hended
      exact absurd (hrun.symm.trans hended.phase) (by decide)
    · exact hstep ▸ hgoing
  have hquiet : quietBus v.req v := by
    rw [quietBus, e.req, e.bus, State.src, e.srcAddr, State.dst, e.dstAddr, e.len]
    exact h.quiet
  refine ⟨⟨hrun, hkept.1, hkept.2, hquiet, e.earlier.trans h.earlier, e.tainted.trans h.tainted⟩, ?_,
    fun t ht => ?_⟩
  · rw [stepsLeft, stepsLeft, State.remaining, State.remaining, hin, e.len, hstage]
    omega
  · rw [hresult, ← hin, ← e.op, ← e.sourceBytes h.checks hbs]
    exact e.finishes hout ht

/-- The step that only changes the stage. -/
theorem Running.advances_stage {u v : State} (h : Running u) (hstep : engineStep u = v) (e : Emitted 0 [] u v)
    (hin : u.inOff.toNat ≤ u.len) (hout : u.outOff.toNat ≤ u.req) {g : Stage} (hstage : v.stage = g)
    (hrank : stageRank g < stageRank u.stage) : Advances u v := by
  refine h.advances hstep e hin hout hstage hrank ?_
  rw [Nat.add_zero, pendingResult]
  cases resultFrom u.op u.inOff.toNat u.sourceBytes <;> rfl

/-! ### One engine step, stage by stage -/

theorem engineStep_vector {u : State} (h : Running u) (hst : u.stage = .vector) : engineStep u = vectorStep u := by
  simp [engineStep, h.phase, hst, h.quiet.1]

theorem engineStep_scalar {u : State} (h : Running u) (hst : u.stage = .scalar) : engineStep u = scalarStep u := by
  simp [engineStep, h.phase, hst, h.quiet.1]

end Sys2Proof.Safety
end

section
/-! The encoder's steps on a platform that answers (41 R143 to R146, 42 R171, R177). -/

namespace Sys2Proof.Safety

open Sys2Proof.Machine

theorem req_enc {u : State} (hop : u.op = .enc) : u.req = encodeLen u.len := by
  simp [State.req, hop]

/-- The encoding from one offset on is that of the next whole triplets, then that from the offset after them on. -/
theorem resultFrom_enc_triplets {u : State} {i k : Nat} (hk : i + k ≤ u.len) (hmod : k % 3 = 0) :
    resultFrom .enc i u.sourceBytes = (resultFrom .enc (i + k) u.sourceBytes).map
      (encodeRef ((List.range k).map fun d => u.input (i + d)) ++ ·) := by
  rw [resultFrom, sourceBytes_drop u hk, encodeRef_append (by simpa using hmod)]
  rfl

/-- The encoding from the offset of the tail on is the tail's. -/
theorem resultFrom_enc_tail {u : State} {i k : Nat} (hk : i + k = u.len) :
    resultFrom .enc i u.sourceBytes = (resultFrom .enc (i + k) u.sourceBytes).map
      (encodeRef ((List.range k).map fun d => u.input (i + d)) ++ ·) := by
  have hend : u.sourceBytes.drop (i + k) = [] := List.drop_eq_nil_of_le (by simp [State.sourceBytes, hk])
  rw [resultFrom, sourceBytes_drop u hk.le, resultFrom, hend, List.append_nil]
  simp [Except.map, encodeRef]

theorem encWindow_drop_take {u : State} (h : u.inOff.toNat + 24 ≤ u.len) :
    ((encWindow u).drop 4).take 24 = (List.range 24).map fun d => u.input (u.inOff.toNat + d) := by
  apply List.ext_getElem
  · simp [encWindow]
  · intro d hd hd'
    have hd24 : d < 24 := by simpa using hd'
    have hoff : u.inOff.toNat + (4 + d) - 4 = u.inOff.toNat + d := by omega
    simp [encWindow, hoff]
    omega

theorem unit_quiet {u : State} (h : Running u) {k : Nat} {bs : List Byte} (hk : u.inOff.toNat + k ≤ u.len)
    (hbs : u.outOff.toNat + bs.length ≤ u.req) : unit k bs u = emit k bs u := by
  rw [unit, firstError_quiet h.checks h.quiet hk hbs, meetError_none]

theorem vencBlock_quiet {u : State} (h : Running u) (hk : u.inOff.toNat + 24 ≤ u.len)
    (hbs : u.outOff.toNat + 32 ≤ u.req) : vencBlock u =
      emit 24 (encBlockChars (encWindow u)) { u with vec := encVecRegs u.vec (encWindow u) } := by
  have hread : u.inOff.toNat - 4 + (min (u.inOff.toNat + 28) u.len - (u.inOff.toNat - 4)) ≤ u.len := by omega
  have hnone := firstError_quiet h.checks h.quiet hread hbs
  simp only [vencBlock, Config.encBlkOut, Config.encBlkIn, hnone, meetError_none]

/-- A block of the vector loop stores its eight triplets' characters; else the scalar loop takes over. -/
theorem Running.vectorEnc {u : State} (h : Running u) (hst : u.stage = .vector) (hop : u.op = .enc) :
    Advances u (engineStep u) := by
  obtain ⟨-, h24, hle, hout⟩ := (cursorsOk_vector_enc hst hop).1 h.cursors
  have hrem : u.remaining = u.len - u.inOff.toNat := rfl
  have hstep : engineStep u = vectorEncStep u := by rw [engineStep_vector h hst, vectorStep, hop]
  rw [vectorEncStep] at hstep
  split at hstep
  · rename_i hblock
    rw [Config.encVecMin] at hblock
    have hroom : u.outOff.toNat + 32 ≤ u.req := by
      rw [req_enc hop, hout]
      unfold encodeLen
      split <;> split <;> omega
    rw [vencBlock_quiet h (by omega) hroom] at hstep
    rw [hstep]
    refine h.advances (g := u.stage) hstep (emitted_emit 24 _ u _ u.blkOk u.pad) (by omega)
      (by rwa [encBlockChars_length]) (emit_stage _ _ _) (by omega) ?_
    rw [encBlockIsEightTriplets _ (by simp [encWindow]), encWindow_drop_take (by omega), pendingResult, hop]
    exact resultFrom_enc_triplets (by omega) (by decide)
  · rw [hstep]
    exact h.advances_stage hstep (emitted_nothing u u.vec u.blkOk).enterScalar hle
      (by rw [req_enc hop, hout]; exact encodeLen_mono hle) (enterScalar_stage _) (by rw [hst]; decide)

/-- The scalar loop stores a triplet's characters, then the tail's, and ends with the input. -/
theorem Running.scalarEnc {u : State} (h : Running u) (hst : u.stage = .scalar) (hop : u.op = .enc) :
    Advances u (engineStep u) := by
  obtain ⟨h3, hle, hout⟩ := (cursorsOk_scalar_enc hst hop).1 h.cursors
  have hrem : u.remaining = u.len - u.inOff.toNat := rfl
  have hroom : 0 < u.remaining → u.outOff.toNat + 4 ≤ u.req := by
    intro hpos
    rw [req_enc hop, hout, encodeLen_of_mod h3]
    exact encodeLen_room h3 (by omega)
  have hrank : stageRank .finish < stageRank u.stage := by rw [hst]; decide
  have htail : ∀ (k : Nat) (bs : List Byte), k = u.remaining → 0 < k → bs.length = 4 →
      bs = encodeRef ((List.range k).map fun d => u.input (u.inOff.toNat + d)) →
      engineStep u = goTo .finish (unit k bs u) → Advances u (engineStep u) := by
    intro k bs hk hpos hlen hbs hstep
    have hroom4 := hroom (by omega)
    rw [unit_quiet h (by omega) (by omega)] at hstep
    rw [hstep]
    refine h.advances hstep ((emitted_emit k bs u u.vec u.blkOk u.pad).goTo .finish) (by omega) (by omega)
      (goTo_stage h.phase) (by omega) ?_
    rw [pendingResult, hop, hbs]
    exact resultFrom_enc_tail (by omega)
  have hstep : engineStep u = scalarEncStep u := by rw [engineStep_scalar h hst, scalarStep, hop]
  rw [scalarEncStep] at hstep
  split at hstep
  · have hroom4 := hroom (by omega)
    rw [encTriplet, unit_quiet (bs := tripletChars _ _ _) h (by omega) hroom4] at hstep
    rw [hstep]
    refine h.advances (k := 3) (g := u.stage) hstep (emitted_emit 3 _ u u.vec u.blkOk u.pad) (by omega) hroom4
      (emit_stage _ _ _) (by omega) ?_
    rw [pendingResult, hop]
    exact resultFrom_enc_triplets (u := u) (k := 3) (by omega) (by decide)
  · split at hstep
    · exact htail 2 _ (by omega) (by decide) rfl rfl hstep
    · split at hstep
      · exact htail 1 _ (by omega) (by decide) rfl rfl hstep
      · rw [hstep]
        exact h.advances_stage hstep ((emitted_nothing u u.vec u.blkOk).goTo .finish) hle
          (by rw [req_enc hop, hout]; exact encodeLen_mono hle) (goTo_stage h.phase) hrank

end Sys2Proof.Safety
end

section
/-! The decoder's steps on a platform that answers (41 R148 to R156, 42 R179, R184, R186, R187). -/

namespace Sys2Proof.Safety

open Sys2Proof.Machine

theorem req_dec {u : State} (hop : u.op = .dec) : u.req = decodeLen u.len := by
  simp [State.req, hop]

theorem len_mod_four {u : State} (h : Running u) (hop : u.op = .dec) : u.len % 4 = 0 := by
  have hready : decReady u := by simpa only [PastChecks, hop] using h.checks
  obtain ⟨-, hmod, -⟩ := hready
  exact hmod

/-- The source from the cursor on begins with its quartet. -/
theorem sourceBytes_drop_quartet {u : State} (hk : u.inOff.toNat + 4 ≤ u.len) :
    u.sourceBytes.drop u.inOff.toNat =
      u.next 0 :: u.next 1 :: u.next 2 :: u.next 3 :: u.sourceBytes.drop (u.inOff.toNat + 4) :=
  sourceBytes_drop u hk

theorem sourceBytes_drop_len (u : State) : u.sourceBytes.drop u.len = [] :=
  List.drop_eq_nil_of_le (by simp [State.sourceBytes])

/-- A decode unit either stores its bytes or reports its quartet. -/
theorem decUnit_quiet {u : State} (hp : PastChecks u) (hq : quietBus u.req u) (he : u.earlier = []) {k : Nat}
    {bs : List Byte} (cs : List Byte) (hk : u.inOff.toNat + k ≤ u.len) (hbs : u.outOff.toNat + bs.length ≤ u.req) :
    decUnit k cs bs u =
      if groupValid cs then emit k bs u else raise (.invalidCharacter (BitVec.ofNat 32 u.quartet)) u := by
  rw [decUnit, firstReadError_quiet hp hq hk, meetError_none, firstWriteError_quiet hp hq hbs, meetError_none,
    raiseInvalid, failingAddrs_quiet hq he]

/-- What the engine's next step of a running command leads to. -/
abbrev Progress (u v : State) : Prop := Finishes (pendingResult u) u v ∨ Advances u v

/-- The scalar loop stores a quartet that is not the final one, or reports it. -/
theorem Running.scalarDec_quartet {u : State} (h : Running u) (hst : u.stage = .scalar) (hop : u.op = .dec)
    (hmore : 4 < u.remaining) : Progress u (engineStep u) := by
  obtain ⟨h4, hlt, hout⟩ := (cursorsOk_scalar_dec hst hop).1 h.cursors
  have hrem : u.remaining = u.len - u.inOff.toNat := rfl
  have hroom : u.outOff.toNat + 3 ≤ u.req := by
    rw [req_dec hop, hout]
    unfold decodeLen
    omega
  have hsrc := sourceBytes_drop_quartet (u := u) (by omega)
  have hstep : engineStep u = scalarDecStep u := by rw [engineStep_scalar h hst, scalarStep, hop]
  rw [scalarDecStep, if_pos hmore, decQuartet,
    decUnit_quiet (bs := quartetBytes _ _ _ _) h.checks h.quiet h.earlier _ (by omega) hroom] at hstep
  split at hstep
  · rename_i hvalid
    right
    rw [hstep]
    refine h.advances (g := u.stage) hstep (emitted_emit 4 _ u u.vec u.blkOk u.pad) (by omega) hroom
      (emit_stage _ _ _) (by omega) ?_
    rw [pendingResult, hop, resultFrom, hsrc, decodeFrom_of_groupValid _ _ hvalid, ← Nat.add_div_right _ (by decide)]
    rfl
  · rename_i hvalid
    left
    have hrest : u.sourceBytes.drop (u.inOff.toNat + 4) ≠ [] := by
      rw [← List.length_pos_iff]
      simp [State.sourceBytes]
      omega
    rw [hstep, pendingResult, hop, resultFrom, hsrc, decodeFrom_of_not_groupValid _ hrest (by simpa using hvalid)]
    exact finishes_raise_invalidCharacter h.tainted _ u

/-- The unit of the final quartet, for the pad count `p`: its bytes are stored and the input ends, or it is reported. -/
theorem Running.decUnit_final {u : State} (h : Running u) (hst : u.stage = .scalar) (hop : u.op = .dec)
    (hlast : u.inOff.toNat + 4 = u.len) (p : Fin 3) {cs bs : List Byte} (hbs : bs.length = 3 - p.val)
    (hstep : engineStep u = goTo .finish (decUnit 4 cs bs { u with pad := p }))
    (hresult : pendingResult u = if groupValid cs then .ok bs else .error u.quartet) : Progress u (engineStep u) := by
  obtain ⟨-, -, hout⟩ := (cursorsOk_scalar_dec hst hop).1 h.cursors
  have hroom : u.outOff.toNat + bs.length ≤ u.req := by
    rw [req_dec hop, hout]
    unfold decodeLen
    omega
  rw [decUnit_quiet (u := { u with pad := p }) (by exact h.checks) (by exact h.quiet) h.earlier cs hlast.le
    (by exact hroom)] at hstep
  split at hstep
  · rename_i hvalid
    right
    rw [hstep]
    refine h.advances hstep ((emitted_emit 4 bs u u.vec u.blkOk p).goTo .finish) hlast.le hroom (goTo_stage h.phase)
      (by rw [hst]; decide) ?_
    rw [hresult, if_pos hvalid, hop, resultFrom, hlast, sourceBytes_drop_len, decodeFrom_nil, Except.map,
      List.append_nil]
  · rename_i hvalid
    left
    rw [hstep, hresult, if_neg hvalid, goTo_ended (ended_raise _ _)]
    exact finishes_raise_invalidCharacter (u := { u with pad := p }) h.tainted u.quartet u

/-- The scalar loop's last step: the pad count selects the unit. -/
theorem Running.scalarDec_final {u : State} (h : Running u) (hst : u.stage = .scalar) (hop : u.op = .dec)
    (hlast : ¬ 4 < u.remaining) : Progress u (engineStep u) := by
  obtain ⟨h4, hlt, hout⟩ := (cursorsOk_scalar_dec hst hop).1 h.cursors
  have hrem : u.remaining = u.len - u.inOff.toNat := rfl
  have hmod := len_mod_four h hop
  have hend : u.inOff.toNat + 4 = u.len := by omega
  have hsrc := sourceBytes_drop_quartet hend.le
  have hpad : u.padCount = padOf (u.next 2) (u.next 3) := by
    rw [State.padCount, ← hend]
    rfl
  have hresult : pendingResult u = decodeFinal u.quartet (u.next 0) (u.next 1) (u.next 2) (u.next 3) := by
    rw [pendingResult, hop, resultFrom, hsrc, hend, sourceBytes_drop_len, decodeFrom_final]
    rfl
  have hstep : engineStep u = goTo .finish (decFinal u) := by
    rw [engineStep_scalar h hst, scalarStep, hop]
    exact if_neg hlast
  rw [decodeFinal, ← hpad] at hresult
  simp only [decFinal] at hstep
  generalize u.padCount = p at hstep hresult
  match p with
  | 0 => exact h.decUnit_final hst hop hend 0 (bs := quartetBytes _ _ _ _) rfl hstep hresult
  | 1 => exact h.decUnit_final hst hop hend 1 (bs := tail3Bytes _ _ _) rfl hstep hresult
  | 2 => exact h.decUnit_final hst hop hend 2 (bs := tail2Bytes _ _) rfl hstep hresult

theorem vdecBlock_quiet {u : State} (hp : PastChecks u) (hq : quietBus u.req u) (hbs : u.outOff.toNat + 24 ≤ u.req) :
    vdecBlock u = emit 32 (decBlockBytes (decWindow u)) { u with vec := decVecRegs u.vec (decWindow u) } := by
  have hnone := firstWriteError_quiet hp hq hbs
  simp only [vdecBlock, Config.decBlkOut, Config.decBlkIn, hnone, meetError_none]

/-- A valid block is eight quartets of the result (42 R184). -/
theorem resultFrom_dec_block {u : State} (hk : u.inOff.toNat + 32 ≤ u.len) (hvalid : blockValid (decWindow u) = true) :
    resultFrom .dec u.inOff.toNat u.sourceBytes =
      (resultFrom .dec (u.inOff.toNat + 32) u.sourceBytes).map (decBlockBytes (decWindow u) ++ ·) := by
  have hchars := (blockValidityExact _).1 hvalid
  have hlen : (decWindow u).length = 32 := by simp [decWindow]
  have hsrc : u.sourceBytes.drop u.inOff.toNat = decWindow u ++ u.sourceBytes.drop (u.inOff.toNat + 32) :=
    sourceBytes_drop u hk
  rw [resultFrom, hsrc, decodeFrom_append 8 _ hlen hchars, ← decBlockIsEightQuartets _ hlen hchars,
    show u.inOff.toNat / 4 + 8 = (u.inOff.toNat + 32) / 4 by omega]
  rfl

/-- A valid block of the vector loop stores its bytes; else the scalar loop takes over where the block began (42 R187). -/
theorem Running.vectorDec {u : State} (h : Running u) (hst : u.stage = .vector) (hop : u.op = .dec) :
    Advances u (engineStep u) := by
  obtain ⟨-, h32, hlt, hout⟩ := (cursorsOk_vector_dec hst hop).1 h.cursors
  have hrem : u.remaining = u.len - u.inOff.toNat := rfl
  have hmod := len_mod_four h hop
  have hstored : u.outOff.toNat ≤ u.req := by
    rw [req_dec hop, hout]
    exact decodeLen_mono hlt.le
  have hfallback : ∀ vec blkOk, engineStep u = enterScalar { u with vec := vec, blkOk := blkOk } →
      Advances u (engineStep u) := by
    intro vec blkOk hstep
    rw [hstep]
    exact h.advances_stage hstep (emitted_nothing u vec blkOk).enterScalar hlt.le hstored (enterScalar_stage _)
      (by rw [hst]; decide)
  have hstep : engineStep u = vectorDecStep u := by rw [engineStep_vector h hst, vectorStep, hop]
  rw [vectorDecStep] at hstep
  split at hstep
  · rename_i hblock
    rw [Config.decVecMin] at hblock
    have hroom : u.outOff.toNat + 24 ≤ u.req := by
      rw [req_dec hop, hout]
      unfold decodeLen
      omega
    rw [Config.decBlkIn, firstReadError_quiet h.checks h.quiet (by omega), meetError_none] at hstep
    split at hstep
    · rename_i hvalid
      rw [vdecBlock_quiet (u := vdecValid u) (by exact h.checks) (by exact h.quiet) (by exact hroom)] at hstep
      rw [hstep]
      refine h.advances (g := u.stage) hstep (emitted_emit 32 _ u _ _ u.pad) (by omega)
        (by rwa [decBlockBytes_length]) (emit_stage _ _ _) (by omega) ?_
      rw [pendingResult, hop]
      exact resultFrom_dec_block (by omega) hvalid
    · exact hfallback _ _ hstep
  · exact hfallback u.vec u.blkOk hstep

end Sys2Proof.Safety
end

section
/-! The whole run of an undisturbed command, from its checks to its record (43 R204, R205, R213). -/

namespace Sys2Proof.Safety

open Sys2Proof.Machine

/-! ### The first step and the last -/

theorem complete_mem {u : State} (ht : u.tainted = false) (v : Word) : (complete v u).mem = u.mem := by
  rw [complete, endCommand, if_neg (ht ▸ Bool.false_ne_true)]
  rfl

theorem raise_mem {u : State} (ht : u.tainted = false) {e : CmdError} (he : e.opensDest = false) :
    (raise e u).mem = u.mem := by
  rw [raise, if_neg (he ▸ Bool.false_ne_true), endCommand, if_neg (ht ▸ Bool.false_ne_true)]
  rfl

theorem sourceVolatile_quiet {u : State} (hp : PastChecks u) (hq : quietBus u.req u) : sourceVolatile u = false := by
  obtain ⟨-, -, -, hvolatile⟩ := hq
  have hregion : u.srcRegionLen = u.len := by
    rcases op_of_pastChecks hp with hop | hop <;> simp [State.srcRegionLen, hop]
  rw [← hregion] at hvolatile
  exact hvolatile

/-- Where the checks pass, the command's first step starts a tiler with nothing stored. -/
theorem Running.check {u : State} (h : Running u) (hst : u.stage = .check) : Advances u (engineStep u) := by
  obtain ⟨hin, hout⟩ : u.inOff = 0 ∧ u.outOff = 0 := by simpa only [CursorsOk, hst] using h.cursors
  have hstep : engineStep u = enterTiler u := by rw [engineStep_check h.phase hst, checkStep_of_pastChecks h.checks]
  have hsame : { u with tainted := u.tainted || sourceVolatile u } = u := by
    rw [sourceVolatile_quiet h.checks h.quiet, Bool.or_false]
  have hemitted : Emitted 0 [] u (enterTiler u) := by
    rw [enterTiler, hsame]
    split
    · have hgo : goTo .vector u = { u with stage := .vector } := if_pos (busy_of_run h.phase)
      exact hgo ▸ (emitted_nothing u u.vec u.blkOk).goTo .vector
    · exact (emitted_nothing u u.vec u.blkOk).enterScalar
  rw [hstep]
  refine h.advances_stage hstep hemitted (by rw [hin]; exact Nat.zero_le _) (by rw [hout]; exact Nat.zero_le _)
    (enterTiler_stage u) ?_
  rw [hst]
  split <;> decide

/-- With the whole input processed and no transfer failing, the last step is a success. -/
theorem Running.finish {u : State} (h : Running u) (hst : u.stage = .finish) :
    Finishes (pendingResult u) u (engineStep u) := by
  have hend : u.inOff.toNat = u.len := by
    rcases op_of_pastChecks h.checks with hop | hop
    · exact ((cursorsOk_finish_enc hst hop).1 h.cursors).1
    · exact ((cursorsOk_finish_dec hst hop).1 h.cursors).1
  have hresult : pendingResult u = .ok [] := by
    rw [pendingResult, hend]
    rcases op_of_pastChecks h.checks with hop | hop <;> rw [hop, resultFrom, sourceBytes_drop_len] <;> rfl
  have hstep : engineStep u = complete u.outOff u := by
    rw [engineStep_finish h.phase hst, settle, failingAddrs_quiet h.quiet h.earlier]
  rw [hresult, hstep]
  refine ⟨?_, complete_mem h.tainted _⟩
  rw [List.length_nil, show BitVec.ofNat 32 0 = 0#32 from rfl, BitVec.add_zero]
  exact completed_complete h.tainted _

/-! ### All the steps -/

/-- Each engine step ends the command with its pending result, or brings it nearer to that. -/
theorem Running.progress {u : State} (h : Running u) : Progress u (engineStep u) := by
  cases hst : u.stage with
  | check => exact .inr (h.check hst)
  | vector =>
    rcases op_of_pastChecks h.checks with hop | hop
    · exact .inr (h.vectorEnc hst hop)
    · exact .inr (h.vectorDec hst hop)
  | scalar =>
    rcases op_of_pastChecks h.checks with hop | hop
    · exact .inr (h.scalarEnc hst hop)
    · by_cases hmore : 4 < u.remaining
      · exact h.scalarDec_quartet hst hop hmore
      · exact h.scalarDec_final hst hop hmore
  | finish => exact .inl (h.finish hst)

theorem runFor_idle {u : State} (h : u.phase = .idle) (k : Nat) : runFor k u = u := by
  cases k with
  | zero => rfl
  | succ k => simp only [runFor, h]

theorem runFor_succ {u : State} (h : u.phase = .run) (k : Nat) : runFor (k + 1) u = runFor k (engineStep u) := by
  simp only [runFor, h]

/-- Enough engine steps end the command with its pending result, by induction on the steps. -/
theorem Running.runFor {u : State} (h : Running u) {k : Nat} (hk : stepsLeft u < k) :
    Finishes (pendingResult u) u (runFor k u) := by
  induction k generalizing u with
  | zero => exact absurd hk (Nat.not_lt_zero _)
  | succ k ih =>
    rw [runFor_succ h.phase]
    rcases h.progress with hend | hadv
    · rwa [runFor_idle hend.phase]
    · exact hadv.finishes _ (ih hadv.running (by have := hadv.nearer; omega))

/-! ### The command -/

/-- What a command gives (43 R204, R205): the bytes it stores, or its error. -/
def Answers (r : Except CmdError (List Byte)) (s t : State) : Prop :=
  match r with
  | .ok bs => Completed t 0 (BitVec.ofNat 32 bs.length) 0 ∧ t.mem = storeBytes s 0 bs s.mem
  | .error e => Completed t e.code e.resultWord e.infoWord ∧ (e.opensDest = false → t.mem = s.mem)

/-- The outcome of `ENC` (43 R204), its checks in the order of 60 R239. -/
def encResult (s : State) : Except CmdError (List Byte) :=
  if Config.maxLen < encodeLen s.len then .error .lengthOverflow
  else if s.cap < encodeLen s.len then .error (.bufferTooSmall (lenWord (encodeLen s.len)))
  else if rangesOk s.src s.len s.dst (encodeLen s.len) then .ok (encodeRef s.sourceBytes)
  else .error .addressError

/-- The outcome of `DEC` (43 R205), its checks in the order of 60 R239. -/
def decResult (s : State) : Except CmdError (List Byte) :=
  if s.len = 0 then .ok []
  else if s.len % 4 ≠ 0 then .error .inputLength
  else if s.cap < decodeLen s.len then .error (.bufferTooSmall (lenWord (decodeLen s.len)))
  else if rangesOk s.src s.len s.dst (decodeLen s.len) then
    (decodeRef s.sourceBytes).mapError fun q => .invalidCharacter (BitVec.ofNat 32 q)
  else .error .addressError

/-- The checks of `ENC` pass, or one fails and the command ends with its error, found before any byte is stored. -/
theorem encResult_cases (s : State) : (encReady s ∧ encResult s = .ok (encodeRef s.sourceBytes)) ∨
    ∃ e, encResult s = .error e ∧ e.opensDest = false ∧ checkEnc s = raise e s := by
  unfold encResult checkEnc
  split_ifs with hover hcap hranges
  · exact .inr ⟨_, rfl, rfl, rfl⟩
  · exact .inr ⟨_, rfl, rfl, rfl⟩
  · exact .inl ⟨⟨Nat.not_lt.1 hover, Nat.not_lt.1 hcap, hranges⟩, rfl⟩
  · exact .inr ⟨_, rfl, rfl, rfl⟩

theorem opensDest_of_encResult_error {s : State} {e : CmdError} (h : encResult s = .error e) : e.opensDest = false := by
  rcases encResult_cases s with ⟨-, hresult⟩ | ⟨e', hresult, hclosed, -⟩
  · rw [hresult] at h
    cases h
  · rw [hresult, Except.error.injEq] at h
    exact h ▸ hclosed

/-- The checks of `DEC` pass on a non-empty input, or the input is empty, or one fails and the command ends
with its error. -/
theorem decResult_cases (s : State) :
    (decReady s ∧ decResult s =
      (decodeRef s.sourceBytes).mapError fun q => .invalidCharacter (BitVec.ofNat 32 q)) ∨
    (decResult s = .ok [] ∧ checkDec s = complete 0 s) ∨ ∃ e, decResult s = .error e ∧ checkDec s = raise e s := by
  unfold decResult checkDec
  split_ifs with hempty hmod hcap hranges
  · exact .inr (.inl ⟨rfl, rfl⟩)
  · exact .inr (.inr ⟨_, rfl, rfl⟩)
  · exact .inr (.inr ⟨_, rfl, rfl⟩)
  · exact .inl ⟨⟨Nat.pos_of_ne_zero hempty, not_not.1 hmod, Nat.not_lt.1 hcap, hranges⟩, rfl⟩
  · exact .inr (.inr ⟨_, rfl, rfl⟩)

/-- A command just accepted (43 R201). -/
structure JustAccepted (op : Op) (a : State) : Prop where
  op : a.op = op
  phase : a.phase = .run
  stage : a.stage = .check
  inOff : a.inOff = 0
  outOff : a.outOff = 0
  earlier : a.earlier = []
  tainted : a.tainted = false

theorem justAccepted_accept (w : Word) (op : Op) (S : Bool) (s : State) : JustAccepted op (accept w op S s) :=
  ⟨rfl, rfl, rfl, rfl, rfl, rfl, rfl⟩

theorem JustAccepted.runToEnd {op : Op} {a : State} (h : JustAccepted op a) :
    runToEnd a = runFor (a.len + 7) (checkStep a) := by
  rw [Machine.runToEnd, stepBound, runFor_succ h.phase, engineStep_check h.phase h.stage]

/-- The first failed check ends the command with its error. -/
theorem JustAccepted.answers_error {op : Op} {a : State} (h : JustAccepted op a) {e : CmdError}
    (hcheck : checkStep a = raise e a) : Answers (.error e) a (Machine.runToEnd a) := by
  rw [h.runToEnd, hcheck, runFor_idle (ended_raise e a).phase]
  exact ⟨completed_raise h.tainted e, raise_mem h.tainted⟩

/-- Where the checks pass, the command ends with the codec's result on the whole source. -/
theorem JustAccepted.answers_result {op : Op} {a : State} (h : JustAccepted op a) (hp : PastChecks a)
    (hq : quietBus a.req a) : Answers ((resultFrom op 0 a.sourceBytes).mapError fun q =>
      .invalidCharacter (BitVec.ofNat 32 q)) a (Machine.runToEnd a) := by
  have hcursors : CursorsOk a := by
    simp only [CursorsOk, h.stage]
    exact ⟨h.inOff, h.outOff⟩
  have hsteps : stepsLeft a < stepBound a := by
    have hrem : a.remaining ≤ a.len := Nat.sub_le _ _
    have hrank : stageRank a.stage = 3 := by rw [h.stage]; rfl
    rw [stepsLeft, stepBound, hrank]
    omega
  have hfin := Running.runFor ⟨h.phase, hp, hcursors, hq, h.earlier, h.tainted⟩ hsteps
  rw [pendingResult, h.op, h.inOff] at hfin
  change Finishes (resultFrom op 0 a.sourceBytes) a (Machine.runToEnd a) at hfin
  cases hr : resultFrom op 0 a.sourceBytes with
  | error q =>
    rw [hr] at hfin
    exact ⟨hfin, fun hclosed => absurd hclosed.symm Bool.false_ne_true⟩
  | ok bs =>
    rw [hr] at hfin
    obtain ⟨hrecord, hmem⟩ := hfin
    rw [h.outOff] at hrecord hmem
    exact ⟨by simpa using hrecord, hmem⟩

theorem JustAccepted.answers_enc {a : State} (h : JustAccepted .enc a) (hq : quietBus (encodeLen a.len) a) :
    Answers (encResult a) a (Machine.runToEnd a) := by
  rcases encResult_cases a with ⟨hready, hresult⟩ | ⟨e, hresult, -, hcheck⟩ <;> rw [hresult]
  · exact h.answers_result (by simpa only [PastChecks, h.op] using hready) (by rwa [req_enc h.op])
  · exact h.answers_error (by rw [checkStep, h.op, hcheck])

theorem JustAccepted.answers_dec {a : State} (h : JustAccepted .dec a) (hq : quietBus (decodeLen a.len) a) :
    Answers (decResult a) a (Machine.runToEnd a) := by
  rcases decResult_cases a with ⟨hready, hresult⟩ | ⟨hresult, hcheck⟩ | ⟨e, hresult, hcheck⟩ <;> rw [hresult]
  · exact h.answers_result (by simpa only [PastChecks, h.op] using hready) (by rwa [req_dec h.op])
  · rw [h.runToEnd, checkStep, h.op]
    simp only [hcheck]
    rw [runFor_idle (ended_complete 0 a).phase]
    exact ⟨completed_complete h.tainted 0, complete_mem h.tainted 0⟩
  · exact h.answers_error (by rw [checkStep, h.op, hcheck])

/-- A host that waits sees its command run to the end in one step (43 R213). -/
theorem command_idleWaiting {s : State} (h : idleWaiting s) (i : Instr) (op : Op) :
    command i op s = Machine.runToEnd (accept (encode i) op i.forceScalar s) := by
  obtain ⟨hidle, hwaits⟩ := h
  rw [command, if_neg (busy_of_idle hidle ▸ Bool.false_ne_true)]
  exact if_pos hwaits

/-- An outcome says nothing about the state before the command but its memory and destination. -/
theorem Answers.congr {r : Except CmdError (List Byte)} {s s' t : State} (h : Answers r s' t) (hm : s'.mem = s.mem)
    (hd : s'.dstAddr = s.dstAddr) : Answers r s t := by
  cases r with
  | error e => exact ⟨h.1, fun he => (h.2 he).trans hm⟩
  | ok bs => exact ⟨h.1, h.2.trans (by rw [hm, storeBytes_congr hd])⟩

/-- `ENC` gives its outcome on either path. -/
theorem exec_enc_answers (S : Bool) {s : State} (h : idleWaiting s) (hq : quietBus (encodeLen s.len) s) :
    ∃ t, exec (.enc S) s = .next t ∧ Answers (encResult s) s t := by
  refine ⟨_, exec_eq_command rfl s, ?_⟩
  rw [command_idleWaiting h]
  exact ((justAccepted_accept _ .enc S s).answers_enc hq).congr rfl rfl

/-- `DEC` gives its outcome on either path. -/
theorem exec_dec_answers (S : Bool) {s : State} (h : idleWaiting s) (hq : quietBus (decodeLen s.len) s) :
    ∃ t, exec (.dec S) s = .next t ∧ Answers (decResult s) s t := by
  refine ⟨_, exec_eq_command rfl s, ?_⟩
  rw [command_idleWaiting h]
  exact ((justAccepted_accept _ .dec S s).answers_dec hq).congr rfl rfl

/-! ### Parity (42 R170) -/

theorem code_ne_zero (e : CmdError) : e.code ≠ 0 := by
  cases e <;> exact of_decide_eq_true rfl

theorem Completed.record_eq {t t' : State} {code : BitVec 4} {result info : Word} (h : Completed t code result info)
    (h' : Completed t' code result info) : t'.err = t.err ∧ t'.result = t.result ∧ t'.errInfo = t.errInfo :=
  ⟨h'.err.trans h.err.symm, h'.result.trans h.result.symm, h'.errInfo.trans h.errInfo.symm⟩

/-- An outcome fixes the record. -/
theorem Answers.record_eq {r : Except CmdError (List Byte)} {s t t' : State} (h : Answers r s t) (h' : Answers r s t') :
    t'.err = t.err ∧ t'.result = t.result ∧ t'.errInfo = t.errInfo := by
  cases r with
  | ok bs => exact h.1.record_eq h'.1
  | error e => exact h.1.record_eq h'.1

/-- An outcome fixes memory, unless it is an error found in processing (60 R241). -/
theorem Answers.mem_eq {r : Except CmdError (List Byte)} {s t t' : State} (h : Answers r s t) (h' : Answers r s t')
    (hr : ∀ e, r = .error e → e.opensDest = false) : t'.mem = t.mem := by
  cases r with
  | ok bs => exact h'.2.trans h.2.symm
  | error e => exact (h'.2 (hr e rfl)).trans (h.2 (hr e rfl)).symm

theorem Answers.ok_of_err_eq_zero {r : Except CmdError (List Byte)} {s t : State} (h : Answers r s t)
    (ht : t.err = 0) : ∃ bs, r = .ok bs := by
  cases r with
  | ok bs => exact ⟨bs, rfl⟩
  | error e => exact absurd (h.1.err.symm.trans ht) (code_ne_zero e)

/-- Settles O36: the outcome of either command is a function of the operands and of memory, on every path. -/
theorem vectorScalarParity : Obligations.VectorScalarParity := by
  refine ⟨fun s hv S S' h hq => ?_, fun s hv S S' h hq => ?_⟩
  · obtain ⟨t, ht, hans⟩ := exec_enc_answers S h hq
    obtain ⟨t', ht', hans'⟩ := exec_enc_answers S' (s := { s with hasVector := hv }) h hq
    have hans' : Answers (encResult s) s t' := hans'.congr rfl rfl
    obtain ⟨herr, hresult, hinfo⟩ := hans.record_eq hans'
    have hmem : t'.mem = t.mem := hans.mem_eq hans' fun _ => opensDest_of_encResult_error
    exact ⟨t, t', ht, ht', herr, hresult, hinfo, fun a => by rw [hmem]⟩
  · obtain ⟨t, ht, hans⟩ := exec_dec_answers S h hq
    obtain ⟨t', ht', hans'⟩ := exec_dec_answers S' (s := { s with hasVector := hv }) h hq
    have hans' : Answers (decResult s) s t' := hans'.congr rfl rfl
    obtain ⟨herr, hresult, hinfo⟩ := hans.record_eq hans'
    refine ⟨t, t', ht, ht', herr, hresult, hinfo, fun hsuccess a => ?_⟩
    obtain ⟨bs, hok⟩ := hans.ok_of_err_eq_zero hsuccess
    rw [hans.mem_eq hans' fun e he => by rw [hok] at he; cases he]

end Sys2Proof.Safety
end

section
/-! The length of a decoding (41 R141, R157): three bytes per quartet, less one per pad character. -/

namespace Sys2Proof.Machine

open Sys2Proof.Safety (quartetBytes_length decodeLen_add_four)

theorem length_of_decodeFinal_eq_ok {q : Nat} {c0 c1 c2 c3 : Byte} {bs : List Byte}
    (h : decodeFinal q c0 c1 c2 c3 = .ok bs) : bs.length = 3 - (padOf c2 c3).val := by
  have hunit : ∀ {cs us : List Byte}, (if groupValid cs then Except.ok us else .error q) = .ok bs → us = bs := by
    intro cs us hus
    split at hus
    · exact Except.ok.inj hus
    · cases hus
  rw [decodeFinal] at h
  generalize padOf c2 c3 = p at h ⊢
  match p with
  | 0 => exact hunit h ▸ quartetBytes_length c0 c1 c2 c3
  | 1 => exact hunit (us := tail3Bytes c0 c1 c2) h ▸ rfl
  | 2 => exact hunit (us := tail2Bytes c0 c1) h ▸ rfl

theorem map_eq_ok_iff {α β ε : Type} (f : α → β) (x : Except ε α) (b : β) :
    x.map f = .ok b ↔ ∃ a, x = .ok a ∧ f a = b := by
  cases x <;> simp [Except.map]

/-- By induction on the quartets: each but the final one gives three bytes. -/
theorem length_of_decodeFrom_eq_ok (q : Nat) (cs : List Byte) {bs : List Byte} (hlen : cs.length % 4 = 0)
    (h : decodeFrom q cs = .ok bs) : bs.length = decodeLen cs.length - (inputPad cs).val := by
  match cs, hlen with
  | [], _ => rw [← Except.ok.inj h]; rfl
  | [c0, c1, c2, c3], _ =>
    have hthree : decodeLen [c0, c1, c2, c3].length = 3 := by simp [decodeLen]
    rw [hthree]
    exact length_of_decodeFinal_eq_ok h
  | c0 :: c1 :: c2 :: c3 :: c4 :: rest, hlen =>
    have hrest : (c4 :: rest).length % 4 = 0 := (Nat.add_mod_right (rest.length + 1) 4).symm.trans hlen
    have hfour : 4 ≤ (c4 :: rest).length := by
      rw [List.length_cons] at hrest ⊢
      omega
    cases hvalid : groupValid [c0, c1, c2, c3] with
    | false =>
      rw [decodeFrom_of_not_groupValid q (List.cons_ne_nil _ _) hvalid] at h
      cases h
    | true =>
      rw [decodeFrom_of_groupValid q _ hvalid, map_eq_ok_iff] at h
      obtain ⟨us, hus, rfl⟩ := h
      have hpad : inputPad (c0 :: c1 :: c2 :: c3 :: c4 :: rest) = inputPad (c4 :: rest) :=
        inputPad_append (by omega) [c0, c1, c2, c3]
      have hthree : decodeLen (c0 :: c1 :: c2 :: c3 :: c4 :: rest).length = decodeLen (c4 :: rest).length + 3 :=
        decodeLen_add_four _
      have hle : (inputPad (c4 :: rest)).val ≤ decodeLen (c4 :: rest).length := by
        have := (inputPad (c4 :: rest)).isLt
        unfold decodeLen
        omega
      rw [List.length_append, quartetBytes_length, length_of_decodeFrom_eq_ok (q + 1) _ hrest hus, hpad, hthree]
      omega

theorem sourceBytes_length (s : State) : s.sourceBytes.length = s.len := by simp [State.sourceBytes]

theorem getD_sourceBytes {s : State} {i : Nat} (h : i < s.len) : s.sourceBytes.getD i 0 = s.input i := by
  rw [List.getD_eq_getElem _ _ (by rwa [sourceBytes_length])]
  simp [State.sourceBytes]

/-- The pad count of a non-empty source is that of its bytes (41 R148). -/
theorem inputPad_sourceBytes {s : State} (h : 0 < s.len) : inputPad s.sourceBytes = s.padCount := by
  rw [inputPad, sourceBytes_length, getD_sourceBytes (by omega), getD_sourceBytes (by omega), State.padCount]

end Sys2Proof.Machine
end

section
/-! What `ENC` and `DEC` show when they succeed (43 R204, R205, R213): the record, the setup and the stored bytes. -/

namespace Sys2Proof.Safety

open Sys2Proof.Machine

/-! ### `CMD`, `VSEL` and the setup -/

/-- A command's own word has its reserved bits clear, so `CMD` keeps it whole. -/
theorem encode_and_cmdMask (i : Instr) : encode i &&& 0x0000010F = encode i := by
  rw [← cmdWord_fields, encode, opField_cmdWord, sField_cmdWord]

/-- From acceptance on, whatever the outcome, `CMD` shows the command, `VSEL` the path of R200, and the setup stays. -/
theorem exec_idle_registers {i : Instr} {op : Op} {s t : State} (hp : s.phase = .idle) (hi : opOf i = some op)
    (he : exec i s = .next t) :
    t.cmd = encode i ∧ t.vsel = selectPath op i.forceScalar s.hasVector ∧ SameSetup s t := by
  have hsetup := sameSetup_accept (encode i) op i.forceScalar s
  refine ⟨(exec_idle_cmd hp hi he).trans (encode_and_cmdMask i), ?_⟩
  rcases exec_idle_cases hp hi he with e | g
  · exact ⟨e.vsel, hsetup.trans e.setup⟩
  · exact ⟨g.vsel, hsetup.trans g.setup⟩

/-! ### The stored bytes -/

/-- Bytes stored from `dst` on are what the destination holds (20 R84). -/
theorem destBytes_of_stored {s t : State} {bs : List Byte} (hd : t.dstAddr = s.dstAddr)
    (hm : t.mem = storeBytes s 0 bs s.mem) (hfit : s.dst + bs.length ≤ Config.addrSpace) :
    t.destBytes bs.length = bs := by
  apply List.ext_getElem
  · simp [State.destBytes]
  · intro j hj hj'
    have hat : (t.dstAt j).toNat = s.dst + 0 + j := by
      rw [State.dstAt, hd]
      exact toNat_dstAt s (by omega)
    simp only [State.destBytes, List.getElem_map, List.getElem_range, hat, hm]
    exact get_storeBytes_inside s s.mem (by omega) hj'

theorem sameOutside_of_stored {s t : State} {bs : List Byte} (hm : t.mem = storeBytes s 0 bs s.mem)
    (hfit : s.dst + bs.length ≤ Config.addrSpace) : SameOutside s.dst bs.length s t := fun a ha => by
  rw [hm]
  exact sameOutside_writeOutput (j := 0) (Nat.zero_add _).le hfit a ha

theorem encResult_ready {s : State} (h : encReady s) : encResult s = .ok (encodeRef s.sourceBytes) := by
  obtain ⟨hlen, hcap, hranges⟩ := h
  rw [encResult, if_neg (Nat.not_lt.2 hlen), if_neg (Nat.not_lt.2 hcap), if_pos hranges]

theorem decResult_ready {s : State} (h : decReady s) : decResult s =
    (decodeRef s.sourceBytes).mapError fun q => .invalidCharacter (BitVec.ofNat 32 q) := by
  obtain ⟨hpos, hmod, hcap, hranges⟩ := h
  rw [decResult, if_neg (Nat.ne_of_gt hpos), if_neg (not_not_intro hmod), if_neg (Nat.not_lt.2 hcap), if_pos hranges]

/-- The required length of a command whose checks pass ends within the address space (43 R209). -/
theorem dst_fits_enc {s : State} (h : encReady s) : s.dst + encodeLen s.len ≤ Config.addrSpace :=
  (req_fits (s := { s with op := .enc }) h).2.1

theorem dst_fits_dec {s : State} (h : decReady s) : s.dst + decodeLen s.len ≤ Config.addrSpace :=
  (req_fits (s := { s with op := .dec }) h).2.1

/-- Settles O30: the outcome of an `ENC` whose checks pass is the encoding of its source, stored from `dst` on. -/
theorem encWritesEncoding : Obligations.EncWritesEncoding := by
  intro S s h hready hq
  obtain ⟨t, he, hanswers⟩ := exec_enc_answers S h hq
  obtain ⟨hcmd, hvsel, hsetup⟩ := exec_idle_registers h.1 rfl he
  rw [encResult_ready hready] at hanswers
  obtain ⟨hrecord, hmem⟩ := hanswers
  have hlen : (encodeRef s.sourceBytes).length = encodeLen s.len := by rw [encodeRef_length, sourceBytes_length]
  have hfit := dst_fits_enc hready
  rw [← hlen] at hfit ⊢
  exact ⟨t, he, hrecord, hcmd, hvsel, hsetup, destBytes_of_stored hsetup.dstAddr hmem hfit,
    sameOutside_of_stored hmem hfit⟩

/-- Settles O31: the outcome of a `DEC` whose checks pass is the decoding of its source, stored from `dst` on. -/
theorem decWritesDecoding : Obligations.DecWritesDecoding := by
  intro S s bs h hready hq hok
  have ⟨hpos, hmod, _⟩ := hready
  obtain ⟨t, he, hanswers⟩ := exec_dec_answers S h hq
  obtain ⟨hcmd, hvsel, hsetup⟩ := exec_idle_registers h.1 rfl he
  rw [decResult_ready hready, hok] at hanswers
  obtain ⟨hrecord, hmem⟩ := hanswers
  have hlen : bs.length = decodeLen s.len - s.padCount.val := by
    rw [← inputPad_sourceBytes hpos, ← sourceBytes_length]
    exact length_of_decodeFrom_eq_ok 0 _ (by rwa [sourceBytes_length]) hok
  have hfit : s.dst + bs.length ≤ Config.addrSpace := by
    have := dst_fits_dec hready
    omega
  exact ⟨hlen, t, he, hrecord, hcmd, hvsel, hsetup, destBytes_of_stored hsetup.dstAddr hmem hfit,
    sameOutside_of_stored hmem hfit⟩

end Sys2Proof.Safety
end

section
/-! A running command ends if its port answers (43 R214, 70 R272): each engine step ends it or brings it nearer to its
end, disturbed or not. -/

namespace Sys2Proof.Safety

open Sys2Proof.Machine

/-! ### What the checks and an error response lead to -/

/-- Everything the step of the checks can do: an error, a success, or the start of a tiler. -/
theorem checkStep_cases (s : State) : (∃ e, checkStep s = raise e s) ∨ (∃ v, checkStep s = complete v s) ∨
    checkStep s = enterTiler s := by
  cases hop : s.op with
  | enc =>
    simp only [checkStep, hop]
    rcases encResult_cases s with ⟨hready, -⟩ | ⟨e, -, -, hcheck⟩
    · exact .inr (.inr (checkEnc_ready hready))
    · exact .inl ⟨e, hcheck⟩
  | dec =>
    simp only [checkStep, hop]
    rcases decResult_cases s with ⟨hready, -⟩ | ⟨-, hcheck⟩ | ⟨e, -, hcheck⟩
    · exact .inr (.inr (checkDec_ready hready))
    · exact .inr (.inl ⟨0, hcheck⟩)
    · exact .inl ⟨e, hcheck⟩
  | enclen =>
    simp only [checkStep, hop, checkEnclen]
    split
    · exact .inl ⟨_, rfl⟩
    · exact .inr (.inl ⟨_, rfl⟩)
  | declen =>
    simp only [checkStep, hop, checkDeclen]
    exact .inr (.inl ⟨_, rfl⟩)
  | illegal =>
    simp only [checkStep, hop, checkIllegal]
    exact .inl ⟨_, rfl⟩

/-- What holds of `Unknown`'s record and of the step itself holds after any error response. -/
theorem meetError_induction {P : State → Prop} {go : State → State} {u : State}
    (hraise : ∀ a d, P (raiseUnknown a { u with draws := d })) (hgo : ∀ d, P (go { u with draws := d }))
    (e : Option Word) : P (meetError e go u) := by
  rcases meetError_cases e go u with ⟨a, -, h⟩ | ⟨d, h⟩ <;> rw [h]
  · exact hraise a _
  · exact hgo d

/-! ### Nearer to the end -/

/-- The step has ended the command, or led to its last step, or has left less to do. -/
def Nearer (s t : State) : Prop := t.phase = .idle ∨ t.stage = .finish ∨ stepsLeft t < stepsLeft s

theorem nearer_of_ended {s t u : State} (h : Ended t u) : Nearer s u := .inl h.phase

theorem nearer_meetError {s u : State} {go : State → State} (hgo : ∀ d, Nearer s (go { u with draws := d }))
    (e : Option Word) : Nearer s (meetError e go u) :=
  meetError_induction (fun a _ => nearer_of_ended (ended_raiseUnknown a _)) hgo e

/-- Stored output is for input consumed. -/
theorem nearer_emit {s : State} {k : Nat} (hpos : 0 < k) (hk : k ≤ s.remaining) (bs : List Byte) (vec : VecRegs)
    (blkOk : Bool) (draws : Nat) : Nearer s (emit k bs { s with vec := vec, blkOk := blkOk, draws := draws }) := by
  have hlt := len_lt s
  have hrem : s.remaining = s.len - s.inOff.toNat := rfl
  have hmoved : (emit k bs { s with vec := vec, blkOk := blkOk, draws := draws }).inOff.toNat = s.inOff.toNat + k :=
    emit_inOff (s := { s with vec := vec, blkOk := blkOk, draws := draws }) bs (by change s.inOff.toNat + k < _; omega)
  right; right
  rw [stepsLeft, State.remaining, hmoved]
  change s.len - (s.inOff.toNat + k) + stageRank s.stage < s.remaining + stageRank s.stage
  omega

theorem nearer_goTo_finish (s u : State) : Nearer s (goTo .finish u) := by
  cases hp : u.phase with
  | run => exact .inr (.inl (goTo_stage hp))
  | idle =>
    left
    rw [goTo, if_neg (busy_of_idle hp ▸ Bool.false_ne_true)]
    exact hp

@[simp] theorem enterScalar_remaining (u : State) : (enterScalar u).remaining = u.remaining := by
  unfold enterScalar
  split <;> rfl

theorem nearer_enterScalar {s u : State} (hu : u.remaining = s.remaining)
    (hst : stageRank .scalar < stageRank s.stage) : Nearer s (enterScalar u) := by
  right; right
  rw [stepsLeft, stepsLeft, enterScalar_remaining, hu, enterScalar_stage]
  omega

/-! ### The step of each stage -/

theorem nearer_enterTiler {s : State} (hst : s.stage = .check) : Nearer s (enterTiler s) := by
  simp only [enterTiler]
  split
  · right; right
    change s.remaining + stageRank .vector < s.remaining + stageRank s.stage
    rw [hst]
    exact Nat.add_lt_add_left (by decide) _
  · exact nearer_enterScalar rfl (by rw [hst]; decide)

theorem nearer_checkStep {s : State} (hst : s.stage = .check) : Nearer s (checkStep s) := by
  rcases checkStep_cases s with ⟨e, h⟩ | ⟨v, h⟩ | h <;> rw [h]
  · exact nearer_of_ended (ended_raise e s)
  · exact nearer_of_ended (ended_complete v s)
  · exact nearer_enterTiler hst

theorem nearer_vectorEncStep {s : State} (hst : s.stage = .vector) : Nearer s (vectorEncStep s) := by
  unfold vectorEncStep
  split
  · rename_i hblock
    simp only [vencBlock]
    refine nearer_meetError (fun d => ?_) _
    exact nearer_emit (k := Config.encBlkIn) (by decide) hblock _ _ _ _
  · exact nearer_enterScalar rfl (by rw [hst]; decide)

theorem nearer_vectorDecStep {s : State} (hst : s.stage = .vector) : Nearer s (vectorDecStep s) := by
  unfold vectorDecStep
  split
  · rename_i hblock
    have hroom : Config.decBlkIn ≤ s.remaining := le_trans (by decide) hblock
    refine nearer_meetError (fun d => ?_) _
    split
    · refine nearer_meetError (fun d' => ?_) _
      exact nearer_emit (by decide) hroom _ _ _ _
    · exact nearer_enterScalar rfl (by rw [hst]; decide)
  · exact nearer_enterScalar rfl (by rw [hst]; decide)

theorem nearer_scalarEncStep (s : State) : Nearer s (scalarEncStep s) := by
  unfold scalarEncStep
  split
  · rename_i hmore
    refine nearer_meetError (fun d => ?_) _
    exact nearer_emit (by decide) hmore _ _ _ _
  · split
    · exact nearer_goTo_finish s _
    · split <;> exact nearer_goTo_finish s _

theorem nearer_scalarDecStep (s : State) : Nearer s (scalarDecStep s) := by
  unfold scalarDecStep
  split
  · rename_i hmore
    refine nearer_meetError (fun d => ?_) _
    split
    · refine nearer_meetError (fun d' => ?_) _
      exact nearer_emit (by decide) hmore.le _ _ _ _
    · exact nearer_of_ended (ended_raiseInvalid _ _)
  · exact nearer_goTo_finish s _

theorem nearer_engineStep {s : State} (hr : s.phase = .run) (ha : s.bus.answers = true)
    (hchk : s.stage ≠ .check → PastChecks s) : Nearer s (engineStep s) := by
  have hbus : (s.needsBus && !s.bus.answers) = false := by rw [ha, Bool.not_true, Bool.and_false]
  simp only [engineStep, hr, hbus, Bool.false_eq_true, if_false]
  cases hst : s.stage with
  | check => exact nearer_checkStep hst
  | vector =>
    rcases op_of_pastChecks (hchk (by rw [hst]; decide)) with hop | hop
    · simpa only [vectorStep, hop] using nearer_vectorEncStep hst
    · simpa only [vectorStep, hop] using nearer_vectorDecStep hst
  | scalar =>
    rcases op_of_pastChecks (hchk (by rw [hst]; decide)) with hop | hop
    · simpa only [scalarStep, hop] using nearer_scalarEncStep s
    · simpa only [scalarStep, hop] using nearer_scalarDecStep s
  | finish => exact nearer_of_ended (ended_settle s)

/-! ### All the steps -/

/-- At the last step no input is left. -/
theorem stepsLeft_finish {t : State} (hp : PastChecks t) (hc : CursorsOk t) (hst : t.stage = .finish) :
    stepsLeft t = 0 := by
  have hin : t.inOff.toNat = t.len := by
    rcases op_of_pastChecks hp with hop | hop
    · exact ((cursorsOk_finish_enc hst hop).1 hc).1
    · exact ((cursorsOk_finish_dec hst hop).1 hc).1
  rw [stepsLeft, State.remaining, hin, Nat.sub_self, hst]
  rfl

theorem stepsLeft_le (s : State) : stepsLeft s ≤ s.len + 3 := by
  have hrank : ∀ g, stageRank g ≤ 3 := fun g => by cases g <;> decide
  exact Nat.add_le_add (Nat.sub_le _ _) (hrank _)

theorem stepsLeft_pos {s : State} (h : s.stage ≠ .finish) : 0 < stepsLeft s := by
  have hrank : 0 < stageRank s.stage := by
    cases hst : s.stage with
    | finish => exact absurd hst h
    | check => decide
    | vector => decide
    | scalar => decide
  exact Nat.add_pos_right _ hrank

/-- An engine step of a running command whose port answers ends the command, or the command goes on with less to do. -/
theorem ended_or_stepsLeft_lt {s : State} (h : Inv s) (hr : s.phase = .run) (ha : s.bus.answers = true) :
    Ended s (engineStep s) ∨ (Going s (engineStep s) ∧ stepsLeft (engineStep s) < stepsLeft s) := by
  by_cases hst : s.stage = .finish
  · rw [engineStep_finish hr hst]
    exact .inl (ended_settle s)
  have hnearer := nearer_engineStep hr ha (h.checked hr)
  rcases engineStep_cases hr (h.checked hr) (h.cursors hr) with hsame | hended | ⟨hgoing, hp, hc⟩
  · rw [hsame, Nearer, hr] at hnearer
    simp [hst] at hnearer
  · exact .inl hended
  · refine .inr ⟨hgoing, ?_⟩
    rcases hnearer with hidle | hfinish | hless
    · exact absurd (hgoing.phase.symm.trans hidle) (by decide)
    · exact stepsLeft_finish hp hc hfinish ▸ stepsLeft_pos hst
    · exact hless

theorem step_waits {s : State} (hr : s.phase = .run) (hw : s.hostWaits = true) : step s = .next (engineStep s) :=
  step_of_nextTurn_other (nextTurn_waits hr hw)

/-- Any command whose port answers ends within one step more than what is left to do, by induction on that: each step
makes it less until one ends the command. -/
theorem completes_within {s : State} (n : Nat) (hn : stepsLeft s < n) (h : Inv s) (hr : s.phase = .run)
    (hw : s.hostWaits = true) (ha : s.bus.answers = true) :
    ∃ (k : Nat) (t : State), k ≤ n ∧ Sys2Proof.core.run k s = .next t ∧ t.phase = .idle ∧ t.done = true := by
  induction n generalizing s with
  | zero => exact absurd hn (Nat.not_lt_zero _)
  | succ n ih =>
    have hrun : ∀ k, Sys2Proof.core.run (k + 1) s = Sys2Proof.core.run k (engineStep s) := fun k => by
      have hstep : Sys2Proof.core.step s = .next (engineStep s) := step_waits hr hw
      simp only [Host.Core.run, hstep]
    rcases ended_or_stepsLeft_lt h hr ha with hended | ⟨hgoing, hless⟩
    · exact ⟨1, _, Nat.le_add_left 1 n, hrun 0, hended.phase, hended.done⟩
    · have hw' : (engineStep s).hostWaits = true := by
        rw [State.hostWaits, hgoing.setup.inbox]
        exact hw
      obtain ⟨k, t, hk, hkt, hdone⟩ :=
        ih (by omega) h.engineStep hgoing.phase hw' (by rw [hgoing.setup.bus, ha])
      exact ⟨k + 1, t, by omega, (hrun k).trans hkt, hdone⟩

/-- Settles O53: at most `SRC_LEN` + 3 steps are left before the last one. -/
theorem commandCompletes : Obligations.CommandCompletes := by
  intro s h hr hw ha
  exact completes_within (s.len + 8) (by have := stepsLeft_le s; omega) h hr hw ha

end Sys2Proof.Safety
end

section
/-! The commands that end in their checks (43 R204 to R208, R239, R240): the exact state each ends in. -/

namespace Sys2Proof.Safety

open Sys2Proof.Machine

theorem endCommand_of_not_tainted {u : State} (ht : u.tainted = false) (code : BitVec 4) (result info : Word) :
    endCommand code result info u = record code result info u :=
  if_neg (ht ▸ Bool.false_ne_true)

theorem raise_of_not_tainted {u : State} (ht : u.tainted = false) {e : CmdError} (he : e.opensDest = false) :
    raise e u = record e.code e.resultWord e.infoWord u := by
  rw [raise, if_neg (he ▸ Bool.false_ne_true), endCommand_of_not_tainted ht]

/-- The record of a command just accepted is the exact state of `endedInCheck`. -/
theorem record_accept {i : Instr} (op : Op) (code : BitVec 4) (result info : Word) (s : State) :
    record code result info (accept (encode i) op i.forceScalar s) = endedInCheck i op code result info s := by
  rw [accept, encode_and_cmdMask]
  rfl

/-- A command that its checks end is in the record's state after its first step, and stays there. -/
theorem exec_of_checkStep_record {i : Instr} {op : Op} {code : BitVec 4} {result info : Word} {s : State}
    (h : idleWaiting s) (hi : opOf i = some op)
    (hcheck : checkStep (accept (encode i) op i.forceScalar s) =
      record code result info (accept (encode i) op i.forceScalar s)) :
    exec i s = .next (endedInCheck i op code result info s) := by
  rw [exec_eq_command hi, command_idleWaiting h, (justAccepted_accept _ _ _ _).runToEnd, hcheck, runFor_idle rfl,
    record_accept]

theorem exec_checkError {i : Instr} {op : Op} {e : CmdError} {s : State} (h : idleWaiting s) (hi : opOf i = some op)
    (he : e.opensDest = false) (hcheck : checkStep (accept (encode i) op i.forceScalar s) =
      raise e (accept (encode i) op i.forceScalar s)) :
    exec i s = .next (endedInCheck i op e.code e.resultWord e.infoWord s) :=
  exec_of_checkStep_record h hi (hcheck.trans (raise_of_not_tainted rfl he))

theorem exec_checkSuccess {i : Instr} {op : Op} {v : Word} {s : State} (h : idleWaiting s) (hi : opOf i = some op)
    (hcheck : checkStep (accept (encode i) op i.forceScalar s) =
      complete v (accept (encode i) op i.forceScalar s)) :
    exec i s = .next (endedInCheck i op 0 v 0 s) :=
  exec_of_checkStep_record h hi (hcheck.trans (endCommand_of_not_tainted rfl _ _ _))

/-! ### Commands that make no memory access -/

/-- The encoded length overflows 32 bits from 0xBFFFFFFE on (43 R210). -/
theorem maxLen_lt_encodeLen_iff (n : Nat) : Config.maxLen < encodeLen n ↔ 0xBFFFFFFE ≤ n := by
  unfold Config.maxLen encodeLen
  split <;> omega

/-- Settles O25: the one check of `ENCLEN` decides between its error and its success. -/
theorem enclenResult : Obligations.EnclenResult := by
  intro S s h
  refine ⟨fun hlen => ?_, fun hlen => ⟨?_, ?_⟩, rfl⟩
  · have hover : Config.maxLen < encodeLen s.len := (maxLen_lt_encodeLen_iff _).2 hlen
    exact exec_checkError (e := .lengthOverflow) h rfl rfl (if_pos hover)
  · have hfits : ¬ Config.maxLen < encodeLen s.len := fun hover =>
      Nat.not_le.2 hlen ((maxLen_lt_encodeLen_iff _).1 hover)
    exact exec_checkSuccess h rfl (if_neg hfits)
  · have hfits : encodeLen s.len ≤ Config.maxLen := Nat.not_lt.1 fun hover =>
      Nat.not_le.2 hlen ((maxLen_lt_encodeLen_iff _).1 hover)
    unfold Config.maxLen at hfits
    omega

/-- Settles O26: `DECLEN` has no check that fails, and its result is at most three quarters of the length. -/
theorem declenResult : Obligations.DeclenResult := by
  intro S s h
  refine ⟨exec_checkSuccess h rfl rfl, ?_, rfl⟩
  have hlen := len_lt s
  unfold decodeLen
  omega

/-- Settles O27: each reserved `OP` starts the illegal command, whose only step is its error. -/
theorem illegalCompletes : Obligations.IllegalCompletes := by
  intro i s hi h
  have hop : opOf i = some .illegal := by
    revert i
    decide
  exact ⟨exec_checkError (e := .illegalCommand) h hop rfl rfl, rfl⟩

/-! ### `ENC` and `DEC` -/

/-- Settles O28: the checks of `ENC` in their order; where the first two pass, it is the ranges that fail. -/
theorem encCheckErrors : Obligations.EncCheckErrors := by
  intro S s h hfail
  split_ifs with hover hcap
  · exact exec_checkError (e := .lengthOverflow) h rfl rfl (if_pos hover)
  · exact exec_checkError (e := .bufferTooSmall _) h rfl rfl ((if_neg hover).trans (if_pos hcap))
  · have hranges : ¬ rangesOk s.src s.len s.dst (encodeLen s.len) = true := fun hranges =>
      hfail ⟨Nat.not_lt.1 hover, Nat.not_lt.1 hcap, hranges⟩
    exact exec_checkError (e := .addressError) h rfl rfl
      ((if_neg hover).trans ((if_neg hcap).trans (if_neg hranges)))

/-- Settles O29: the checks of `DEC` in their order; where the input is a non-empty sequence of quartets with enough
capacity, it is the ranges that fail. -/
theorem decCheckErrors : Obligations.DecCheckErrors := by
  intro S s h hfail
  split_ifs with hempty hmod hcap
  · exact exec_checkSuccess h rfl (if_pos hempty)
  · exact exec_checkError (e := .inputLength) h rfl rfl ((if_neg hempty).trans (if_pos hmod))
  · exact exec_checkError (e := .bufferTooSmall _) h rfl rfl
      ((if_neg hempty).trans ((if_neg hmod).trans (if_pos hcap)))
  · have hranges : ¬ rangesOk s.src s.len s.dst (decodeLen s.len) = true := fun hranges =>
      hfail ⟨Nat.pos_of_ne_zero hempty, not_not.1 hmod, Nat.not_lt.1 hcap, hranges⟩
    exact exec_checkError (e := .addressError) h rfl rfl
      ((if_neg hempty).trans ((if_neg hmod).trans ((if_neg hcap).trans (if_neg hranges))))

end Sys2Proof.Safety
end

section
/-! Acceptance, the path taken, and `NOP` (43 R200, R201, R203; 10 R34). -/

namespace Sys2Proof.Safety

open Sys2Proof.Machine

/-- Every command other than `NOP` starts an operation. -/
theorem exists_opOf {i : Instr} (h : i ≠ .nop) : ∃ op, opOf i = some op :=
  Option.ne_none_iff_exists'.1 fun hnone => h (eq_nop_of_opOf hnone)

theorem opField_ne_zero_of_opOf {w : Word} {op : Op} (h : opOf (decode w) = some op) : opField w ≠ 0 := by
  intro hw
  rw [(decode_eq_nop_iff w).2 hw] at h
  cases h

/-- While the host's next move comes in between, a command written while idle is accepted and no more. -/
theorem exec_accepted {i : Instr} {op : Op} {s : State} (hp : s.phase = .idle) (hw : s.hostWaits = false)
    (hi : opOf i = some op) : exec i s = .next (accept (encode i) op i.forceScalar s) := by
  have hwaits : ¬ (accept (encode i) op i.forceScalar s).hostWaits = true := Bool.eq_false_iff.1 hw
  rw [exec_eq_command hi, command, if_neg (busy_of_idle hp ▸ Bool.false_ne_true)]
  exact congrArg Host.Outcome.next (if_neg hwaits)

/-- Settles O20: the accepted state is R201's, its `DONE` is 0, and the other two cases are those of `NOP` and of a lost
write. -/
theorem acceptanceRecord : Obligations.AcceptanceRecord := by
  refine ⟨fun w op s hp hw hi => ⟨?_, rfl⟩, fun w s hp hi => ?_, fun w s hr => exec_busy hr _⟩
  · rw [exec_accepted hp hw hi, ← encode_decode (opField_ne_zero_of_opOf hi), accept, encode_and_cmdMask]
    rfl
  · rw [eq_nop_of_opOf hi, exec_nop_idle hp]

/-- Settles O21: opcode 0 is `NOP`'s alone, and `NOP` is never accepted. -/
theorem nopDoesNothing : Obligations.NopDoesNothing :=
  ⟨fun w => (decode_eq_nop_iff w).2, fun _ => exec_nop_idle, fun _ hr => exec_busy hr .nop⟩

/-- Settles O8: at either address the write lands at `CMD`, and carries the command's word. -/
theorem stepRunsDecodedCommand : Obligations.StepRunsDecodedCommand := by
  intro s after rest w hr hd
  refine ⟨fun hin => ?_, fun hin => ?_⟩
  · exact step_commandWord hd hin (commandWord_cmd (s := { s with inbox := rest }) rfl hr w)
  · exact step_commandWord hd hin (commandWord_cmd (windowOffset_bus { s with inbox := rest } 0x08) (by exact hr) w)

end Sys2Proof.Safety
end

section
/-! Without `sel` no vector operation runs (42 R189, 10 R39): every engine step leaves the vector unit as it was. -/

namespace Sys2Proof.Safety

open Sys2Proof.Machine

/-- What only a vector operation writes: the vector working registers and `blk_ok` (10 R53, R54). -/
def vectorUnit (s : State) : VecRegs × Bool := (s.vec, s.blkOk)

/-! ### The shared operations -/

theorem vectorUnit_endCommand (code : BitVec 4) (result info : Word) (s : State) :
    vectorUnit (endCommand code result info s) = vectorUnit s := by
  unfold endCommand
  split <;> rfl

theorem vectorUnit_complete (v : Word) (s : State) : vectorUnit (complete v s) = vectorUnit s :=
  vectorUnit_endCommand 0 v 0 s

theorem vectorUnit_raise (e : CmdError) (s : State) : vectorUnit (raise e s) = vectorUnit s := by
  rw [raise, vectorUnit_endCommand]
  split <;> rfl

theorem vectorUnit_raiseUnknown (a : Word) (s : State) : vectorUnit (raiseUnknown a s) = vectorUnit s :=
  vectorUnit_raise _ _

theorem vectorUnit_raiseInvalid (q : Nat) (s : State) : vectorUnit (raiseInvalid q s) = vectorUnit s := by
  unfold raiseInvalid
  split <;> exact vectorUnit_raise _ _

theorem vectorUnit_meetError {go : State → State} (hgo : ∀ u, vectorUnit (go u) = vectorUnit u) (e : Option Word)
    (s : State) : vectorUnit (meetError e go s) = vectorUnit s :=
  meetError_induction (P := fun t => vectorUnit t = vectorUnit s) (fun _ _ => vectorUnit_raiseUnknown _ _)
    (fun _ => hgo _) e

theorem vectorUnit_emit (k : Nat) (bs : List Byte) (s : State) : vectorUnit (emit k bs s) = vectorUnit s := rfl

theorem vectorUnit_unit (k : Nat) (bs : List Byte) (s : State) : vectorUnit (unit k bs s) = vectorUnit s :=
  vectorUnit_meetError (vectorUnit_emit k bs) _ s

theorem vectorUnit_decUnit (k : Nat) (cs bs : List Byte) (s : State) :
    vectorUnit (decUnit k cs bs s) = vectorUnit s := by
  refine vectorUnit_meetError (fun u => ?_) _ s
  split
  · exact vectorUnit_meetError (vectorUnit_emit k bs) _ u
  · exact vectorUnit_raiseInvalid _ u

theorem vectorUnit_goTo (g : Stage) (s : State) : vectorUnit (goTo g s) = vectorUnit s := by
  unfold goTo
  split <;> rfl

theorem vectorUnit_settle (s : State) : vectorUnit (settle s) = vectorUnit s := by
  rcases settle_cases s with ⟨d, -, h⟩ | ⟨a, -, h⟩ <;> rw [h]
  · exact vectorUnit_complete _ _
  · exact vectorUnit_raiseUnknown _ _

theorem vectorUnit_enterScalar (s : State) : vectorUnit (enterScalar s) = vectorUnit s := by
  unfold enterScalar
  split <;> rfl

theorem vectorUnit_enterTiler (s : State) : vectorUnit (enterTiler s) = vectorUnit s := by
  simp only [enterTiler]
  split
  · rfl
  · exact vectorUnit_enterScalar _

/-! ### The steps -/

theorem vectorUnit_checkStep (s : State) : vectorUnit (checkStep s) = vectorUnit s := by
  rcases checkStep_cases s with ⟨e, h⟩ | ⟨v, h⟩ | h <;> rw [h]
  · exact vectorUnit_raise e s
  · exact vectorUnit_complete v s
  · exact vectorUnit_enterTiler s

theorem vectorUnit_scalarEncStep (s : State) : vectorUnit (scalarEncStep s) = vectorUnit s := by
  unfold scalarEncStep
  split_ifs
  · exact vectorUnit_unit _ _ s
  · exact (vectorUnit_goTo _ _).trans (vectorUnit_unit _ _ s)
  · exact (vectorUnit_goTo _ _).trans (vectorUnit_unit _ _ s)
  · exact vectorUnit_goTo _ s

theorem vectorUnit_decFinal (s : State) : vectorUnit (decFinal s) = vectorUnit s := by
  simp only [decFinal]
  split <;> exact vectorUnit_decUnit _ _ _ _

theorem vectorUnit_scalarDecStep (s : State) : vectorUnit (scalarDecStep s) = vectorUnit s := by
  unfold scalarDecStep
  split
  · exact vectorUnit_decUnit _ _ _ s
  · exact (vectorUnit_goTo _ _).trans (vectorUnit_decFinal s)

theorem vectorUnit_scalarStep (s : State) : vectorUnit (scalarStep s) = vectorUnit s := by
  unfold scalarStep
  split
  · exact vectorUnit_scalarEncStep s
  · exact vectorUnit_scalarDecStep s
  all_goals exact vectorUnit_goTo _ s

/-- Only stage `VECTOR` works the vector unit. -/
theorem vectorUnit_engineStep {s : State} (hst : s.stage ≠ .vector) : vectorUnit (engineStep s) = vectorUnit s := by
  unfold engineStep
  split
  · rfl
  · split
    · rfl
    · split
      · exact vectorUnit_checkStep s
      · exact absurd ‹_› hst
      · exact vectorUnit_scalarStep s
      · exact vectorUnit_settle s

theorem stage_ne_vector {s : State} (hsel : s.sel = false) (hc : CursorsOk s) : s.stage ≠ .vector := by
  intro hst
  simp only [CursorsOk, hst, hsel, Bool.false_eq_true, false_and] at hc

/-- A command without `sel` never gets to that stage, by induction on its steps. -/
theorem vectorUnit_runFor (k : Nat) {s : State} (hsel : s.sel = false) (hchk : s.stage ≠ .check → PastChecks s)
    (hc : CursorsOk s) : vectorUnit (runFor k s) = vectorUnit s := by
  induction k generalizing s with
  | zero => rfl
  | succ k ih =>
    cases hr : s.phase with
    | idle => rw [runFor_idle hr]
    | run =>
      have hstep := vectorUnit_engineStep (stage_ne_vector hsel hc)
      rw [runFor_succ hr]
      rcases engineStep_cases hr hchk hc with hsame | hended | ⟨hgoing, hp, hc'⟩
      · rw [hsame]
        exact ih hsel hchk hc
      · rw [runFor_idle hended.phase, hstep]
      · exact (ih (hgoing.sel.trans hsel) (fun _ => hp) hc').trans hstep

theorem selectPath_eq_true_iff (op : Op) (S hv : Bool) :
    selectPath op S hv = true ↔ (op = .enc ∨ op = .dec) ∧ hv = true ∧ S = false := by
  simp [selectPath, and_assoc]

/-- Settles O23: `VSEL` is the choice made at acceptance, and with it 0 no step of the command works the vector unit. -/
theorem pathChosenByCapability : Obligations.PathChosenByCapability := by
  intro i s t hp hne he
  obtain ⟨op, hi⟩ := exists_opOf hne
  obtain ⟨-, hvsel, -⟩ := exec_idle_registers hp hi he
  refine ⟨?_, fun hscalar => ?_⟩
  · rw [hvsel, selectPath_eq_true_iff, hi, Option.some.injEq, Option.some.injEq]
  · obtain ⟨k, hk⟩ := command_idle hp i op
    rw [exec_eq_command hi, Host.Outcome.next.injEq, hk] at he
    have hsel : (accept (encode i) op i.forceScalar s).sel = false := hvsel.symm.trans hscalar
    have hunit : vectorUnit t = vectorUnit s := he ▸ vectorUnit_runFor k hsel (absurd rfl) ⟨rfl, rfl⟩
    exact Prod.mk.inj hunit

end Sys2Proof.Safety
end

section
/-! Encoding chunk by chunk (43 R215, 41 R146). -/

namespace Sys2Proof.Machine

/-- Settles O44, by induction on the chunks: whole triplets are encoded apart from what follows them. -/
theorem chunksConcatenate : Obligations.ChunksConcatenate := by
  intro chunks last hchunks
  induction chunks with
  | nil => rfl
  | cons b chunks ih =>
    have hb : b.length % 3 = 0 := hchunks b List.mem_cons_self
    have hrest := ih fun c hc => hchunks c (List.mem_cons_of_mem b hc)
    rw [List.map_cons, List.flatten_cons, List.append_assoc, hrest, List.flatten_cons, List.append_assoc,
      encodeRef_append hb]

end Sys2Proof.Machine
end

section
/-! What `DEC` shows on invalid input, its transfers answered (41 R156, 60 R233). -/

namespace Sys2Proof.Safety

open Sys2Proof.Machine

/-- Settles O32: the outcome of a `DEC` whose checks pass is the decoding's error, and the frame is that of every command. -/
theorem decReportsLeastQuartet : Obligations.DecReportsLeastQuartet := by
  intro S s q h hready hq herr
  have ⟨_, hmod, hcap, _⟩ := hready
  obtain ⟨t, he, hanswers⟩ := exec_dec_answers S h hq
  obtain ⟨hcmd, hvsel, hsetup⟩ := exec_idle_registers h.1 rfl he
  obtain ⟨-, houtside⟩ := commandFrame (.dec S) s t h.1 he
  rw [decResult_ready hready, herr] at hanswers
  obtain ⟨hrecord, -⟩ := hanswers
  have hquartet := (errorNamesLeastQuartet s.sourceBytes q (by rwa [sourceBytes_length]) herr).1
  rw [sourceBytes_length] at hquartet
  exact ⟨t, he, hrecord, by omega, hcmd, hvsel, hsetup, houtside.mono (Nat.min_le_left _ _)⟩

end Sys2Proof.Safety
end

section
/-! No step stops (60 R230), and the acknowledge (60 R243). -/

namespace Sys2Proof.Machine

/-- Settles O11: a command answers a next state, and every other turn is one. -/
theorem stepNeverStops : Obligations.StepNeverStops := by
  intro s
  cases hturn : nextTurn s with
  | command i s' =>
    simp only [step, hturn]
    exact exec_next i s'
  | other s' => exact ⟨s', step_of_nextTurn_other hturn⟩

/-- A `STATUS` write clears `DONE` and `OVR` by their bits, and nothing else (10 R40, R41). -/
theorem writeStatus_eq (v : Word) (s : State) : writeStatus v s = { s with
    done := if v.getLsbD 1 then false else s.done
    ovr := if v.getLsbD 3 then false else s.ovr } := by
  have hclear : ∀ flag w1c : Bool, (flag && !w1c) = if w1c then false else flag := by decide
  simp only [writeStatus, doneNext, ovrNext, Bool.false_or, hclear]

theorem irq_of_done_eq_false {s : State} (h : s.done = false) : s.irq = false := by
  rw [State.irq, h, Bool.false_and]

/-- Settles O14: the write acts on `STATUS` alone, and `irq` needs `DONE`. -/
theorem acknowledgeClearsDone : Obligations.AcknowledgeClearsDone := by
  intro s after rest v hd hrst hin
  have hstep := step_writeReg (r := .status) hd hin hrst rfl (by decide)
  rw [writeReg, writeStatus_eq] at hstep
  exact ⟨_, hstep, rfl, fun h1 => irq_of_done_eq_false (if_pos h1)⟩

end Sys2Proof.Machine
end

section
/-! What one engine step does to a running command, whatever its cursors: the command goes on, or ends with a success or one
error (60 R240). -/

namespace Sys2Proof.Safety

open Sys2Proof.Machine

/-! ### The ends of a step -/

/-- `u` is `s` but for the free values drawn and the working state that no end of a command looks at. -/
def Reworked (s u : State) : Prop :=
  ∃ vec blkOk pad draws, u = { s with vec := vec, blkOk := blkOk, pad := pad, draws := draws }

theorem Reworked.refl (s : State) : Reworked s s := ⟨s.vec, s.blkOk, s.pad, s.draws, rfl⟩

theorem Reworked.draws {s u : State} (h : Reworked s u) (d : Nat) : Reworked s { u with draws := d } := by
  obtain ⟨vec, blkOk, pad, _, rfl⟩ := h
  exact ⟨vec, blkOk, pad, d, rfl⟩

theorem Reworked.vec {s u : State} (h : Reworked s u) (v : VecRegs) : Reworked s { u with vec := v } := by
  obtain ⟨_, blkOk, pad, draws, rfl⟩ := h
  exact ⟨v, blkOk, pad, draws, rfl⟩

theorem Reworked.vdecValid {s u : State} (h : Reworked s u) : Reworked s (vdecValid u) := by
  obtain ⟨_, _, pad, draws, rfl⟩ := h
  exact ⟨_, _, pad, draws, rfl⟩

/-- The running command goes on, no more disturbed than before. -/
structure Undisturbed (s t : State) : Prop where
  phase : t.phase = .run
  earlier : t.earlier = s.earlier
  tainted : t.tainted = s.tainted

theorem Reworked.undisturbed {s u : State} (h : Reworked s u) (hr : s.phase = .run) : Undisturbed s u := by
  obtain ⟨_, _, _, _, rfl⟩ := h
  exact ⟨hr, rfl, rfl⟩

/-- What a step of a codec's loop does: the command goes on, or a failing transfer or an invalid quartet ends it. -/
def LoopStep (s t : State) : Prop :=
  Undisturbed s t ∨ ∃ u, Reworked s u ∧ ((∃ a, t = raiseUnknown a u) ∨ ∃ q, t = raiseInvalid q u)

/-! ### The shared operations -/

theorem loopStep_meetError {s u : State} {go : State → State} (hu : Reworked s u)
    (hgo : ∀ v, Reworked s v → LoopStep s (go v)) (e : Option Word) : LoopStep s (meetError e go u) :=
  meetError_induction (fun a d => .inr ⟨_, hu.draws d, .inl ⟨a, rfl⟩⟩) (fun d => hgo _ (hu.draws d)) e

theorem loopStep_emit {s u : State} (hr : s.phase = .run) (hu : Reworked s u) (k : Nat) (bs : List Byte) :
    LoopStep s (emit k bs u) := by
  obtain ⟨hphase, hearlier, htainted⟩ := hu.undisturbed hr
  exact .inl ⟨hphase, hearlier, htainted⟩

theorem loopStep_unit {s : State} (hr : s.phase = .run) (k : Nat) (bs : List Byte) : LoopStep s (unit k bs s) :=
  loopStep_meetError (.refl s) (fun _ hv => loopStep_emit hr hv k bs) _

theorem loopStep_decUnit {s u : State} (hr : s.phase = .run) (hu : Reworked s u) (k : Nat) (cs bs : List Byte) :
    LoopStep s (decUnit k cs bs u) := by
  refine loopStep_meetError hu (fun v hv => ?_) _
  split
  · exact loopStep_meetError hv (fun _ hw => loopStep_emit hr hw k bs) _
  · exact .inr ⟨v, hv, .inr ⟨_, rfl⟩⟩

theorem LoopStep.goTo {s t : State} (h : LoopStep s t) (g : Stage) : LoopStep s (goTo g t) := by
  rcases h with ⟨hphase, hearlier, htainted⟩ | ⟨u, hu, ⟨a, rfl⟩ | ⟨q, rfl⟩⟩
  · rw [Machine.goTo, if_pos (busy_of_run hphase)]
    exact .inl ⟨hphase, hearlier, htainted⟩
  · rw [goTo_ended (ended_raiseUnknown a u)]
    exact .inr ⟨u, hu, .inl ⟨a, rfl⟩⟩
  · rw [goTo_ended (ended_raiseInvalid q u)]
    exact .inr ⟨u, hu, .inr ⟨q, rfl⟩⟩

@[simp] theorem enterScalar_earlier (s : State) : (enterScalar s).earlier = s.earlier := by
  unfold enterScalar
  split <;> rfl

theorem loopStep_enterScalar {s u : State} (hr : s.phase = .run) (hu : Reworked s u) :
    LoopStep s (enterScalar u) := by
  obtain ⟨hphase, hearlier, htainted⟩ := hu.undisturbed hr
  exact .inl ⟨by rw [enterScalar_phase, hphase], by rw [enterScalar_earlier, hearlier],
    by rw [enterScalar_tainted, htainted]⟩

theorem loopStep_goTo_self {s : State} (hr : s.phase = .run) (g : Stage) : LoopStep s (goTo g s) :=
  LoopStep.goTo (.inl ((Reworked.refl s).undisturbed hr)) g

/-! ### The steps -/

theorem loopStep_vencBlock {s : State} (hr : s.phase = .run) : LoopStep s (vencBlock s) := by
  unfold vencBlock
  refine loopStep_meetError (.refl s) (fun v hv => ?_) _
  exact loopStep_emit hr (hv.vec (encVecRegs v.vec (encWindow v))) _ _

theorem loopStep_vdecBlock {s u : State} (hr : s.phase = .run) (hu : Reworked s u) : LoopStep s (vdecBlock u) := by
  unfold vdecBlock
  refine loopStep_meetError hu (fun v hv => ?_) _
  exact loopStep_emit hr (hv.vec (decVecRegs v.vec (decWindow v))) _ _

theorem loopStep_vectorStep {s : State} (hr : s.phase = .run) : LoopStep s (vectorStep s) := by
  unfold vectorStep
  split
  · unfold vectorEncStep
    split
    · exact loopStep_vencBlock hr
    · exact loopStep_enterScalar hr (.refl s)
  · unfold vectorDecStep
    split
    · refine loopStep_meetError (.refl s) (fun v hv => ?_) _
      split
      · exact loopStep_vdecBlock hr hv.vdecValid
      · exact loopStep_enterScalar hr hv.vdecValid
    · exact loopStep_enterScalar hr (.refl s)
  all_goals exact loopStep_goTo_self hr _

theorem loopStep_scalarEncStep {s : State} (hr : s.phase = .run) : LoopStep s (scalarEncStep s) := by
  unfold scalarEncStep
  split_ifs
  · exact loopStep_unit hr _ _
  · exact LoopStep.goTo (loopStep_unit hr _ _) _
  · exact LoopStep.goTo (loopStep_unit hr _ _) _
  · exact loopStep_goTo_self hr _

theorem loopStep_scalarDecStep {s : State} (hr : s.phase = .run) : LoopStep s (scalarDecStep s) := by
  have hpad : ∀ p, Reworked s { s with pad := p } := fun p => ⟨s.vec, s.blkOk, p, s.draws, rfl⟩
  unfold scalarDecStep
  split
  · exact loopStep_decUnit hr (.refl s) _ _ _
  · refine LoopStep.goTo ?_ _
    simp only [decFinal]
    split <;> exact loopStep_decUnit hr (hpad _) _ _ _

theorem loopStep_scalarStep {s : State} (hr : s.phase = .run) : LoopStep s (scalarStep s) := by
  unfold scalarStep
  split
  · exact loopStep_scalarEncStep hr
  · exact loopStep_scalarDecStep hr
  all_goals exact loopStep_goTo_self hr _

/-- Everything an engine step of a running command can be: the checks, a step of a loop, or the end of the input. A step
that a silent port stalls is one of a loop. -/
theorem engineStep_stages {s : State} (hr : s.phase = .run) : (s.stage = .check ∧ engineStep s = checkStep s) ∨
    (s.stage ≠ .check ∧ s.stage ≠ .finish ∧ LoopStep s (engineStep s)) ∨
    (s.stage = .finish ∧ engineStep s = settle s) := by
  have hloop : ∀ t, LoopStep s t → LoopStep s (if (s.needsBus && !s.bus.answers) = true then s else t) := by
    intro t ht
    split
    · exact .inl ((Reworked.refl s).undisturbed hr)
    · exact ht
  cases hst : s.stage with
  | check => exact .inl ⟨rfl, engineStep_check hr hst⟩
  | vector =>
    refine .inr (.inl ⟨by decide, by decide, ?_⟩)
    simp only [engineStep, hr, hst]
    exact hloop _ (loopStep_vectorStep hr)
  | scalar =>
    refine .inr (.inl ⟨by decide, by decide, ?_⟩)
    simp only [engineStep, hr, hst]
    exact hloop _ (loopStep_scalarStep hr)
  | finish => exact .inr (.inr ⟨rfl, engineStep_finish hr hst⟩)

/-- A step that ends a command ends it with a success or with one error. -/
theorem engineStep_ends {s : State} (hr : s.phase = .run) (hend : (engineStep s).phase = .idle) :
    ∃ u, Reworked s u ∧ ((∃ v, engineStep s = complete v u) ∨ ∃ e, engineStep s = raise e u) := by
  rcases engineStep_stages hr with ⟨-, hstep⟩ | ⟨-, -, hloop⟩ | ⟨-, hstep⟩
  · rcases checkStep_cases s with ⟨e, h⟩ | ⟨v, h⟩ | h
    · exact ⟨s, .refl s, .inr ⟨e, hstep.trans h⟩⟩
    · exact ⟨s, .refl s, .inl ⟨v, hstep.trans h⟩⟩
    · rw [hstep, h, enterTiler_phase, hr] at hend
      cases hend
  · rcases hloop with hgoes | ⟨u, hu, ⟨a, h⟩ | ⟨q, h⟩⟩
    · exact absurd (hgoes.phase.symm.trans hend) (by decide)
    · exact ⟨_, hu.draws _, .inr ⟨_, h⟩⟩
    · rw [raiseInvalid] at h
      split at h
      · exact ⟨u, hu, .inr ⟨_, h⟩⟩
      · exact ⟨_, hu.draws _, .inr ⟨_, h⟩⟩
  · rcases settle_cases s with ⟨d, -, h⟩ | ⟨a, -, h⟩
    · exact ⟨_, (Reworked.refl s).draws d, .inl ⟨_, hstep.trans h⟩⟩
    · exact ⟨_, ((Reworked.refl s).draws _).draws _, .inr ⟨_, hstep.trans h⟩⟩

end Sys2Proof.Safety
end

section
/-! The record and the frame of the step that ends an undisturbed command (60 R240, R241; 20 R92). -/

namespace Sys2Proof.Safety

open Sys2Proof.Machine

/-- The destination is opened by codes 2 and 4 alone (60 R241). -/
theorem opensDest_eq_false {e : CmdError} (h2 : e.code ≠ 2) (h4 : e.code ≠ 4) : e.opensDest = false := by
  cases e with
  | invalidCharacter q => exact absurd rfl h2
  | unknown a => exact absurd rfl h4
  | _ => rfl

theorem sameOutside_raise {u : State} (ht : u.tainted = false) (e : CmdError) :
    SameOutside u.dst u.openLen u (raise e u) := by
  cases he : e.opensDest with
  | false => exact sameOutside_of_mem (raise_mem ht he)
  | true =>
    have hmem : (raise e u).mem = (openDest u).mem := by
      rw [raise, if_pos he, endCommand_of_not_tainted (by exact ht)]
      rfl
    intro a ha
    rw [hmem]
    exact sameOutside_openDest u a ha

/-- The record of `t` is that of a success or of one error, and only an error found in processing changes memory, within
the destination region. -/
structure CleanEnd (s t : State) : Prop where
  record : (∃ v, Completed t 0 v 0) ∨ ∃ e : CmdError, Completed t e.code e.resultWord e.infoWord
  vsel : t.vsel = s.vsel
  cmd : t.cmd = s.cmd
  mem : t.err ≠ 2 → t.err ≠ 4 → t.mem = s.mem
  outside : SameOutside s.dst s.openLen s t

theorem cleanEnd_complete {u : State} (ht : u.tainted = false) (v : Word) : CleanEnd u (complete v u) where
  record := .inl ⟨v, completed_complete ht v⟩
  vsel := (ended_complete v u).vsel
  cmd := (ended_complete v u).cmd
  mem := fun _ _ => complete_mem ht v
  outside := sameOutside_of_mem (complete_mem ht v)

theorem cleanEnd_raise {u : State} (ht : u.tainted = false) (e : CmdError) : CleanEnd u (raise e u) where
  record := .inr ⟨e, completed_raise ht e⟩
  vsel := (ended_raise e u).vsel
  cmd := (ended_raise e u).cmd
  mem := fun h2 h4 => by
    rw [(completed_raise ht e).err] at h2 h4
    exact raise_mem ht (opensDest_eq_false h2 h4)
  outside := sameOutside_raise ht e

/-- Settles O51: the step's end is that of a success or of one error, and engine steps leave the setup alone. -/
theorem completionRecord : Obligations.CompletionRecord := by
  intro s hr ht hend
  obtain ⟨u, hu, hends⟩ := engineStep_ends hr hend
  have htu : u.tainted = false := (hu.undisturbed hr).tainted.trans ht
  have hclean : CleanEnd u (engineStep s) := by
    rcases hends with ⟨v, h⟩ | ⟨e, h⟩ <;> rw [h]
    · exact cleanEnd_complete htu v
    · exact cleanEnd_raise htu e
  obtain ⟨_, _, _, _, rfl⟩ := hu
  exact ⟨hclean.record, hclean.vsel, hclean.cmd, sameSetup_engineStep s, hclean.mem, hclean.outside⟩

end Sys2Proof.Safety
end

section
/-! What a command's admitted errors rest on (60 R239), and that its engine steps leave it alone: the operands, the
environments and the source bytes. -/

namespace Sys2Proof.Safety

open Sys2Proof.Machine

/-- `v` has the operands, the environments and the source bytes of `u`. -/
structure SameFaults (u v : State) : Prop where
  op : v.op = u.op
  srcAddr : v.srcAddr = u.srcAddr
  srcLen : v.srcLen = u.srcLen
  dstAddr : v.dstAddr = u.dstAddr
  bus : v.bus = u.bus
  earlier : v.earlier = u.earlier
  input : ∀ i < u.len, v.input i = u.input i

/-- A command that goes on has changed no source byte, since it stores into its destination alone. -/
theorem Going.sameFaults {u v : State} (g : Going u v) (hp : PastChecks u) (he : v.earlier = u.earlier) :
    SameFaults u v where
  op := g.op
  srcAddr := g.setup.srcAddr
  srcLen := g.setup.srcLen
  dstAddr := g.setup.dstAddr
  bus := g.setup.bus
  earlier := he
  input i hi := by
    have hsrc := src_fits hp
    have hat : (u.srcAt i).toNat = u.src + i := toNat_srcAt u (by omega)
    have hapart := src_outside_dst hp hi (j := 0) (k := u.req) (Nat.zero_add _).le
    have houtside := g.outside
    rw [min_req_cap hp] at houtside
    rw [State.input, State.input, State.srcAt, g.setup.srcAddr]
    change Mem.get _ (u.srcAt i).toNat = _
    exact houtside _ (inRegion_false.2 (by omega))

theorem SameFaults.draws {u v : State} (h : SameFaults u v) (d : Nat) :
    SameFaults { u with draws := d } { v with draws := d } :=
  ⟨h.op, h.srcAddr, h.srcLen, h.dstAddr, h.bus, h.earlier, h.input⟩

theorem decReady_of_pastChecks {u : State} (hp : PastChecks u) (hop : u.op = .dec) : decReady u := by
  simpa only [PastChecks, hop] using hp

section
variable {u v : State} (h : SameFaults u v)
include h

theorem SameFaults.buses : v.buses = u.buses := by rw [State.buses, h.bus, h.earlier, State.buses]

theorem SameFaults.len : v.len = u.len := by rw [State.len, h.srcLen, State.len]

theorem SameFaults.inSource : v.inSource = u.inSource := by
  funext a
  rw [State.inSource, State.src, State.srcRegionLen, h.op, h.len, h.srcAddr]
  rfl

theorem SameFaults.srcAt (i : Nat) : v.srcAt i = u.srcAt i := by rw [State.srcAt, h.srcAddr, State.srcAt]

theorem SameFaults.neverRead (a : Word) : neverRead v a = neverRead u a := by
  rw [Machine.neverRead, h.buses, Machine.neverRead]

theorem SameFaults.sourceVolatile : sourceVolatile v = sourceVolatile u := by
  rw [Machine.sourceVolatile, h.bus, h.inSource, Machine.sourceVolatile]

theorem SameFaults.padCount (hpos : 0 < u.len) : v.padCount = u.padCount := by
  rw [State.padCount, h.len, h.input _ (by omega), h.input _ (by omega), State.padCount]

theorem SameFaults.writtenLen (hp : PastChecks u) : v.writtenLen = u.writtenLen := by
  rw [State.writtenLen, State.writtenLen, h.op, h.len]
  rcases op_of_pastChecks hp with hop | hop
  · simp only [hop]
  · obtain ⟨hpos, -⟩ := decReady_of_pastChecks hp hop
    simp only [hop, h.padCount hpos]

theorem SameFaults.failingAddrs (hp : PastChecks u) : failingAddrs v = failingAddrs u := by
  have hdst : v.dst = u.dst := by rw [State.dst, h.dstAddr, State.dst]
  rw [Machine.failingAddrs, failingReads, failingWrites, h.buses, h.inSource, hdst, h.writtenLen hp]
  rfl

theorem SameFaults.reportedAddr (hd : v.draws = u.draws) (a : Word) : reportedAddr v a = reportedAddr u a := by
  have hcombined : mayBeCombined v a = mayBeCombined u a := by
    simp only [mayBeCombined, failedIn, h.buses, h.inSource]
  rw [Machine.reportedAddr, hcombined, h.inSource, h.srcAddr, h.dstAddr, hd]
  rfl

theorem SameFaults.quartetInvalid {q : Nat} (hq : q < u.len / 4) : quartetInvalid v q = quartetInvalid u q := by
  have htested : testedIn v q = testedIn u q := by rw [testedIn, h.len, h.padCount (by omega), testedIn]
  have hle : testedIn u q ≤ 4 := by
    unfold testedIn
    split <;> omega
  rw [Machine.quartetInvalid, htested, Machine.quartetInvalid, Bool.eq_iff_iff, List.any_eq_true, List.any_eq_true]
  refine exists_congr fun k => and_congr_right fun hk => ?_
  have hk := List.mem_range.1 hk
  rw [h.srcAt, h.neverRead, h.input _ (by omega)]

theorem SameFaults.leastInvalid : leastInvalid v = leastInvalid u := by
  rw [Machine.leastInvalid, Machine.leastInvalid, h.op, h.len]
  have hfind : (List.range (u.len / 4)).find? (Machine.quartetInvalid v) =
      (List.range (u.len / 4)).find? (Machine.quartetInvalid u) :=
    List.find?_congr fun q hq => h.quartetInvalid (List.mem_range.1 hq)
  cases u.op <;> simp only [hfind]

theorem SameFaults.admittedErrors (hp : PastChecks u) (hd : v.draws = u.draws) :
    admittedErrors v = admittedErrors u := by
  have hreported : Machine.reportedAddr v = Machine.reportedAddr u := funext (h.reportedAddr hd)
  rw [Machine.admittedErrors, h.leastInvalid, h.failingAddrs hp, hreported, Machine.admittedErrors]

theorem EndsAdmitted.of_sameFaults (hp : PastChecks u) {t : State} (he : EndsAdmitted v t) : EndsAdmitted u t := by
  obtain ⟨d, e, hmem, hrecord⟩ := he
  rw [(h.draws d).admittedErrors hp rfl] at hmem
  exact ⟨d, e, hmem, hrecord⟩

end

end Sys2Proof.Safety
end

section
/-! The run of a command with a transfer that always fails (20 R82, R83): it ends with one of its admitted errors. -/

namespace Sys2Proof.Safety

open Sys2Proof.Machine

/-! ### The failing transfers -/

/-- One environment has answered all of the command's transfers. -/
theorem buses_of_earlier_nil {u : State} (he : u.earlier = []) (ha : u.bus.answers = true) : u.buses = [u.bus] := by
  simp [State.buses, he, ha]

section
variable {u : State} (hb : u.buses = [u.bus])
include hb

theorem mem_failingReads {a : Word} : a ∈ failingReads u ↔ a ∈ u.bus.rdErr ∧ u.inSource a = true := by
  simp [failingReads, hb]

theorem mem_failingWrites {a : Word} :
    a ∈ failingWrites u ↔ a ∈ u.bus.wrErr ∧ inRegion u.dst u.writtenLen a.toNat = true := by
  simp [failingWrites, hb]

/-- In one environment a transfer that failed fails in whatever order. -/
theorem mustFail_of_failingAddrs (h : failingAddrs u ≠ []) : mustFail u = true := by
  obtain ⟨a, ha⟩ := List.exists_mem_of_ne_nil _ h
  rw [mustFail, Bool.or_eq_true, List.any_eq_true, List.any_eq_true]
  rcases List.mem_append.1 ha with ha | ha
  · exact .inl ⟨a, ha, by simp [neverRead, hb, ((mem_failingReads hb).1 ha).1]⟩
  · exact .inr ⟨a, ha, by simp [neverWritten, hb, ((mem_failingWrites hb).1 ha).1]⟩

theorem failingAddrs_ne_nil (h : u.bus.rdErr.any u.inSource = true ∨
    u.bus.wrErr.any (fun a => inRegion u.dst u.writtenLen a.toNat) = true) : failingAddrs u ≠ [] := by
  rcases h with h | h <;> obtain ⟨a, ha, hin⟩ := List.any_eq_true.1 h
  · exact List.ne_nil_of_mem (List.mem_append_left _ ((mem_failingReads hb).2 ⟨ha, hin⟩))
  · exact List.ne_nil_of_mem (List.mem_append_right _ ((mem_failingWrites hb).2 ⟨ha, hin⟩))

end

/-! ### The steps -/

/-- A running command past its checks or passing them, undisturbed, in one environment in which a transfer of it fails. -/
structure Faulting (u : State) : Prop where
  phase : u.phase = .run
  checks : PastChecks u
  cursors : CursorsOk u
  answers : u.bus.answers = true
  steady : sourceVolatile u = false
  earlier : u.earlier = []
  tainted : u.tainted = false
  fails : failingAddrs u ≠ []

theorem raiseInvalid_of_failingAddrs {u : State} (h : failingAddrs u ≠ []) (q : Nat) :
    raiseInvalid q u = raiseAdmitted (.invalidCharacter (BitVec.ofNat 32 q)) u := by
  unfold raiseInvalid
  split
  · exact absurd ‹_› h
  · rfl

theorem Reworked.failingAddrs {s u : State} (h : Reworked s u) : failingAddrs u = failingAddrs s := by
  obtain ⟨_, _, _, _, rfl⟩ := h
  rfl

theorem Faulting.endsAdmitted_raiseAdmitted {u w : State} (h : Faulting u) (hw : Reworked u w) (e : CmdError) :
    EndsAdmitted u (raiseAdmitted e w) := by
  obtain ⟨e', hmem, hrecord⟩ := completed_raiseAdmitted ((hw.undisturbed h.phase).tainted.trans h.tainted)
    (hw.failingAddrs ▸ h.fails) e
  obtain ⟨_, _, _, draws, rfl⟩ := hw
  exact ⟨draws, e', hmem, hrecord⟩

/-- While the command goes on its faults stay, and it comes nearer to its end. -/
theorem Faulting.goesOn {u : State} (h : Faulting u) (hst : u.stage ≠ .finish) (hv : Undisturbed u (engineStep u)) :
    Faulting (engineStep u) ∧ SameFaults u (engineStep u) ∧ stepsLeft (engineStep u) < stepsLeft u := by
  have hnearer := nearer_engineStep h.phase h.answers fun _ => h.checks
  rcases engineStep_cases h.phase (fun _ => h.checks) h.cursors with hsame | hended | ⟨hgoing, hp, hc⟩
  · rw [hsame, Nearer, h.phase] at hnearer
    simp [hst] at hnearer
  · exact absurd (hv.phase.symm.trans hended.phase) (by decide)
  · have hfaults := hgoing.sameFaults h.checks hv.earlier
    refine ⟨⟨hv.phase, hp, hc, by rw [hfaults.bus, h.answers], by rw [hfaults.sourceVolatile, h.steady],
      hv.earlier.trans h.earlier, hv.tainted.trans h.tainted, by rw [hfaults.failingAddrs h.checks]; exact h.fails⟩,
      hfaults, ?_⟩
    rcases hnearer with hidle | hfinish | hless
    · exact absurd (hv.phase.symm.trans hidle) (by decide)
    · exact stepsLeft_finish hp hc hfinish ▸ stepsLeft_pos hst
    · exact hless

@[simp] theorem enterTiler_earlier (s : State) : (enterTiler s).earlier = s.earlier := by
  simp only [enterTiler]
  split
  · rfl
  · exact enterScalar_earlier _

/-- Each engine step ends the command with an admitted error, or brings it nearer to that. -/
theorem Faulting.progress {u : State} (h : Faulting u) : EndsAdmitted u (engineStep u) ∨
    (Faulting (engineStep u) ∧ SameFaults u (engineStep u) ∧ stepsLeft (engineStep u) < stepsLeft u) := by
  rcases engineStep_stages h.phase with ⟨hst, hstep⟩ | ⟨-, hst, hgoes | ⟨w, hw, ⟨a, hend⟩ | ⟨q, hend⟩⟩⟩ | ⟨-, hstep⟩
  · right
    refine h.goesOn (by rw [hst]; decide) ?_
    rw [hstep, checkStep_of_pastChecks h.checks]
    exact ⟨by rw [enterTiler_phase, h.phase], enterTiler_earlier u,
      by rw [enterTiler_tainted, h.steady, Bool.or_false]⟩
  · exact .inr (h.goesOn hst hgoes)
  · left
    rw [hend]
    exact h.endsAdmitted_raiseAdmitted hw _
  · left
    rw [hend, raiseInvalid_of_failingAddrs (hw.failingAddrs ▸ h.fails)]
    exact h.endsAdmitted_raiseAdmitted hw _
  · left
    rw [hstep]
    rcases completed_settle h.tainted with ⟨hmust, -⟩ | ⟨-, hend⟩
    · rw [mustFail_of_failingAddrs (buses_of_earlier_nil h.earlier h.answers) h.fails] at hmust
      cases hmust
    · exact hend

/-- Enough engine steps end the command with an admitted error, by induction on the steps. -/
theorem Faulting.runFor {u : State} (h : Faulting u) {k : Nat} (hk : stepsLeft u < k) :
    EndsAdmitted u (runFor k u) := by
  induction k generalizing u with
  | zero => exact absurd hk (Nat.not_lt_zero _)
  | succ k ih =>
    rw [runFor_succ h.phase]
    rcases h.progress with hend | ⟨hfaulting, hfaults, hless⟩
    · have ⟨_, _, _, hrecord⟩ := hend
      rwa [runFor_idle hrecord.phase]
    · exact (ih hfaulting (by omega)).of_sameFaults hfaults h.checks

/-- A command whose checks pass and a transfer of which fails ends with one of its admitted errors. -/
theorem exec_endsAdmitted {i : Instr} {op : Op} {s a : State} (h : idleWaiting s) (hi : opOf i = some op)
    (ha : a = accept (encode i) op i.forceScalar s) (hp : PastChecks a) (hans : a.bus.answers = true)
    (hsteady : sourceVolatile a = false) (hfails : failingAddrs a ≠ []) : ∃ t, exec i s = .next t ∧ EndsAdmitted a t := by
  subst ha
  refine ⟨_, exec_eq_command hi s, ?_⟩
  rw [command_idleWaiting h]
  exact Faulting.runFor ⟨rfl, hp, ⟨rfl, rfl⟩, hans, hsteady, rfl, rfl, hfails⟩
    ((stepsLeft_le _).trans_lt (Nat.add_lt_add_left (by decide) _))

end Sys2Proof.Safety
end

section
/-! The records a failing transfer admits (60 R233, R235, R239): `Unknown` with an address of its region, or the least
invalid quartet. -/

namespace Sys2Proof.Safety

open Sys2Proof.Machine

/-! ### The address reported -/

/-- The address reported for a failing transfer lies in its region, not above it, and is its own where transfers are not
combined (60 R235). -/
theorem reportsFor_reportedAddr {u : State} (hb : u.buses = [u.bus]) {a base : Word}
    (hbase : (if u.inSource a then u.srcAddr else u.dstAddr) = base) (hle : base.toNat ≤ a.toNat) :
    reportsFor u base.toNat a (reportedAddr u a) := by
  have hmay : mayBeCombined u a = (u.bus.combined && failedIn u a u.bus) := by simp [mayBeCombined, hb]
  rw [reportedAddr, hbase, hmay, reportsFor]
  cases hc : u.bus.combined with
  | false => rfl
  | true =>
    simp only [Bool.true_and, if_true]
    split
    · have hoff : (a - base).toNat = a.toNat - base.toNat := BitVec.toNat_sub_of_le hle
      have hk : Config.freeChoice u.draws % ((a - base).toNat + 1) < (a - base).toNat + 1 :=
        Nat.mod_lt _ (Nat.succ_pos _)
      have ha := a.isLt
      generalize Config.freeChoice u.draws % ((a - base).toNat + 1) = k at hk ⊢
      rw [toNat_add_ofNat (by omega)]
      omega
    · exact ⟨hle, le_rfl⟩

theorem srcRegionLen_of_pastChecks {u : State} (hp : PastChecks u) : u.srcRegionLen = u.len := by
  rcases op_of_pastChecks hp with hop | hop <;> simp only [State.srcRegionLen, hop]

theorem inRegion_true {base k a : Nat} : inRegion base k a = true ↔ base ≤ a ∧ a < base + k := by
  rw [inRegion, Bool.and_eq_true, decide_eq_true_eq, decide_eq_true_eq]

/-- A byte that the command writes is none that it reads. -/
theorem inSource_eq_false_of_written {u : State} (hp : PastChecks u) {a : Word}
    (h : inRegion u.dst u.writtenLen a.toNat = true) : u.inSource a = false := by
  rw [State.inSource, srcRegionLen_of_pastChecks hp, inRegion_false]
  obtain ⟨hge, hlt⟩ := inRegion_true.1 h
  have hwritten := writtenLen_le u
  by_contra hin
  have := src_outside_dst hp (i := a.toNat - u.src) (j := 0) (k := u.req) (by omega) (Nat.zero_add _).le
  omega

/-- An admitted `Unknown` names a failing transfer of the command. -/
theorem endsUnknown_of_failingAddr {u t : State} (hp : PastChecks u) (hb : u.buses = [u.bus]) {a : Word}
    (ha : a ∈ failingAddrs u) (ht : Completed t 4 0 (reportedAddr u a)) : EndsUnknown u.writtenLen u t := by
  refine ⟨a, _, ht, ?_⟩
  rcases List.mem_append.1 ha with ha | ha
  · obtain ⟨hread, hin⟩ := (mem_failingReads hb).1 ha
    have hregion : inRegion u.src u.len a.toNat = true := by rwa [← srcRegionLen_of_pastChecks hp]
    exact .inl ⟨hread, hregion, reportsFor_reportedAddr hb (if_pos hin) (inRegion_true.1 hregion).1⟩
  · obtain ⟨hwrite, hregion⟩ := (mem_failingWrites hb).1 ha
    have hout : ¬ u.inSource a = true := Bool.eq_false_iff.1 (inSource_eq_false_of_written hp hregion)
    exact .inr ⟨hwrite, hregion, reportsFor_reportedAddr hb (if_neg hout) (inRegion_true.1 hregion).1⟩

/-! ### The records -/

theorem mem_admittedErrors {u : State} {e : CmdError} : e ∈ admittedErrors u ↔
    (∃ q, leastInvalid u = some q ∧ .invalidCharacter (BitVec.ofNat 32 q) = e) ∨
    ∃ a ∈ failingAddrs u, .unknown (reportedAddr u a) = e := by
  simp [admittedErrors]

/-- The end of a command with an admitted error, in the statements' terms. -/
theorem EndsAdmitted.cases {u t : State} (h : EndsAdmitted u t) (hp : PastChecks u) (hb : u.buses = [u.bus]) :
    EndsUnknown u.writtenLen u t ∨ ∃ q, leastInvalid u = some q ∧ Completed t 2 0 (BitVec.ofNat 32 q) := by
  obtain ⟨d, e, hmem, hrecord⟩ := h
  rcases mem_admittedErrors.1 hmem with ⟨q, hq, rfl⟩ | ⟨a, ha, rfl⟩
  · exact .inr ⟨q, hq, hrecord⟩
  · exact .inl (endsUnknown_of_failingAddr (u := { u with draws := d }) hp hb ha hrecord)

theorem leastInvalid_enc {u : State} (hop : u.op = .enc) : leastInvalid u = none := by
  simp only [leastInvalid, hop]

/-- The least invalid quartet of a `DEC` input is invalid, and none before it is. -/
theorem leastInvalid_dec {u : State} (hop : u.op = .dec) {q : Nat} (h : leastInvalid u = some q) :
    q < u.len / 4 ∧ quartetInvalid u q = true ∧ ∀ q' < q, quartetInvalid u q' = false := by
  simp only [leastInvalid, hop, List.find?_range_eq_some, List.mem_range, Bool.not_eq_true'] at h
  obtain ⟨hinvalid, hlt, hbefore⟩ := h
  exact ⟨hlt, hinvalid, hbefore⟩

/-- Settles O33: an `ENC` has no invalid quartet, so its admitted errors are those of its failing transfers. -/
theorem encBusErrorIsUnknown : Obligations.EncBusErrorIsUnknown := by
  intro S s h hready hans hvolatile hfails
  have hb : (accept (encode (.enc S)) .enc S s).buses = [s.bus] := buses_of_earlier_nil rfl hans
  obtain ⟨t, he, hends⟩ := exec_endsAdmitted h rfl rfl (by exact hready) hans (by exact hvolatile)
    (failingAddrs_ne_nil hb (by exact hfails))
  rcases hends.cases (by exact hready) hb with hunknown | ⟨q, hq, -⟩
  · exact ⟨t, he, hunknown⟩
  · rw [leastInvalid_enc rfl] at hq
    cases hq

/-- Settles O34: the admitted errors of a `DEC` are those of its failing transfers and its least invalid quartet. -/
theorem decBusErrorOrInvalid : Obligations.DecBusErrorOrInvalid := by
  intro S s h hready hans hvolatile hfails
  have hb : (accept (encode (.dec S)) .dec S s).buses = [s.bus] := buses_of_earlier_nil rfl hans
  obtain ⟨t, he, hends⟩ := exec_endsAdmitted h rfl rfl (by exact hready) hans (by exact hvolatile)
    (failingAddrs_ne_nil hb (by exact hfails))
  refine ⟨t, he, ?_⟩
  rcases hends.cases (by exact hready) hb with hunknown | ⟨q, hq, hrecord⟩
  · exact .inl hunknown
  · obtain ⟨hlt, hinvalid, hbefore⟩ := leastInvalid_dec rfl hq
    exact .inr ⟨q, hrecord, hlt, hinvalid, hbefore⟩

end Sys2Proof.Safety
end

section
/-! Reset, and the moves of other agents while a command runs (70 R260, R261, R265, R266, R272). -/

namespace Sys2Proof.Machine

open Sys2Proof.Safety

/-- A due move that carries no command is a step of its own. -/
theorem step_hostAct {s : State} {after : Option Nat} {act : HostAct} {rest : List HostMove} (hd : dueNow after s)
    (hin : s.inbox = { after := after, act := act } :: rest)
    (hact : moveTurn act { s with inbox := rest } = .other (hostAct act { s with inbox := rest })) :
    step s = .next (hostAct act { s with inbox := rest }) :=
  step_of_nextTurn_other ((nextTurn_due hd hin).trans hact)

/-! ### Reset -/

theorem assertReset_run {s : State} (h : s.phase = .run) : assertReset s = resetBlock (openDest s) := by
  rw [assertReset, if_pos (busy_of_run h)]

theorem assertReset_idle {s : State} (h : s.phase = .idle) : assertReset s = resetBlock s := by
  rw [assertReset, if_neg (busy_of_idle h ▸ Bool.false_ne_true)]

/-- Reset puts every register but `CAP`, which shows a parameter, to its value in the reset state (10 R57). -/
theorem readReg_resetBlock {r : Reg} (h : r ≠ .cap) (s : State) :
    readReg r (resetBlock s) = readReg r State.reset := by
  cases r with
  | cap => exact absurd rfl h
  | _ => rfl

/-- While reset is asserted no write carries a command (70 R260). -/
theorem commandWord_of_rst {s : State} (h : s.rst = true) (a : PortAddr) (size : AccessSize) (v : Word) :
    commandWord a size v s = none := by
  unfold commandWord
  split
  · rfl
  · rw [h, Bool.not_true, Bool.and_false]
    rfl

/-- Settles O6: the reset opens the destination of the command it cuts off, and its block has no record. -/
theorem resetAbortsCommand : Obligations.ResetAbortsCommand := by
  intro s rest hr hin
  have hstep := step_hostAct (.inr rfl) hin rfl
  rw [hostAct, assertReset_run (by exact hr)] at hstep
  exact ⟨_, hstep, rfl, rfl, rfl, rfl, rfl, fun j hj => get_openDest (s := { s with inbox := rest }) hj,
    sameOutside_openDest { s with inbox := rest }⟩

/-- Settles O7: the reset block has the reset state's registers, and its port answers without looking at them. -/
theorem resetHoldsBlock : Obligations.ResetHoldsBlock := by
  refine ⟨fun s after rest hi hin => ?_, fun s after rest off v hrst hi hal hin => ?_,
    fun s after rest off hrst hi hal hin => ?_, fun s after rest hd hin => step_hostAct hd hin rfl⟩
  · obtain ⟨-, -, hzero, -⟩ := resetState
    have hstep := step_hostAct (.inl hi) hin rfl
    rw [hostAct, assertReset_idle (by exact hi)] at hstep
    exact ⟨_, hstep, fun r hid hcap => (readReg_resetBlock hcap _).trans (hzero r hid hcap), rfl, rfl, rfl, rfl⟩
  · rw [step_regWrite (.inl hi) hin (commandWord_of_rst (by exact hrst) _ _ _),
      portWrite_legal rfl (legalAccess_word hal), if_pos (by exact hrst)]
    rfl
  · rw [step_regRead (.inl hi) hin, portRead_legal rfl (legalAccess_word hal), if_pos (by exact hrst)]
    rfl

/-! ### Other agents -/

/-- Settles O55: the byte is stored whatever it disturbs, and it disturbs by its address alone. -/
theorem bufferWriteDisturbs : Obligations.BufferWriteDisturbs := by
  intro s rest a v hr hin
  refine ⟨_, step_hostAct (.inr rfl) hin rfl, get_set_self _ _ _, fun b hb => get_set_ne _ _ hb, ?_, rfl⟩
  change (s.tainted || (s.busy && (s.inSource a || s.inDest a))) = true ↔ _
  rw [busy_of_run hr, Bool.true_and, Bool.or_eq_true, Bool.or_eq_true]

theorem otherRead_dest {s : State} {a : Word} (hr : s.phase = .run) (ha : s.inDest a = true) : otherRead a s =
    answer ((Config.freeByte s.draws).setWidth 32) false { s with draws := s.draws + 1 } := by
  rw [otherRead, busy_of_run hr, ha]
  rfl

theorem otherRead_elsewhere {s : State} {a : Word} (h : s.phase = .idle ∨ s.inDest a = false) :
    otherRead a s = answer ((Mem.get s.mem a.toNat).setWidth 32) false s := by
  have hfree : ¬ (s.busy && s.inDest a) = true := by
    rcases h with h | h
    · simp [busy_of_idle h]
    · simp [h]
  rw [otherRead, if_neg hfree]

/-- Settles O58: a read in the running command's destination draws a free byte, any other answers memory's. -/
theorem destinationReadWhileBusy : Obligations.DestinationReadWhileBusy := by
  intro s after rest a hd hin
  have hstep := step_hostAct hd hin rfl
  rw [hostAct] at hstep
  refine ⟨fun hr ha => ?_, fun h => ?_⟩
  · rw [hstep, otherRead_dest (by exact hr) (by exact ha)]
    rfl
  · rw [hstep, otherRead_elsewhere (by exact h)]
    rfl

/-! ### A silent port -/

/-- Settles O54: a step that needs the port is guarded by its answering. -/
theorem silentPortStalls : Obligations.SilentPortStalls := by
  intro s hr hneeds hsilent
  have hstalls : (s.needsBus && !s.bus.answers) = true := by rw [hneeds, hsilent]; rfl
  simp only [engineStep, hr, if_pos hstalls]

end Sys2Proof.Machine
end

section
/-! What the host sees after a command it has started (70 R264), and how a disturbed command ends (70 R265). -/

namespace Sys2Proof.Safety

open Sys2Proof.Machine

/-- Settles O24: an accepted command has ended, with `DONE` set, or goes on with the `DONE` that acceptance cleared. -/
theorem busyOrDoneAfterCommand : Obligations.BusyOrDoneAfterCommand := by
  intro i s t hp hne he
  obtain ⟨op, hi⟩ := exists_opOf hne
  rcases exec_idle_cases hp hi he with hended | hgoing
  · refine .inr ⟨busy_of_idle hended.phase, hended.done, ?_⟩
    rw [State.irq, hended.done, Bool.true_and, hended.setup.doneIE]
    rfl
  · exact .inl ⟨busy_of_run hgoing.phase, irq_of_done_eq_false hgoing.done⟩

/-! ### The end of a disturbed command -/

/-- The disturbed command of `s` has ended in `t`: its destination bytes and its record are successive free values (70
R265). -/
def EndsFree (s t : State) : Prop :=
  ∃ d : Nat,
    Completed t ((Config.freeErr (d + s.openLen)).setWidth 4) (Config.freeWord (d + s.openLen))
      (Config.freeWord (d + s.openLen + 1)) ∧
    t.err.toNat < 8 ∧
    (∀ j, j < s.openLen → Mem.get t.mem (s.dst + j) = Config.freeByte (d + j)) ∧
    SameOutside s.dst s.openLen s t

theorem endsFree_recordAny (u : State) : EndsFree u (recordAny u) :=
  ⟨u.draws, ⟨rfl, rfl, rfl, rfl, rfl⟩, (ended_recordAny u).code, fun _ => get_openDest, sameOutside_openDest u⟩

/-- A destination opened by an error is opened again by the disturbed end: no byte outside it changes. -/
theorem EndsFree.of_openDest {u t : State} (h : EndsFree (openDest u) t) : EndsFree u t := by
  obtain ⟨d, hrecord, hcode, hbytes, houtside⟩ := h
  exact ⟨d, hrecord, hcode, hbytes, (sameOutside_openDest u).trans houtside⟩

theorem endCommand_of_tainted {u : State} (ht : u.tainted = true) (code : BitVec 4) (result info : Word) :
    endCommand code result info u = recordAny u :=
  if_pos ht

theorem endsFree_complete {u : State} (ht : u.tainted = true) (v : Word) : EndsFree u (complete v u) := by
  rw [complete, endCommand_of_tainted ht]
  exact endsFree_recordAny u

theorem endsFree_raise {u : State} (ht : u.tainted = true) (e : CmdError) : EndsFree u (raise e u) := by
  rw [raise]
  split
  · rw [endCommand_of_tainted (by exact ht)]
    exact (endsFree_recordAny (openDest u)).of_openDest
  · rw [endCommand_of_tainted ht]
    exact endsFree_recordAny u

/-- Settles O57: the step's end is that of a success or of one error, and neither record survives the disturbance. -/
theorem disturbedCommandEndsFree : Obligations.DisturbedCommandEndsFree := by
  intro s hr ht hend
  obtain ⟨u, hu, hends⟩ := engineStep_ends hr hend
  have htu : u.tainted = true := (hu.undisturbed hr).tainted.trans ht
  have hfree : EndsFree u (engineStep s) := by
    rcases hends with ⟨v, h⟩ | ⟨e, h⟩ <;> rw [h]
    · exact endsFree_complete htu v
    · exact endsFree_raise htu e
  obtain ⟨_, _, _, _, rfl⟩ := hu
  exact hfree

end Sys2Proof.Safety
end
